-- ==== Sys2Proof/Word.lean ====
section
/-! DEFINITION. The word types of the ring controller and the shape of its keyed collections.
Widths: 10_state.md R41, R49; 30_encoding.md R130. -/

namespace Sys2Proof

abbrev Byte := BitVec 8

/-- `cs`, `len`, `EVT`, `IMASK` (10_state.md R41, R49). -/
abbrev Half := BitVec 16

/-- A DMA address: `ADDR_W = 32` (00_scope.md R10). -/
abbrev Addr := BitVec 32

/-- An operation word (30_encoding.md R130). -/
abbrev Word := BitVec 32

/-- A sparse collection by number, keys strictly rising. -/
abbrev Table (α : Type) := List (Nat × α)

/-- Memory as the host's cells (address, byte), addresses strictly rising. -/
abbrev Memory := List Host.Cell

end Sys2Proof
end

