-- ==== Sys2Proof/Config.lean ====
section
/-! DEFINITION. The implementation parameters of 00_scope.md R10. They are the arguments of the model: a state carries
one value of this type, no step changes it, and a statement about every state is a statement about every
configuration (notes/assumptions/5.md). -/

namespace Sys2Proof

/-- Byte order (20_memory.md R87, R88). -/
inductive Endian
  | big
  | little
  deriving DecidableEq, Repr

/-- The two driver variants (00_scope.md R11). -/
inductive Profile
  | single
  | multi
  deriving DecidableEq, Repr

/-- 00_scope.md R10. `ADDR_W = 32` and `EVT_W = 16` are the widths of `Addr` and `Half`. -/
structure Config where
  /-- `R` -/
  rxCap : Nat
  /-- `T` -/
  txCap : Nat
  /-- `BUF_SIZE` -/
  bufSize : Nat
  /-- `N_INST` -/
  nInst : Nat
  /-- `PROFILE` -/
  profile : Profile
  /-- `THREADS` -/
  threads : List Nat
  /-- `DESC_BASE` -/
  descBase : Nat
  /-- `DESC_ENDIAN` -/
  descEndian : Endian
  /-- `REG_ENDIAN` -/
  regEndian : Endian
  /-- `REG_EVT` -/
  regEvt : Nat
  /-- `REG_MASK` -/
  regMask : Nat
  /-- `LOOPBACK` -/
  loopback : Bool
  /-- `RX_INIT_IRQ` -/
  rxInitIrq : Bool
  deriving DecidableEq, Repr

/-- Configuration `C0` of 95_test_vectors.md section 0, the test configuration of R10. -/
def Config.c0 : Config where
  rxCap := 2
  txCap := 16
  bufSize := 256
  nInst := 2
  profile := .multi
  threads := [0, 1, 2]
  descBase := 0x1000
  descEndian := .big
  regEndian := .big
  regEvt := 0
  regMask := 2
  loopback := false
  rxInitIrq := true

/-- Configuration `C1` of 95_test_vectors.md section 0. -/
def Config.c1 : Config :=
  { Config.c0 with rxCap := 1, txCap := 2, bufSize := 4, nInst := 1, profile := .single }

end Sys2Proof
end

