-- ==== Sys2Proof/Syntax.lean ====
section
/-! DEFINITION. The operations of the block: one constructor per row of spec/opcode_table.json (30_encoding.md R135).
`INST`, slot indices, lengths, counts and thread ids are unsigned counts (00_scope.md R12); register values and masks
are 16-bit vectors. -/

namespace Sys2Proof

/-- `RX` is 0, `TX` is 1 (00_scope.md R16). -/
inductive Dir
  | rx
  | tx
  deriving DecidableEq, Repr

/-- The operations. Argument order is the field order of the word: `INST`, `DIR`, `LF`, `IMM16`. -/
inductive Instr
  /-- `RING_INIT` (40_ring.md R201) -/
  | ringInit (n : Nat)
  /-- `DESC_AT` (40_ring.md R203) -/
  | descAt (n : Nat) (d : Dir) (idx : Nat)
  /-- `ADVANCE` (40_ring.md R205) -/
  | advance (d : Dir) (idx : Nat)
  /-- `TAKE_WR` (41_ownership.md R221) -/
  | takeWr (n : Nat) (maxLen : Nat)
  /-- `TAKE_RD` (41_ownership.md R225) -/
  | takeRd (n : Nat) (maxLen : Nat)
  /-- `WAIT` (44_gate.md R292 to R295) -/
  | wait (n : Nat) (d : Dir)
  /-- `SIGNAL` (44_gate.md R297) -/
  | signal (n : Nat) (d : Dir)
  /-- `CANCEL` (44_gate.md R298) -/
  | cancel (t : Nat)
  /-- `SPURIOUS_WAKE` (44_gate.md R299) -/
  | spuriousWake (n : Nat) (d : Dir) (t : Nat)
  /-- `READ` (44_gate.md R300) -/
  | read (n : Nat) (maxLen : Nat)
  /-- `WRITE` (44_gate.md R301) -/
  | write (n : Nat) (len : Nat)
  /-- `EVT_READ` (43_dispatcher.md R271) -/
  | evtRead (n : Nat)
  /-- `EVT_ACK` (43_dispatcher.md R272) -/
  | evtAck (n : Nat) (m : Half)
  /-- `IMASK_WRITE` (43_dispatcher.md R273) -/
  | imaskWrite (n : Nat) (v : Half)
  /-- `IRQ_DISPATCH` (43_dispatcher.md R277) -/
  | irqDispatch (n : Nat)
  /-- `BRINGUP` (45_registry.md R332) -/
  | bringup
  /-- `LOOKUP` (45_registry.md R334) -/
  | lookup (n : Nat)
  /-- `TEARDOWN` (45_registry.md R336) -/
  | teardown (n : Nat)
  /-- `OPEN` (45_registry.md R338) -/
  | openInst (n : Nat)
  /-- `CLOSE` (45_registry.md R339) -/
  | closeInst
  /-- `HW_RX_COMPLETE` (42_dma_engine.md R242) -/
  | hwRxComplete (n : Nat) (lf : Bool) (count : Nat)
  /-- `HW_RX_COMPLETE_ERR` (42_dma_engine.md R243) -/
  | hwRxCompleteErr (n : Nat) (lf : Bool) (count : Nat)
  /-- `HW_RX_BUSY` (42_dma_engine.md R244) -/
  | hwRxBusy (n : Nat)
  /-- `HW_TX_COMPLETE` (42_dma_engine.md R250) -/
  | hwTxComplete (n : Nat)
  /-- `HW_TX_ERROR` (42_dma_engine.md R251) -/
  | hwTxError (n : Nat) (sent : Nat)
  deriving DecidableEq, Repr

end Sys2Proof
end

