-- ==== Sys2Proof/WellFormed.lean ====
section
/-! DEFINITION. What a well-formed operation and a well-formed configuration are: the field widths of 30_encoding.md R130
and the constraints of 00_scope.md R10 and R11. -/

namespace Sys2Proof

/-- `INST` has four bits (30_encoding.md R130). -/
def instOk (n : Nat) : Bool := decide (n < 16)

/-- `IMM16` has sixteen bits (30_encoding.md R130, R131). -/
def immOk (i : Nat) : Bool := decide (i < 65536)

/-- The operands of an operation fit its word. -/
def Instr.wf : Instr → Bool
  | .ringInit n => instOk n
  | .descAt n _ i => instOk n && immOk i
  | .advance _ i => immOk i
  | .takeWr n m => instOk n && immOk m
  | .takeRd n m => instOk n && immOk m
  | .wait n _ => instOk n
  | .signal n _ => instOk n
  | .cancel t => immOk t
  | .spuriousWake n _ t => instOk n && immOk t
  | .read n m => instOk n && immOk m
  | .write n m => instOk n && immOk m
  | .evtRead n => instOk n
  | .evtAck n _ => instOk n
  | .imaskWrite n _ => instOk n
  | .irqDispatch n => instOk n
  | .bringup => true
  | .lookup n => instOk n
  | .teardown n => instOk n
  | .openInst n => instOk n
  | .closeInst => true
  | .hwRxComplete n _ c => instOk n && immOk c
  | .hwRxCompleteErr n _ c => instOk n && immOk c
  | .hwRxBusy n => instOk n
  | .hwTxComplete n => instOk n
  | .hwTxError n c => instOk n && immOk c

/-- A count in `[1, 65535]`: the constraint on `R`, `T` and `BUF_SIZE` (00_scope.md R10). -/
def sizeOk (k : Nat) : Bool := decide (1 ≤ k) && decide (k ≤ 65535)

/-- The constraints of 00_scope.md R10 and R11, the set `THREADS` being listed in rising order, with the descriptor area inside the 32-bit space (20_memory.md R82). -/
def Config.wf (c : Config) : Bool :=
  sizeOk c.rxCap && sizeOk c.txCap && sizeOk c.bufSize
    && (decide (1 ≤ c.nInst) && decide (c.nInst ≤ 16))
    && (c.profile != .single || c.nInst == 1)
    && (c.threads.all (fun t => decide (t < 65536)) && decide (c.threads.Pairwise (· < ·)))
    && (c.descBase % 8 == 0 && decide (c.descBase + 8 * (c.rxCap + c.txCap) ≤ 2 ^ 32))
    && (c.regEvt % 2 == 0 && c.regMask % 2 == 0 && c.regEvt != c.regMask)

end Sys2Proof
end

