-- ==== Sys2Proof/Decode.lean ====
section
/-! DEFINITION. The operation word (30_encoding.md section 3 to 5): its fields, the decoder, total on every 32-bit word and
rejecting by name, the encoder, the machine-readable rows of the opcode map and the assembler spelling of R145. -/

namespace Sys2Proof

/-- The fields of a word (30_encoding.md R130), each zero-extended (R131). -/
structure Fields where
  opc : Nat
  inst : Nat
  dir : Nat
  rsv : Nat
  lf : Nat
  imm : Nat
  deriving DecidableEq, Repr

/-- Why a word is `Illegal` (30_encoding.md R140). -/
inductive DecodeError
  /-- The operation code is in no row of R135. -/
  | unassignedOpc (opc : Nat)
  /-- Bits 18:17 are not 0. -/
  | reservedBits
  /-- A fixed field differs from the row. -/
  | fixedFields
  deriving DecidableEq, Repr

/-- The bits of each field (30_encoding.md R130). -/
def fieldsOf (w : Word) : Fields where
  opc := w.toNat / 2 ^ 24
  inst := w.toNat / 2 ^ 20 % 16
  dir := w.toNat / 2 ^ 19 % 2
  rsv := w.toNat / 2 ^ 17 % 4
  lf := w.toNat / 2 ^ 16 % 2
  imm := w.toNat % 2 ^ 16

/-- `RX` is 0, `TX` is 1 (00_scope.md R16). -/
def dirOf (b : Nat) : Dir := if b = 0 then .rx else .tx

def dirBit : Dir → Nat
  | .rx => 0
  | .tx => 1

/-- The operation if the row's fixed fields are as the row says. -/
def fixedIf (ok : Bool) (i : Instr) : Except DecodeError Instr :=
  if ok then .ok i else .error .fixedFields

/-- The rows of 30_encoding.md R135: the operation code selects the row, the fixed fields are checked. -/
def decodeFields (f : Fields) : Except DecodeError Instr :=
  match f.opc with
  | 0x01 => fixedIf (f.dir == 0 && f.lf == 0 && f.imm == 0) (.ringInit f.inst)
  | 0x02 => fixedIf (f.lf == 0) (.descAt f.inst (dirOf f.dir) f.imm)
  | 0x03 => fixedIf (f.inst == 0 && f.lf == 0) (.advance (dirOf f.dir) f.imm)
  | 0x10 => fixedIf (f.dir == 1 && f.lf == 0) (.takeWr f.inst f.imm)
  | 0x11 => fixedIf (f.dir == 0 && f.lf == 0) (.takeRd f.inst f.imm)
  | 0x20 => fixedIf (f.lf == 0 && f.imm == 0) (.wait f.inst (dirOf f.dir))
  | 0x21 => fixedIf (f.lf == 0 && f.imm == 0) (.signal f.inst (dirOf f.dir))
  | 0x22 => fixedIf (f.inst == 0 && f.dir == 0 && f.lf == 0) (.cancel f.imm)
  | 0x23 => fixedIf (f.lf == 0) (.spuriousWake f.inst (dirOf f.dir) f.imm)
  | 0x30 => fixedIf (f.dir == 0 && f.lf == 0) (.read f.inst f.imm)
  | 0x31 => fixedIf (f.dir == 1 && f.lf == 0) (.write f.inst f.imm)
  | 0x40 => fixedIf (f.dir == 0 && f.lf == 0 && f.imm == 0) (.evtRead f.inst)
  | 0x41 => fixedIf (f.dir == 0 && f.lf == 0) (.evtAck f.inst (BitVec.ofNat 16 f.imm))
  | 0x42 => fixedIf (f.dir == 0 && f.lf == 0) (.imaskWrite f.inst (BitVec.ofNat 16 f.imm))
  | 0x43 => fixedIf (f.dir == 0 && f.lf == 0 && f.imm == 0) (.irqDispatch f.inst)
  | 0x50 => fixedIf (f.inst == 0 && f.dir == 0 && f.lf == 0 && f.imm == 0) .bringup
  | 0x51 => fixedIf (f.dir == 0 && f.lf == 0 && f.imm == 0) (.lookup f.inst)
  | 0x52 => fixedIf (f.dir == 0 && f.lf == 0 && f.imm == 0) (.teardown f.inst)
  | 0x53 => fixedIf (f.dir == 0 && f.lf == 0 && f.imm == 0) (.openInst f.inst)
  | 0x54 => fixedIf (f.inst == 0 && f.dir == 0 && f.lf == 0 && f.imm == 0) .closeInst
  | 0x70 => fixedIf (f.dir == 0) (.hwRxComplete f.inst (f.lf == 1) f.imm)
  | 0x71 => fixedIf (f.dir == 0) (.hwRxCompleteErr f.inst (f.lf == 1) f.imm)
  | 0x72 => fixedIf (f.dir == 0 && f.lf == 0 && f.imm == 0) (.hwRxBusy f.inst)
  | 0x73 => fixedIf (f.dir == 1 && f.lf == 0 && f.imm == 0) (.hwTxComplete f.inst)
  | 0x74 => fixedIf (f.dir == 1 && f.lf == 0) (.hwTxError f.inst f.imm)
  | opc => .error (.unassignedOpc opc)

/-- The decoder (30_encoding.md R136, R140): reserved bits 18:17 must be 0 in every operation of the map. -/
def decode (w : Word) : Except DecodeError Instr :=
  match decodeFields (fieldsOf w) with
  | .error e => .error e
  | .ok i => if (fieldsOf w).rsv = 0 then .ok i else .error .reservedBits

/-- The fields of an operation's word; `rsv` is 0 (30_encoding.md R135). -/
def encodeFields : Instr → Fields
  | .ringInit n => ⟨0x01, n, 0, 0, 0, 0⟩
  | .descAt n d i => ⟨0x02, n, dirBit d, 0, 0, i⟩
  | .advance d i => ⟨0x03, 0, dirBit d, 0, 0, i⟩
  | .takeWr n m => ⟨0x10, n, 1, 0, 0, m⟩
  | .takeRd n m => ⟨0x11, n, 0, 0, 0, m⟩
  | .wait n d => ⟨0x20, n, dirBit d, 0, 0, 0⟩
  | .signal n d => ⟨0x21, n, dirBit d, 0, 0, 0⟩
  | .cancel t => ⟨0x22, 0, 0, 0, 0, t⟩
  | .spuriousWake n d t => ⟨0x23, n, dirBit d, 0, 0, t⟩
  | .read n m => ⟨0x30, n, 0, 0, 0, m⟩
  | .write n m => ⟨0x31, n, 1, 0, 0, m⟩
  | .evtRead n => ⟨0x40, n, 0, 0, 0, 0⟩
  | .evtAck n m => ⟨0x41, n, 0, 0, 0, m.toNat⟩
  | .imaskWrite n v => ⟨0x42, n, 0, 0, 0, v.toNat⟩
  | .irqDispatch n => ⟨0x43, n, 0, 0, 0, 0⟩
  | .bringup => ⟨0x50, 0, 0, 0, 0, 0⟩
  | .lookup n => ⟨0x51, n, 0, 0, 0, 0⟩
  | .teardown n => ⟨0x52, n, 0, 0, 0, 0⟩
  | .openInst n => ⟨0x53, n, 0, 0, 0, 0⟩
  | .closeInst => ⟨0x54, 0, 0, 0, 0, 0⟩
  | .hwRxComplete n lf c => ⟨0x70, n, 0, 0, lf.toNat, c⟩
  | .hwRxCompleteErr n lf c => ⟨0x71, n, 0, 0, lf.toNat, c⟩
  | .hwRxBusy n => ⟨0x72, n, 0, 0, 0, 0⟩
  | .hwTxComplete n => ⟨0x73, n, 1, 0, 0, 0⟩
  | .hwTxError n c => ⟨0x74, n, 1, 0, 0, c⟩

/-- The word with these fields (30_encoding.md R130). -/
def packFields (f : Fields) : Word :=
  BitVec.ofNat 32
    (f.opc * 2 ^ 24 + f.inst * 2 ^ 20 + f.dir * 2 ^ 19 + f.rsv * 2 ^ 17 + f.lf * 2 ^ 16 + f.imm)

def encode (i : Instr) : Word := packFields (encodeFields i)

/-- The name of an operation in spec/opcode_table.json. -/
def Instr.mnemonic : Instr → String
  | .ringInit _ => "RING_INIT"
  | .descAt _ _ _ => "DESC_AT"
  | .advance _ _ => "ADVANCE"
  | .takeWr _ _ => "TAKE_WR"
  | .takeRd _ _ => "TAKE_RD"
  | .wait _ _ => "WAIT"
  | .signal _ _ => "SIGNAL"
  | .cancel _ => "CANCEL"
  | .spuriousWake _ _ _ => "SPURIOUS_WAKE"
  | .read _ _ => "READ"
  | .write _ _ => "WRITE"
  | .evtRead _ => "EVT_READ"
  | .evtAck _ _ => "EVT_ACK"
  | .imaskWrite _ _ => "IMASK_WRITE"
  | .irqDispatch _ => "IRQ_DISPATCH"
  | .bringup => "BRINGUP"
  | .lookup _ => "LOOKUP"
  | .teardown _ => "TEARDOWN"
  | .openInst _ => "OPEN"
  | .closeInst => "CLOSE"
  | .hwRxComplete _ _ _ => "HW_RX_COMPLETE"
  | .hwRxCompleteErr _ _ _ => "HW_RX_COMPLETE_ERR"
  | .hwRxBusy _ => "HW_RX_BUSY"
  | .hwTxComplete _ => "HW_TX_COMPLETE"
  | .hwTxError _ _ => "HW_TX_ERROR"

/-- One row of the opcode map in mask form (30_encoding.md R136). -/
structure OpRow where
  mnemonic : String
  pattern : Word
  mask : Word
  deriving DecidableEq, Repr

/-- `match` and `mask` of every row, as spec/opcode_table.json has them. -/
def opRows : List OpRow :=
  [⟨"RING_INIT", 0x01000000, 0xFF0FFFFF⟩, ⟨"DESC_AT", 0x02000000, 0xFF070000⟩,
   ⟨"ADVANCE", 0x03000000, 0xFFF70000⟩, ⟨"TAKE_WR", 0x10080000, 0xFF0F0000⟩,
   ⟨"TAKE_RD", 0x11000000, 0xFF0F0000⟩, ⟨"WAIT", 0x20000000, 0xFF07FFFF⟩,
   ⟨"SIGNAL", 0x21000000, 0xFF07FFFF⟩, ⟨"CANCEL", 0x22000000, 0xFFFF0000⟩,
   ⟨"SPURIOUS_WAKE", 0x23000000, 0xFF070000⟩] ++
  [⟨"READ", 0x30000000, 0xFF0F0000⟩, ⟨"WRITE", 0x31080000, 0xFF0F0000⟩,
   ⟨"EVT_READ", 0x40000000, 0xFF0FFFFF⟩, ⟨"EVT_ACK", 0x41000000, 0xFF0F0000⟩,
   ⟨"IMASK_WRITE", 0x42000000, 0xFF0F0000⟩, ⟨"IRQ_DISPATCH", 0x43000000, 0xFF0FFFFF⟩,
   ⟨"BRINGUP", 0x50000000, 0xFFFFFFFF⟩, ⟨"LOOKUP", 0x51000000, 0xFF0FFFFF⟩,
   ⟨"TEARDOWN", 0x52000000, 0xFF0FFFFF⟩, ⟨"OPEN", 0x53000000, 0xFF0FFFFF⟩] ++
  [⟨"CLOSE", 0x54000000, 0xFFFFFFFF⟩, ⟨"HW_RX_COMPLETE", 0x70000000, 0xFF0E0000⟩,
   ⟨"HW_RX_COMPLETE_ERR", 0x71000000, 0xFF0E0000⟩, ⟨"HW_RX_BUSY", 0x72000000, 0xFF0FFFFF⟩,
   ⟨"HW_TX_COMPLETE", 0x73080000, 0xFF0FFFFF⟩, ⟨"HW_TX_ERROR", 0x74080000, 0xFF0F0000⟩]

/-- The word satisfies the row: `word & mask = match` (30_encoding.md R136). -/
def OpRow.fits (r : OpRow) (w : Word) : Bool := w &&& r.mask == r.pattern

/-- The host's question: the operation of a table word. A word is a 32-bit value with no byte order (30_encoding.md R142),
so the bits below `nbits` are the word. -/
def decodeTableWord (nbits w : Nat) : Option Instr :=
  match decode (BitVec.ofNat 32 (w % 2 ^ nbits)) with
  | .ok i => some i
  | .error _ => none

/-- `i<n>` for `INST` (30_encoding.md R145). -/
def asmInst (n : Nat) : String := "i" ++ toString n

/-- `rx` or `tx` (30_encoding.md R145). -/
def asmDir : Dir → String
  | .rx => "rx"
  | .tx => "tx"

/-- `last` for `LF = 1`, nothing for 0 (30_encoding.md R145). -/
def asmLast (lf : Bool) : List String := if lf then ["last"] else []

/-- The operands in field order, only where the field is variable (30_encoding.md R145). -/
def Instr.asmOperands : Instr → List String
  | .ringInit n => [asmInst n]
  | .descAt n d i => [asmInst n, asmDir d, toString i]
  | .advance d i => [asmDir d, toString i]
  | .takeWr n m => [asmInst n, toString m]
  | .takeRd n m => [asmInst n, toString m]
  | .wait n d => [asmInst n, asmDir d]
  | .signal n d => [asmInst n, asmDir d]
  | .cancel t => [toString t]
  | .spuriousWake n d t => [asmInst n, asmDir d, toString t]
  | .read n m => [asmInst n, toString m]
  | .write n m => [asmInst n, toString m]
  | .evtRead n => [asmInst n]
  | .evtAck n m => [asmInst n, toString m.toNat]
  | .imaskWrite n v => [asmInst n, toString v.toNat]
  | .irqDispatch n => [asmInst n]
  | .bringup => []
  | .lookup n => [asmInst n]
  | .teardown n => [asmInst n]
  | .openInst n => [asmInst n]
  | .closeInst => []
  | .hwRxComplete n lf c => [asmInst n] ++ asmLast lf ++ [toString c]
  | .hwRxCompleteErr n lf c => [asmInst n] ++ asmLast lf ++ [toString c]
  | .hwRxBusy n => [asmInst n]
  | .hwTxComplete n => [asmInst n]
  | .hwTxError n c => [asmInst n, toString c]

end Sys2Proof
end

