-- ==== Sys2Proof/Machine/State.lean ====
section
/-! DEFINITION. The state of the block as plain data (10_state.md), the reasons a step can stop, and the state at driver load
(10_state.md R60, 70_reset_and_hazards.md R500). -/

namespace Sys2Proof.Machine

/-- Who takes a step (00_scope.md R8). The instance an engine or the dispatcher acts on is the `INST` of the word. -/
inductive Agent
  | thread (t : Nat)
  | dmaRx
  | dmaTx
  | dispatcher
  | env
  | host
  deriving DecidableEq, Repr

/-- The two execution contexts (10_state.md R48, 60_exceptions.md R420). -/
inductive ExecContext
  | thread
  | interrupt
  deriving DecidableEq, Repr

/-- One value per direction. -/
structure PerDir (α : Type) where
  rx : α
  tx : α
  deriving DecidableEq, Repr

/-- The reasons of a fault record (60_exceptions.md R404). -/
inductive Reason
  | illegalOperation
  | contractViolation
  | noSuchInstance
  | badAddress
  | badRegister
  | contextViolation
  deriving DecidableEq, Repr

/-- The sticky fault record (10_state.md R56). -/
structure FaultRec where
  reason : Reason
  agent : Agent
  word : Word
  addr : Nat
  deriving DecidableEq, Repr

/-- Result codes (60_exceptions.md R401). -/
inductive Code
  | ok
  | notReady
  | canceled
  | allocationError
  | capacityExceeded
  | bringupError
  | teardownError
  | transferFault
  | notHandled
  | handled
  deriving DecidableEq, Repr

/-- A descriptor (10_state.md R49). -/
structure Desc where
  cs : Half
  len : Half
  addr : Addr
  deriving DecidableEq, Repr

/-- The value of a result: a count, id or register value (60_exceptions.md R401), or `DESC_AT`'s record (40_ring.md R203). -/
inductive Value
  | num (n : Nat)
  | desc (d : Desc)
  deriving DecidableEq, Repr

/-- A result `(code, value)` (60_exceptions.md R400). -/
structure Result where
  code : Code
  value : Value
  deriving DecidableEq, Repr

/-- One transmit record of `line_out` (10_state.md R57): `err` is the failed kind. -/
structure TxRecord where
  id : Nat
  bytes : List Byte
  err : Bool
  deriving DecidableEq, Repr

/-- The call a thread is inside (10_state.md R45). -/
inductive CallKind
  | read
  | write
  | wait
  deriving DecidableEq, Repr

/-- The sub-phases of a call (10_state.md R45). -/
inductive SubPhase
  | entry
  | prep
  | sleep
  | take
  deriving DecidableEq, Repr

/-- `phase(t)` (10_state.md R45). -/
inductive Phase
  | idle
  | inCall (k : CallKind) (id : Nat) (dir : Dir) (ph : SubPhase)
  deriving DecidableEq, Repr

/-- The per-thread state (10_state.md R40, R45 to R47, R53). `callLen` is the `max_len` of the call in progress, which the
`Take` step of 44_gate.md R300 uses (notes/assumptions/6.md). -/
structure Thread where
  phase : Phase
  callLen : Nat
  cancel : Bool
  bound : Option Nat
  src : List Byte
  dst : List Byte
  ret : Result
  deriving DecidableEq, Repr

/-- `life` (10_state.md R43). -/
inductive Life
  | allocated
  | initialized
  | active
  | stopped
  | unregistered
  | released
  deriving DecidableEq, Repr

/-- The dispatcher phase `disp` (10_state.md R42). -/
inductive DispPhase
  | idle
  | reading
  | acking (m : Half)
  | signalling (m : Half)
  deriving DecidableEq, Repr

/-- A device context (10_state.md R31). `buf[k]` is the `BUF_SIZE` bytes of memory at `desc[k].addr`. `gate` holds the
waiter sets as rising lists. -/
structure Ctx where
  life : Life
  desc : List Desc
  cursor : PerDir Nat
  hw : PerDir Nat
  dmaEn : PerDir Bool
  evt : Half
  imask : Half
  handler : Bool
  disp : DispPhase
  handled : Bool
  gate : PerDir (List Nat)
  rxFaults : BitVec 32
  txFaults : BitVec 32
  deriving DecidableEq, Repr

/-- `host_op` (10_state.md R61). -/
inductive HostOp
  | idle
  | inBringup (id : Nat)
  | inTeardown (id : Nat) (err : Bool)
  deriving DecidableEq, Repr

/-- The operands that travel beside the word and the draws of the step (30_encoding.md R132), as data an entry of the
schedule carries (notes/assumptions/4.md). -/
structure Draws where
  /-- `{src = bytes}`: what the issuing thread puts into `src(t)` before it starts the operation -/
  src : Option (List Byte)
  /-- `{data = bytes}` of a receive completion -/
  data : List Byte
  /-- `dok`: the descriptor area was obtained -/
  descArea : Bool
  /-- the allocator's answer for each buffer, `none` for a failure -/
  alloc : List (Option Addr)
  /-- the drawn buffer contents, one list per buffer -/
  fill : List (List Byte)
  /-- `bok`: the controller bring-up succeeded -/
  bringup : Bool
  /-- the draw of `EVT` -/
  evt : Half
  /-- `e1 = ok` -/
  stopOk : Bool
  /-- `e2 = ok` -/
  unregisterOk : Bool
  deriving DecidableEq, Repr

/-- One entry of the schedule: `agent` takes one atomic step of the operation `word` (00_scope.md R14). -/
structure Entry where
  agent : Agent
  word : Word
  draws : Draws
  deriving DecidableEq, Repr

/-- What a step delivered (60_exceptions.md R400, 00_scope.md R15): the model's own record of the last step. -/
inductive Delivery
  /-- no step yet -/
  | nothing
  /-- the result returned to the agent that issued the operation, or to the interrupt layer -/
  | result (r : Result)
  /-- a move to the next phase, or a step that has no caller -/
  | moved
  /-- the agent had no enabled step -/
  | held
  /-- a fault was recorded -/
  | raised (r : Reason)
  deriving DecidableEq, Repr

/-- The machine (10_state.md R30). `sched`, `cur` and `out` are the model's own (notes/assumptions/1.md, 7.md). -/
structure State where
  cfg : Config
  nextId : Nat
  ctxs : Table Ctx
  fault : Option FaultRec
  liveBuffers : Nat
  lineOut : List TxRecord
  linePending : List (Nat × List Byte)
  threads : Table Thread
  hostOp : HostOp
  mem : Memory
  sched : List Entry
  cur : Entry
  out : Delivery
  deriving DecidableEq, Repr

/-- Why the machine stops. -/
inductive Fault
  /-- Raised by `step` in every state whose fault record is set: no agent has an enabled step (60_exceptions.md R404).
  Safe: the machine stops where the block stops. -/
  | stopped (r : Reason)
  deriving DecidableEq, Repr

/-- Why a word has no meaning here. -/
inductive Refusal
  /-- Raised by `exec`'s arms for an operation without a meaning; no arm is left that does. Safe. -/
  | notModelled (mnemonic : String)
  /-- Raised by a meaning, or by `step` for an illegal word, when the agent of the entry is not one that the table of
  60_exceptions.md R420 lets issue the operation, or is no thread of `THREADS`: "no such step exists". Safe. -/
  | noSuchStep
  deriving DecidableEq, Repr

abbrev Out := Host.Outcome State Fault Refusal

/-- A thread at driver load (10_state.md R60; `src`, `dst`, `ret` by notes/assumptions/6.md). -/
def Thread.initial : Thread where
  phase := .idle
  callLen := 0
  cancel := false
  bound := none
  src := []
  dst := []
  ret := ⟨.ok, .num 0⟩

/-- Operands of an entry that carries none: every draw succeeds, nothing is supplied. -/
def Draws.plain : Draws where
  src := none
  data := []
  descArea := true
  alloc := []
  fill := []
  bringup := true
  evt := 0
  stopOk := true
  unregisterOk := true

/-- Driver load with the given parameters (10_state.md R60, 70_reset_and_hazards.md R500). -/
def State.driverLoad (cfg : Config) : State where
  cfg := cfg
  nextId := 0
  ctxs := []
  fault := none
  liveBuffers := 0
  lineOut := []
  linePending := []
  threads := cfg.threads.map (fun t => (t, Thread.initial))
  hostOp := .idle
  mem := []
  sched := []
  cur := ⟨.host, 0, Draws.plain⟩
  out := .nothing

/-- Reset is driver load (70_reset_and_hazards.md R500) of the test configuration (00_scope.md R10). -/
def State.reset : State := State.driverLoad Config.c0

end Sys2Proof.Machine
end

