-- ==== Sys2Proof/Machine/Flags.lean ====
section
/-! DEFINITION. The flags of a descriptor's `cs` (30_encoding.md R121, R123), the event bits (R125), their classes (R126) and
every computation over them. -/

namespace Sys2Proof.Machine

/-- OWNED_BY_HARDWARE, bit 15 -/
def csO : Half := 0x8000
/-- WRAP, bit 13 -/
def csW : Half := 0x2000
/-- INTERRUPT_REQUESTED, bit 12 -/
def csI : Half := 0x1000
/-- LAST, bit 11 -/
def csL : Half := 0x0800
/-- the error sub-flag, bit 0 -/
def csE : Half := 0x0001
/-- the reserved bits -/
def csRsv : Half := 0x47FE

/-- Some bit of `m` is set in `v`. -/
def anyBit (v m : Half) : Bool := v &&& m != 0

/-- `b ? m : 0` -/
def bitsIf (b : Bool) (m : Half) : Half := if b then m else 0

/-- `O`: hardware owns the slot (10_state.md R36, R37). -/
def Desc.hwOwned (d : Desc) : Bool := anyBit d.cs csO
def Desc.wrap (d : Desc) : Bool := anyBit d.cs csW
def Desc.irq (d : Desc) : Bool := anyBit d.cs csI
def Desc.last (d : Desc) : Bool := anyBit d.cs csL
def Desc.error (d : Desc) : Bool := anyBit d.cs csE

/-- A reserved bit is set (30_encoding.md R122). -/
def Desc.reservedSet (d : Desc) : Bool := anyBit d.cs csRsv

/-- `cs` of receive slot `i` after `RING_INIT` (40_ring.md R201). -/
def csInitRx (cfg : Config) (i : Nat) : Half :=
  csO ||| bitsIf cfg.rxInitIrq csI ||| bitsIf (i + 1 == cfg.rxCap) csW

/-- `cs` of transmit slot `j` after `RING_INIT` (40_ring.md R201). -/
def csInitTx (cfg : Config) (j : Nat) : Half := bitsIf (j + 1 == cfg.txCap) csW

/-- `cs` after `TAKE_WR` (41_ownership.md R221). -/
def csTakeWr (cs : Half) : Half := csO ||| csL ||| csI ||| (cs &&& csW)

/-- `cs` after `TAKE_RD` (41_ownership.md R225). -/
def csTakeRd (cs : Half) : Half := csO ||| csI ||| (cs &&& csW)

/-- `cs` after a receive completion (42_dma_engine.md R242, R243). -/
def csRxDone (cs : Half) (lf err : Bool) : Half := (cs &&& (csW ||| csI)) ||| bitsIf lf csL ||| bitsIf err csE

/-- `cs` after a transmit completion (42_dma_engine.md R250). -/
def csTxDone (cs : Half) : Half := cs &&& ~~~(csO ||| csE)

/-- `cs` after a failed transmit (42_dma_engine.md R251). -/
def csTxFail (cs : Half) : Half := (cs &&& ~~~csO) ||| csE

/-- a receive buffer was filled -/
def evRxb : Half := 0x0001
/-- a transmit buffer was sent -/
def evTxb : Half := 0x0002
/-- received data was dropped -/
def evBsy : Half := 0x0004
/-- a received unit ended -/
def evRxf : Half := 0x0008
/-- a transmit failed -/
def evTxe : Half := 0x0010
/-- `EVT_ALL` -/
def evAll : Half := 0x001F

def rxHit (m : Half) : Bool := anyBit m (evRxb ||| evRxf ||| evBsy)
def txHit (m : Half) : Bool := anyBit m (evTxb ||| evTxe)
def rxFault (m : Half) : Bool := anyBit m evBsy
def txFault (m : Half) : Bool := anyBit m evTxe

/-- An engine raises event bits (10_state.md R39). -/
def evRaise (evt m : Half) : Half := evt ||| m

/-- Write-1-to-clear (20_memory.md R95). -/
def evAck (evt m : Half) : Half := evt &&& ~~~m

/-- The completion event of a receive slot (42_dma_engine.md R241, R242). -/
def evRxDone (irq lf : Bool) : Half := bitsIf irq (if lf then evRxf else evRxb)

/-- The completion event of a transmit slot (42_dma_engine.md R241, R250). -/
def evTxDone (irq : Bool) : Half := bitsIf irq evTxb

/-- The interrupt line (60_exceptions.md R410). -/
def Ctx.line (c : Ctx) : Bool := c.handler && anyBit c.evt c.imask

/-- The numeric result codes (60_exceptions.md R401). -/
def Code.num : Code → Nat
  | .ok => 0
  | .notReady => 1
  | .canceled => 2
  | .allocationError => 3
  | .capacityExceeded => 4
  | .bringupError => 5
  | .teardownError => 6
  | .transferFault => 7
  | .notHandled => 0x10
  | .handled => 0x11

/-- The numeric fault reasons (60_exceptions.md R404). -/
def Reason.num : Reason → Nat
  | .illegalOperation => 1
  | .contractViolation => 2
  | .noSuchInstance => 3
  | .badAddress => 4
  | .badRegister => 5
  | .contextViolation => 6

end Sys2Proof.Machine
end

