-- ==== Sys2Proof/Machine/Table.lean ====
section
/-! DEFINITION. The named operations over keyed collections, over memory bytes and over waiter sets. Memory is the list of
cells in rising address order that lists no byte equal to the unlisted one (notes/assumptions/14.md). -/

namespace Sys2Proof

/-- The value at a key, if listed. -/
def Table.lookup {α : Type} : Table α → Nat → Option α
  | [], _ => none
  | (j, v) :: r, k => if j = k then some v else Table.lookup r k

/-- The table with this value at the key, in rising key order. -/
def Table.put {α : Type} : Table α → Nat → α → Table α
  | [], k, v => [(k, v)]
  | (j, w) :: r, k, v =>
    if k < j then (k, v) :: (j, w) :: r else if j = k then (k, v) :: r else (j, w) :: Table.put r k v

/-- The table without the key. -/
def Table.erase {α : Type} : Table α → Nat → Table α
  | [], _ => []
  | (j, w) :: r, k => if j = k then Table.erase r k else (j, w) :: Table.erase r k

/-- The canonical form of a table: keys strictly rising. -/
abbrev Table.rising {α : Type} (tb : Table α) : Prop := tb.Pairwise (fun x y => x.1 < y.1)

/-- What a byte of memory that nothing has written reads as (notes/assumptions/14.md). -/
def Memory.unlisted : Byte := 0

/-- The byte at an address. -/
def Memory.read (m : Memory) (a : Nat) : Byte := (Table.lookup m a).getD Memory.unlisted

/-- Memory with this byte at the address, canonical form kept. -/
def Memory.write (m : Memory) (a : Nat) (b : Byte) : Memory :=
  if b = Memory.unlisted then Table.erase m a else Table.put m a b

/-- The canonical form of memory. -/
abbrev Memory.wf (m : Memory) : Prop := Table.rising m ∧ ∀ x ∈ m, x.2 ≠ Memory.unlisted

/-- `n` bytes from `a` up (20_memory.md R82, R86). -/
def Memory.readBytes (m : Memory) (a : Nat) : Nat → List Byte
  | 0 => []
  | n + 1 => m.read a :: Memory.readBytes m (a + 1) n

/-- These bytes from `a` up (20_memory.md R82, R86). -/
def Memory.writeBytes (m : Memory) (a : Nat) : List Byte → Memory
  | [] => m
  | b :: bs => Memory.writeBytes (m.write a b) (a + 1) bs

/-- `waiters ∪ {t}` on a rising list (44_gate.md R293). -/
def setInsert : List Nat → Nat → List Nat
  | [], t => [t]
  | x :: r, t => if t < x then t :: x :: r else if t = x then x :: r else x :: setInsert r t

/-- `waiters \ {t}` (44_gate.md R293, R299). -/
def setErase (w : List Nat) (t : Nat) : List Nat := w.filter (fun x => x != t)

end Sys2Proof

namespace Sys2Proof.Machine

def PerDir.get {α : Type} (p : PerDir α) : Dir → α
  | .rx => p.rx
  | .tx => p.tx

def PerDir.set {α : Type} (p : PerDir α) : Dir → α → PerDir α
  | .rx, v => { p with rx := v }
  | .tx, v => { p with tx := v }

end Sys2Proof.Machine
end

