-- ==== Sys2Proof/Machine/Operands.lean ====
section
/-! DEFINITION. The operand forms: slot positions (00_scope.md R13, R16), the two index walks (40_ring.md R205,
42_dma_engine.md R253), copy lengths (41_ownership.md R221, R225), addresses (20_memory.md R83), byte images (R87, R88) and
the sets the draws are taken from (40_ring.md R201, 45_registry.md R332). -/

namespace Sys2Proof

/-- `cap(dir)` (00_scope.md R16). -/
def Config.cap (cfg : Config) : Dir → Nat
  | .rx => cfg.rxCap
  | .tx => cfg.txCap

/-- `R + T` -/
def Config.slots (cfg : Config) : Nat := cfg.rxCap + cfg.txCap

/-- The array position of `D(dir, i)` (00_scope.md R13). -/
def Config.slot (cfg : Config) (d : Dir) (i : Nat) : Nat :=
  match d with
  | .rx => i
  | .tx => cfg.rxCap + i

/-- The address of `desc[k]` (20_memory.md R83). -/
def Config.descAddr (cfg : Config) (k : Nat) : Nat := cfg.descBase + 8 * k

/-- Descriptor `k` is where its fields can be accessed: naturally aligned and inside the 32-bit space (20_memory.md R82, R90). -/
def Config.descReachable (cfg : Config) (k : Nat) : Bool :=
  cfg.descBase % 8 == 0 && decide (cfg.descAddr k + 8 ≤ 2 ^ 32)

/-- The first of `n` descriptors from position `k` on whose fields cannot be accessed. -/
def Config.firstUnreachable (cfg : Config) (k : Nat) : Nat → Option Nat
  | 0 => none
  | n + 1 => if cfg.descReachable k then cfg.firstUnreachable (k + 1) n else some k

/-- `advance(idx, capacity)`; `none` for an index out of range (40_ring.md R205). -/
def advanceIdx (idx capacity : Nat) : Option Nat :=
  if capacity ≤ idx then none else some (if idx = capacity - 1 then 0 else idx + 1)

/-- The cursor after a take: `advance` (40_ring.md R206). A cursor out of range, which no run reaches, becomes 0. -/
def nextCursor (cfg : Config) (d : Dir) (idx : Nat) : Nat := (advanceIdx idx (cfg.cap d)).getD 0

/-- `next_hw(dir, h)` on the `cs` the step wrote (42_dma_engine.md R253); `none` is the walk past the end. -/
def nextHw (cfg : Config) (d : Dir) (h : Nat) (cs : Half) : Option Nat :=
  if Machine.anyBit cs Machine.csW then some 0
  else if h + 1 < cfg.cap d then some (h + 1) else none

/-- `min(|src(t)|, max_len, BUF_SIZE)` (41_ownership.md R221). -/
def writeLen (cfg : Config) (src : List Byte) (maxLen : Nat) : Nat := min (min src.length maxLen) cfg.bufSize

/-- `min(d.len, max_len)` (41_ownership.md R225). -/
def readLen (d : Machine.Desc) (maxLen : Nat) : Nat := min d.len.toNat maxLen

/-- `n` bytes of a number, most significant first. -/
def bytesBig (v : Nat) : Nat → List Byte
  | 0 => []
  | n + 1 => BitVec.ofNat 8 (v / 2 ^ (8 * n)) :: bytesBig v n

/-- `n` bytes of a number in the given byte order (20_memory.md R87, R88). -/
def bytesOf (e : Endian) (n v : Nat) : List Byte :=
  match e with
  | .big => bytesBig v n
  | .little => (bytesBig v n).reverse

/-- The number these bytes hold, most significant first. -/
def numBig : List Byte → Nat
  | [] => 0
  | b :: bs => b.toNat * 2 ^ (8 * bs.length) + numBig bs

/-- The number these bytes hold in the given byte order. -/
def numOf (e : Endian) (bs : List Byte) : Nat :=
  match e with
  | .big => numBig bs
  | .little => numBig bs.reverse

/-- The image of a descriptor: `cs` at 0, `len` at 2, `addr` at 4 (20_memory.md R83, R87). -/
def Machine.Desc.image (e : Endian) (d : Machine.Desc) : List Byte :=
  bytesOf e 2 d.cs.toNat ++ bytesOf e 2 d.len.toNat ++ bytesOf e 4 d.addr.toNat

/-- The two bytes of a register value, lowest offset first (20_memory.md R88). -/
def regImage (e : Endian) (v : Half) : List Byte := bytesOf e 2 v.toNat

/-- The register value that two bytes hold (20_memory.md R88). -/
def regValue (e : Endian) (bs : List Byte) : Half := BitVec.ofNat 16 (numOf e bs)

/-- Two intervals have no byte in common. -/
def apart (a la b lb : Nat) : Bool := decide (a + la ≤ b) || decide (b + lb ≤ a)

/-- The set the draw of a buffer address is taken from (40_ring.md R201): inside the 32-bit space, apart from the descriptor
area and from every buffer in `taken`. -/
def Config.bufferFree (cfg : Config) (taken : List Nat) (a : Nat) : Bool :=
  decide (a + cfg.bufSize ≤ 2 ^ 32) && apart a cfg.bufSize cfg.descBase (8 * cfg.slots)
    && taken.all (fun b => apart a cfg.bufSize b cfg.bufSize)

/-- The allocation loop of 40_ring.md R201 for `k` buffers: the obtained addresses, or `none` when a draw is a failure. An
answer outside the draw's set counts as a failure (notes/assumptions/4.md). -/
def Config.obtain (cfg : Config) (taken : List Nat) : Nat → List (Option Addr) → Option (List Addr)
  | 0, _ => some []
  | k + 1, some a :: rest =>
    if cfg.bufferFree taken a.toNat then (cfg.obtain (a.toNat :: taken) k rest).map (fun as => a :: as) else none
  | _ + 1, none :: _ => none
  | _ + 1, [] => none

/-- `cs` of array position `k` after `RING_INIT`. -/
def Config.csInit (cfg : Config) (k : Nat) : Half :=
  if k < cfg.rxCap then Machine.csInitRx cfg k else Machine.csInitTx cfg (k - cfg.rxCap)

/-- The descriptors from position `k` on, each bound to its address (40_ring.md R201). -/
def Config.layout (cfg : Config) : Nat → List Addr → List Machine.Desc
  | _, [] => []
  | k, a :: as => ⟨cfg.csInit k, 0, a⟩ :: cfg.layout (k + 1) as

/-- The drawn contents of the buffers: at most `BUF_SIZE` bytes each; a byte the draw does not give stays what it was
(notes/assumptions/14.md). -/
def Config.fillBuffers (cfg : Config) (m : Memory) : List Addr → List (List Byte) → Memory
  | a :: as, b :: bs => cfg.fillBuffers (m.writeBytes a.toNat (b.take cfg.bufSize)) as bs
  | _, _ => m

/-- The draw of `EVT`: any 16-bit value with bits 15:5 clear (45_registry.md R332). -/
def Machine.Draws.evtDraw (d : Machine.Draws) : Half := d.evt &&& Machine.evAll

/-- The oldest pending bytes of an instance's own line, the queue being oldest first (42_dma_engine.md R256). -/
def pendingHead : List (Nat × List Byte) → Nat → Option (List Byte)
  | [], _ => none
  | (j, v) :: r, n => if j = n then some v else pendingHead r n

/-- The queue without the oldest bytes of the instance. -/
def pendingTail : List (Nat × List Byte) → Nat → List (Nat × List Byte)
  | [], _ => []
  | (j, v) :: r, n => if j = n then r else (j, v) :: pendingTail r n

end Sys2Proof
end

