-- ==== Sys2Proof/Machine/Ops.lean ====
section
/-! DEFINITION. The named operations over the state: the parts of the state by name, ending a step (result, hold, next phase),
raising a fault, who may issue what (60_exceptions.md R420), the routing checks in the order of R414, descriptor, buffer and
register accesses (20_memory.md), and fetching an entry of the schedule. -/

namespace Sys2Proof.Machine

/-- A fault about to be raised: its reason and the address of the access (60_exceptions.md R404). -/
structure Trap where
  reason : Reason
  addr : Nat
  deriving DecidableEq, Repr

/-- A fault with no address. -/
def trapOf (r : Reason) : Trap := ⟨r, 0⟩

/-! The parts of the state. -/

/-- `ctx[n]` (10_state.md R30). -/
def State.ctx? (s : State) (n : Nat) : Option Ctx := s.ctxs.lookup n

def State.setCtx (s : State) (n : Nat) (c : Ctx) : State := { s with ctxs := s.ctxs.put n c }

/-- `slot[n] <- empty` (45_registry.md R332, R336). -/
def State.dropCtx (s : State) (n : Nat) : State := { s with ctxs := s.ctxs.erase n }

/-- The state of thread `t`. -/
def State.thr (s : State) (t : Nat) : Thread := (s.threads.lookup t).getD Thread.initial

def State.setThr (s : State) (t : Nat) (th : Thread) : State := { s with threads := s.threads.put t th }

/-- The thread number of an agent; 0 for an agent that is no thread. -/
def Agent.tid : Agent → Nat
  | .thread t => t
  | _ => 0

/-- The number of the thread taking the step. -/
def State.me (s : State) : Nat := s.cur.agent.tid

/-- Thread `t` is inside a call on instance `n` (45_registry.md R336). -/
def Thread.insideCall (th : Thread) (n : Nat) : Bool :=
  match th.phase with
  | .idle => false
  | .inCall _ id _ _ => id == n

/-! How a step ends (60_exceptions.md R400, 00_scope.md R15). -/

def State.say (s : State) (d : Delivery) : State := { s with out := d }

/-- No enabled step: nothing changes (00_scope.md R15; notes/assumptions/2.md). -/
def State.hold (s : State) : State := s.say .held

/-- A move to the next phase, or the step of an agent that has no caller (60_exceptions.md R402). -/
def State.moved (s : State) : State := s.say .moved

/-- `return (code, value)`: delivered to the issuing agent, and stored in `ret(t)` when that is a thread (60_exceptions.md R400). -/
def State.finish (s : State) (code : Code) (v : Value) : State :=
  match s.cur.agent with
  | .thread t => (s.setThr t { s.thr t with ret := ⟨code, v⟩ }).say (.result ⟨code, v⟩)
  | _ => s.say (.result ⟨code, v⟩)

/-- `raise Fault(reason)`: the sticky record of reason, agent, operation word and address (60_exceptions.md R404). What the
operation wrote before the raise stays written (notes/assumptions/17.md). -/
def State.raise (s : State) (tr : Trap) : State :=
  { s with fault := some ⟨tr.reason, s.cur.agent, s.cur.word, tr.addr⟩, out := .raised tr.reason }

/-- Go on with the value, or raise the fault. -/
def State.orRaise {α : Type} (s : State) (x : Except Trap α) (k : α → Out) : Out :=
  match x with
  | .error tr => .next (s.raise tr)
  | .ok a => k a

/-! Who may issue an operation (60_exceptions.md R420, 30_encoding.md R135). -/

/-- The rows of the table of 60_exceptions.md R420. -/
inductive OpClass
  /-- WAIT, READ, WRITE, the takes, OPEN, CLOSE -/
  | threadCall
  /-- BRINGUP, TEARDOWN, RING_INIT -/
  | hostOnly
  /-- SIGNAL, DESC_AT, EVT_READ, EVT_ACK, IMASK_WRITE -/
  | either
  /-- ADVANCE, LOOKUP -/
  | anyone
  /-- IRQ_DISPATCH -/
  | dispatch
  /-- CANCEL, SPURIOUS_WAKE -/
  | envOnly
  /-- HW_RX_* -/
  | dmaRxOnly
  /-- HW_TX_* -/
  | dmaTxOnly
  deriving DecidableEq, Repr

inductive Admission
  /-- the table says yes -/
  | yes
  /-- the table says no for the agent's context -/
  | wrongContext
  /-- the table names another agent: no such step exists -/
  | noStep
  deriving DecidableEq, Repr

/-- The execution context of an agent (10_state.md R48, 60_exceptions.md R420); the engines and `Env` are outside both. -/
def Agent.context : Agent → Option ExecContext
  | .thread _ => some .thread
  | .host => some .thread
  | .dispatcher => some .interrupt
  | .dmaRx => none
  | .dmaTx => none
  | .env => none

def admitIf (b : Bool) : Admission := if b then .yes else .noStep

/-- The table of 60_exceptions.md R420. -/
def Agent.admission (a : Agent) : OpClass → Admission
  | .threadCall =>
    match a with
    | .thread _ => .yes
    | .dispatcher => .wrongContext
    | _ => .noStep
  | .hostOnly =>
    match a with
    | .host => .yes
    | .dispatcher => .wrongContext
    | _ => .noStep
  | .either => admitIf (a.context != none)
  | .anyone => .yes
  | .dispatch =>
    match a.context with
    | some .interrupt => .yes
    | some .thread => .wrongContext
    | none => .noStep
  | .envOnly => admitIf (a == .env)
  | .dmaRxOnly => admitIf (a == .dmaRx)
  | .dmaTxOnly => admitIf (a == .dmaTx)

/-- The agent exists: a thread is one of `THREADS` (00_scope.md R8). -/
def State.agentExists (s : State) : Bool :=
  match s.cur.agent with
  | .thread t => s.cfg.threads.contains t
  | _ => true

def State.mayIssue (s : State) (cls : OpClass) : Admission :=
  if s.agentExists then s.cur.agent.admission cls else .noStep

/-- The agent is in the middle of a multi-step operation, whose next phase is then its only step (10_state.md R35, R61,
44_gate.md R294; notes/assumptions/10.md). -/
def State.busy (s : State) : Bool :=
  match s.cur.agent with
  | .thread t => (s.thr t).phase != .idle
  | .host => s.hostOp != .idle
  | _ => false

/-- Start a one-step operation: no such step, a hold for a busy agent, or go on, told whether the agent's context may
issue it. -/
def State.issue (s : State) (cls : OpClass) (k : Bool → Out) : Out :=
  match s.mayIssue cls with
  | .noStep => .refused .noSuchStep
  | .wrongContext => if s.busy then .next s.hold else k false
  | .yes => if s.busy then .next s.hold else k true

/-! Routing (30_encoding.md R133, 45_registry.md R335), in the order of 60_exceptions.md R414. -/

/-- A call of a thread on instance `n`: the context must exist, the issuer be in thread context, the instance be `Active`
(41_ownership.md R221, 44_gate.md R292). -/
def State.callCtx (s : State) (n : Nat) (contextOk : Bool) : Except Trap Ctx :=
  match s.ctx? n with
  | none => .error (trapOf .noSuchInstance)
  | some c =>
    if contextOk then
      if c.life = .active then .ok c else .error (trapOf .contractViolation)
    else .error (trapOf .contextViolation)

def Life.laidOut : Life → Bool
  | .initialized => true
  | .active => true
  | .stopped => true
  | _ => false

/-- An operation that needs the ring laid out and the id routed (40_ring.md R203, 43_dispatcher.md R271, 44_gate.md R297). -/
def State.laidOutCtx (s : State) (n : Nat) : Except Trap Ctx :=
  match s.ctx? n with
  | none => .error (trapOf .noSuchInstance)
  | some c => if c.life.laidOut then .ok c else .error (trapOf .noSuchInstance)

/-- An operation that needs the instance `Active`, an id in another state being no instance (45_registry.md R334, R338). -/
def State.activeCtx (s : State) (n : Nat) : Except Trap Ctx :=
  match s.ctx? n with
  | none => .error (trapOf .noSuchInstance)
  | some c => if c.life = .active then .ok c else .error (trapOf .noSuchInstance)

/-- After the routing checks of `OPEN` and `CLOSE`: the issuer is in thread context. -/
def needContext (contextOk : Bool) : Except Trap Unit :=
  if contextOk then .ok () else .error (trapOf .contextViolation)

/-! Descriptors and buffers (20_memory.md R82, R83, R90; 30_encoding.md R122). -/

/-- Read `desc[k]`: `BadAddress` where no descriptor is, `ContractViolation` on a reserved `cs` bit. -/
def State.readDesc (s : State) (c : Ctx) (k : Nat) : Except Trap Desc :=
  if s.cfg.descReachable k then
    match c.desc[k]? with
    | none => .error ⟨.badAddress, s.cfg.descAddr k⟩
    | some d => if d.reservedSet then .error (trapOf .contractViolation) else .ok d
  else .error ⟨.badAddress, s.cfg.descAddr k⟩

/-- Write `desc[k]` as a whole. -/
def Ctx.setDesc (c : Ctx) (k : Nat) (d : Desc) : Ctx := { c with desc := c.desc.set k d }

/-- The address is inside some buffer of the context (20_memory.md R82). -/
def Ctx.inBuffer (c : Ctx) (cfg : Config) (a : Nat) : Bool :=
  decide (a < 2 ^ 32) && c.desc.any (fun d => decide (d.addr.toNat ≤ a) && decide (a < d.addr.toNat + cfg.bufSize))

/-- Copy `n` bytes out of a buffer, one byte access at a time (00_scope.md R13, 20_memory.md R86). A fault records the first
address that is bad (notes/assumptions/33.md). -/
def State.copyOut (s : State) (c : Ctx) (a : Nat) : Nat → Except Trap (List Byte)
  | 0 => .ok []
  | n + 1 =>
    if c.inBuffer s.cfg a then
      match s.copyOut c (a + 1) n with
      | .error tr => .error tr
      | .ok bs => .ok (s.mem.read a :: bs)
    else .error ⟨.badAddress, a⟩

/-- Copy bytes into a buffer, one byte access at a time; the bytes before a bad address are written. -/
def Ctx.copyIn (c : Ctx) (cfg : Config) (m : Memory) (a : Nat) : List Byte → Memory × Option Trap
  | [] => (m, none)
  | b :: bs =>
    if c.inBuffer cfg a then c.copyIn cfg (m.write a b) (a + 1) bs else (m, some ⟨.badAddress, a⟩)

/-- `buf[k]` (00_scope.md R13, 10_state.md R50). -/
def State.buffer (s : State) (d : Desc) : List Byte := s.mem.readBytes d.addr.toNat s.cfg.bufSize

/-- The fields of a descriptor as (offset, width) (20_memory.md R83). -/
def descFields : List (Nat × Nat) := [(0, 2), (2, 2), (4, 4)]

/-- `MemRead(a, n)` on instance `c`'s DMA-visible memory (20_memory.md R82, R83, R90): a whole descriptor field in
`DESC_ENDIAN`, or bytes of the buffers. A bad access to the descriptor area records its start; one elsewhere its first bad
byte, which is `2 ^ 32` where it would wrap (DESIGN CHOICE, notes/assumptions/33.md). -/
def State.memRead (s : State) (c : Ctx) (a n : Nat) : Except Trap (List Byte) :=
  let off := a - s.cfg.descBase
  if s.cfg.descBase ≤ a ∧ off < 8 * s.cfg.slots then
    if s.cfg.descReachable (off / 8) && descFields.contains (off % 8, n) then
      match c.desc[off / 8]? with
      | some d => .ok (((d.image s.cfg.descEndian).drop (off % 8)).take n)
      | none => .error ⟨.badAddress, a⟩
    else .error ⟨.badAddress, a⟩
  else s.copyOut c a n

/-- Write one field of a descriptor. -/
def Desc.setField (d : Desc) (off v : Nat) : Desc :=
  match off with
  | 0 => { d with cs := BitVec.ofNat 16 v }
  | 2 => { d with len := BitVec.ofNat 16 v }
  | _ => { d with addr := BitVec.ofNat 32 v }

/-- `MemWrite(a, n, v)` on instance `id` (20_memory.md R82, R83, R90), the accesses of `memRead`. A write that meets a bad
address is dropped whole, which the spec leaves open (DESIGN CHOICE, notes/assumptions/31.md); the copies of the operations
are writes of one byte each (`Ctx.copyIn`). The address recorded is that of `memRead` (notes/assumptions/33.md). -/
def State.memWrite (s : State) (id : Nat) (c : Ctx) (a : Nat) (bs : List Byte) : Except Trap State :=
  let off := a - s.cfg.descBase
  if s.cfg.descBase ≤ a ∧ off < 8 * s.cfg.slots then
    if s.cfg.descReachable (off / 8) && descFields.contains (off % 8, bs.length) then
      match c.desc[off / 8]? with
      | some d => .ok (s.setCtx id (c.setDesc (off / 8) (d.setField (off % 8) (numOf s.cfg.descEndian bs))))
      | none => .error ⟨.badAddress, a⟩
    else .error ⟨.badAddress, a⟩
  else
    match c.copyIn s.cfg s.mem a bs with
    | (m, none) => .ok { s with mem := m }
    | (_, some tr) => .error tr

/-- The wait predicate `P(n, dir)`: the slot at the cursor has `O = 0` (44_gate.md R291). -/
def State.waitPred (s : State) (c : Ctx) (d : Dir) : Except Trap Bool :=
  match s.readDesc c (s.cfg.slot d (c.cursor.get d)) with
  | .error tr => .error tr
  | .ok x => .ok (!x.hwOwned)

/-! Registers (20_memory.md R84, R88, R92). A register stands as two bytes at its offset, in the order `REG_ENDIAN`. -/

/-- A register access is 16 bits at an even offset (20_memory.md R92). -/
def regAccessOk (off width : Nat) : Bool := off % 2 == 0 && width == 16

/-- The two bytes at a register offset in `REG_ENDIAN` (20_memory.md R84, R88): reserved `EVT` and `IMASK` bits read 0
(30_encoding.md R125, R127). -/
def State.regBytes (s : State) (c : Ctx) (off width : Nat) : Except Trap (List Byte) :=
  if regAccessOk off width then
    if off = s.cfg.regEvt then .ok (regImage s.cfg.regEndian (c.evt &&& evAll))
    else if off = s.cfg.regMask then .ok (regImage s.cfg.regEndian (c.imask &&& evAll))
    else .error (trapOf .badRegister)
  else .error (trapOf .badRegister)

/-- `RegRead(off)`: the value of the two bytes in `REG_ENDIAN` (20_memory.md R84, R88). -/
def State.regRead (s : State) (c : Ctx) (off width : Nat) : Except Trap Half :=
  match s.regBytes c off width with
  | .error tr => .error tr
  | .ok bs => .ok (regValue s.cfg.regEndian bs)

/-- Two bytes in `REG_ENDIAN` stored at a register offset (20_memory.md R84, R88): `EVT` is write-1-to-clear (R95), `IMASK`
drops bits 15:5 (43_dispatcher.md R273). -/
def State.regStore (s : State) (c : Ctx) (off width : Nat) (bs : List Byte) : Except Trap Ctx :=
  if regAccessOk off width then
    if off = s.cfg.regEvt then .ok { c with evt := evAck c.evt (regValue s.cfg.regEndian bs) }
    else if off = s.cfg.regMask then .ok { c with imask := regValue s.cfg.regEndian bs &&& evAll }
    else .error (trapOf .badRegister)
  else .error (trapOf .badRegister)

/-- `RegWrite(off, v)`: the value's two bytes, in `REG_ENDIAN`, are stored (20_memory.md R84, R88). -/
def State.regWrite (s : State) (c : Ctx) (off width : Nat) (v : Half) : Except Trap Ctx :=
  s.regStore c off width (regImage s.cfg.regEndian v)

/-! Gates (10_state.md R51). -/

def Ctx.enqueue (c : Ctx) (d : Dir) (t : Nat) : Ctx := { c with gate := c.gate.set d (setInsert (c.gate.get d) t) }

def Ctx.dequeue (c : Ctx) (d : Dir) (t : Nat) : Ctx := { c with gate := c.gate.set d (setErase (c.gate.get d) t) }

/-- `waiters <- {}` (44_gate.md R297). -/
def Ctx.wakeAll (c : Ctx) (d : Dir) : Ctx := { c with gate := c.gate.set d [] }

/-! Releasing a ring (45_registry.md R332, R336). -/

/-- Every buffer and the descriptor area are released and the slot is empty. -/
def State.release (s : State) (n : Nat) : State :=
  { s.dropCtx n with liveBuffers := s.liveBuffers - s.cfg.slots }

/-! Fetching an entry of the schedule (notes/assumptions/1.md). -/

/-- The operations whose payload is `src(t)` (30_encoding.md R132). -/
def takesPayload (w : Word) : Bool :=
  match decode w with
  | .ok (.takeWr _ _) => true
  | .ok (.write _ _) => true
  | _ => false

/-- The caller's own memory filled with the payload that travels beside the word of a TAKE_WR or WRITE, while the thread is
idle (30_encoding.md R132; notes/assumptions/19.md). Another word, an illegal one among them, has no payload. -/
def State.supplySrc (s : State) (e : Entry) : State :=
  match e.agent, e.draws.src with
  | .thread t, some bs =>
    if takesPayload e.word && (s.cfg.threads.contains t && (s.thr t).phase == .idle) then
      s.setThr t { s.thr t with src := bs }
    else s
  | _, _ => s

/-- The entry becomes the step in progress. -/
def State.load (s : State) (e : Entry) (rest : List Entry) : State :=
  State.supplySrc { s with sched := rest, cur := e } e

/-- An illegal word: the agent that would issue it faults, nothing else changes (30_encoding.md R141). -/
def State.illegal (s : State) : Out :=
  if s.agentExists then
    if s.busy then .next s.hold else .next (s.raise (trapOf .illegalOperation))
  else .refused .noSuchStep

/-- The agent that 30_encoding.md R135 names for a word; the Host for a word that is illegal. -/
def agentOf (cfg : Config) (w : Word) : Agent :=
  let thread := Agent.thread (cfg.threads.headD 0)
  match decode w with
  | .error _ => .host
  | .ok i =>
    match i with
    | .ringInit _ => .host
    | .descAt _ _ _ => thread
    | .advance _ _ => thread
    | .takeWr _ _ => thread
    | .takeRd _ _ => thread
    | .wait _ _ => thread
    | .signal _ _ => .dispatcher
    | .cancel _ => .env
    | .spuriousWake _ _ _ => .env
    | .read _ _ => thread
    | .write _ _ => thread
    | .evtRead _ => .dispatcher
    | .evtAck _ _ => .dispatcher
    | .imaskWrite _ _ => .host
    | .irqDispatch _ => .dispatcher
    | .bringup => .host
    | .lookup _ => thread
    | .teardown _ => .host
    | .openInst _ => thread
    | .closeInst => thread
    | .hwRxComplete _ _ _ => .dmaRx
    | .hwRxCompleteErr _ _ _ => .dmaRx
    | .hwRxBusy _ => .dmaRx
    | .hwTxComplete _ => .dmaTx
    | .hwTxError _ _ => .dmaTx

/-- An entry for a word alone: the agent of R135, every draw a success, buffers one after another from `0x00010000` (the
allocator of 95_test_vectors.md section 0), and as many received bytes as `IMM16` asks for. -/
def entryOf (cfg : Config) (w : Word) : Entry where
  agent := agentOf cfg w
  word := w
  draws :=
    { Draws.plain with
      data := List.replicate (fieldsOf w).imm 0
      alloc := (List.range cfg.slots).map (fun k => some (BitVec.ofNat 32 (0x10000 + cfg.bufSize * k))) }

/-! The assembler line of an entry (30_encoding.md R145; notes/assumptions/26.md). -/

/-- `T<k>`, `RXDMA`, `TXDMA`, `DISP`, `ENV` or `HOST`. -/
def Agent.asm : Agent → String
  | .thread k => "T" ++ toString k
  | .dmaRx => "RXDMA"
  | .dmaTx => "TXDMA"
  | .dispatcher => "DISP"
  | .env => "ENV"
  | .host => "HOST"

/-- `AGENT: MNEMONIC operands`, the out-of-band operands apart; an illegal word has no line. -/
def Entry.asm (e : Entry) : Option String :=
  match decode e.word with
  | .error _ => none
  | .ok i =>
    let head := e.agent.asm ++ ": " ++ i.mnemonic
    match i.asmOperands with
    | [] => some head
    | ops => some (head ++ " " ++ String.intercalate ", " ops)

end Sys2Proof.Machine
end

