-- ==== Sys2Proof/Machine/Dispatcher.lean ====
section
/-! DEFINITION. The Interrupt Event Dispatcher (43_dispatcher.md): EVT_READ, EVT_ACK, IMASK_WRITE, IRQ_DISPATCH. -/

namespace Sys2Proof.Machine

/-- EVT_READ (43_dispatcher.md R271). -/
def execEvtRead (n : Nat) (s : State) : Out :=
  s.issue .either fun _ =>
    s.orRaise (s.laidOutCtx n) fun c =>
      s.orRaise (s.regRead c s.cfg.regEvt 16) fun v => .next (s.finish .ok (.num v.toNat))

/-- A register write by an operation, then `(OK, 0)` (43_dispatcher.md R272, R273). -/
def State.writeRegister (s : State) (n off : Nat) (v : Half) : Out :=
  s.issue .either fun _ =>
    s.orRaise (s.laidOutCtx n) fun c =>
      s.orRaise (s.regWrite c off 16 v) fun c' => .next ((s.setCtx n c').finish .ok (.num 0))

/-- EVT_ACK (43_dispatcher.md R272). -/
def execEvtAck (n : Nat) (m : Half) (s : State) : Out := s.writeRegister n s.cfg.regEvt m

/-- IMASK_WRITE (43_dispatcher.md R273). -/
def execImaskWrite (n : Nat) (v : Half) (s : State) : Out := s.writeRegister n s.cfg.regMask v

/-- Phase 1, `Reading`, with `c` the context the start step leaves (43_dispatcher.md R277): the invocation ends on a mask of 0
and reports to the interrupt layer. The rule returns the report code alone; the value 0 beside it is the model's
(notes/assumptions/28.md). A register fault keeps what the start step wrote (notes/assumptions/17.md). -/
def State.dispatchRead (s : State) (n : Nat) (c : Ctx) : Out :=
  (s.setCtx n c).orRaise (s.regRead c s.cfg.regEvt 16) fun m =>
    if m = 0 then
      .next ((s.setCtx n { c with disp := .idle }).finish (if c.handled then .handled else .notHandled) (.num 0))
    else .next (s.setCtx n { c with handled := true, disp := .acking m }).moved

/-- Phase 2, `Acking(m)` (43_dispatcher.md R277): exactly the mask that was read. -/
def State.dispatchAck (s : State) (n : Nat) (c : Ctx) (m : Half) : Out :=
  s.orRaise (s.regWrite c s.cfg.regEvt 16 m) fun c' =>
    .next (s.setCtx n { c' with disp := .signalling m }).moved

/-- The counting of one iteration (43_dispatcher.md R275), modulo 2^32. -/
def Ctx.countFaults (c : Ctx) (m : Half) : Ctx :=
  { c with
    rxFaults := if rxFault m then c.rxFaults + 1 else c.rxFaults
    txFaults := if txFault m then c.txFaults + 1 else c.txFaults }

/-- The signals of one iteration (43_dispatcher.md R274): the receive gate before the transmit gate. -/
def Ctx.signalHits (c : Ctx) (m : Half) : Ctx :=
  let c1 := if rxHit m then c.wakeAll .rx else c
  if txHit m then c1.wakeAll .tx else c1

/-- Phase 3, `Signalling(m)` (43_dispatcher.md R277). -/
def State.dispatchSignal (s : State) (n : Nat) (c : Ctx) (m : Half) : Out :=
  .next (s.setCtx n { (c.countFaults m).signalHits m with disp := .reading }).moved

/-- IRQ_DISPATCH (43_dispatcher.md R277, R278): the start with phase 1, or the next phase of the invocation in progress. On a
context that exists but has no handler the start is not enabled and holds (DEDUCED, notes/assumptions/32.md). -/
def execIrqDispatch (n : Nat) (s : State) : Out :=
  s.issue .dispatch fun ok =>
    match s.ctx? n with
    | none => .next (s.raise (trapOf .noSuchInstance))
    | some c =>
      if ok then
        match c.disp with
        | .idle =>
          if c.handler then s.dispatchRead n { c with handled := false, disp := .reading } else .next s.hold
        | .reading => s.dispatchRead n c
        | .acking m => s.dispatchAck n c m
        | .signalling m => s.dispatchSignal n c m
      else .next (s.raise (trapOf .contextViolation))

end Sys2Proof.Machine
end

