-- ==== Sys2Proof/Machine/Dma.lean ====
section
/-! DEFINITION. The DMA engine steps (42_dma_engine.md). A step that is not enabled is a hold; an engine step names no caller and
returns no result (60_exceptions.md R402). -/

namespace Sys2Proof.Machine

/-- The received bytes of a completion and the state that has consumed them, when R246 or R256 allows the step: a draw of
`count` bytes, or under LOOPBACK the oldest bytes of the instance's own line with `LF = 1` and no error. -/
def State.rxData (s : State) (n : Nat) (lf err : Bool) (count : Nat) : Option (List Byte × State) :=
  if s.cfg.loopback then
    match pendingHead s.linePending n with
    | none => none
    | some bs =>
      if bs.length = count ∧ lf = true ∧ err = false then
        some (bs, { s with linePending := pendingTail s.linePending n })
      else none
  else if s.cur.draws.data.length = count then some (s.cur.draws.data, s) else none

/-- The end of a completion: the index moves by `next_hw` on the `cs` written (42_dma_engine.md R253), after everything else
is written. -/
def State.walkOn (s : State) (n : Nat) (c : Ctx) (d : Dir) (h : Nat) (cs : Half) : Out :=
  match nextHw s.cfg d h cs with
  | none => .next ((s.setCtx n c).raise (trapOf .contractViolation))
  | some h' => .next (s.setCtx n { c with hw := c.hw.set d h' }).moved

/-- An engine step of direction `d` on instance `n`: `NoSuchInstance` where the id names no context (30_encoding.md R133,
60_exceptions.md R404; notes/assumptions/11.md), a hold while the engine is not enabled (42_dma_engine.md R240), else the
context and the descriptor at `hw[d]`. -/
def State.engine (s : State) (cls : OpClass) (n : Nat) (d : Dir) (k : Ctx → Desc → Out) : Out :=
  s.issue cls fun _ =>
    match s.ctx? n with
    | none => .next (s.raise (trapOf .noSuchInstance))
    | some c =>
      if c.dmaEn.get d then s.orRaise (s.readDesc c (s.cfg.slot d (c.hw.get d))) fun x => k c x
      else .next s.hold

/-- HW_RX_COMPLETE and HW_RX_COMPLETE_ERR (42_dma_engine.md R242, R243). -/
def State.rxComplete (s : State) (n : Nat) (lf err : Bool) (count : Nat) : Out :=
  s.engine .dmaRxOnly n .rx fun c d =>
    if d.hwOwned ∧ count ≤ s.cfg.bufSize then
      match s.rxData n lf err count with
      | none => .next s.hold
      | some (bs, s1) =>
        match c.copyIn s.cfg s.mem d.addr.toNat bs with
        | (m, some tr) => .next ({ s1 with mem := m }.raise tr)
        | (m, none) =>
          let cs := csRxDone d.cs lf err
          let c1 := c.setDesc (s.cfg.slot .rx c.hw.rx) { d with cs := cs, len := BitVec.ofNat 16 count }
          { s1 with mem := m }.walkOn n { c1 with evt := evRaise c.evt (evRxDone d.irq lf) } .rx c.hw.rx cs
    else .next s.hold

/-- HW_RX_COMPLETE (42_dma_engine.md R242). -/
def execHwRxComplete (n : Nat) (lf : Bool) (count : Nat) (s : State) : Out := s.rxComplete n lf false count

/-- HW_RX_COMPLETE_ERR (42_dma_engine.md R243). -/
def execHwRxCompleteErr (n : Nat) (lf : Bool) (count : Nat) (s : State) : Out := s.rxComplete n lf true count

/-- HW_RX_BUSY (42_dma_engine.md R244, R256): the data of the line is dropped. -/
def execHwRxBusy (n : Nat) (s : State) : Out :=
  s.engine .dmaRxOnly n .rx fun c d =>
    let busy := { c with evt := evRaise c.evt evBsy }
    if d.hwOwned then .next s.hold
    else if s.cfg.loopback then
      match pendingHead s.linePending n with
      | none => .next s.hold
      | some _ => .next ({ s with linePending := pendingTail s.linePending n }.setCtx n busy).moved
    else .next (s.setCtx n busy).moved

/-- HW_TX_COMPLETE (42_dma_engine.md R250, R256). -/
def execHwTxComplete (n : Nat) (s : State) : Out :=
  s.engine .dmaTxOnly n .tx fun c d =>
    if d.hwOwned then
      s.orRaise (s.copyOut c d.addr.toNat d.len.toNat) fun bs =>
        let cs := csTxDone d.cs
        let c1 := c.setDesc (s.cfg.slot .tx c.hw.tx) { d with cs := cs }
        { s with
          lineOut := s.lineOut ++ [TxRecord.mk n bs false]
          linePending := if s.cfg.loopback then s.linePending ++ [(n, bs)] else s.linePending }.walkOn n
          { c1 with evt := evRaise c.evt (evTxDone d.irq) } .tx c.hw.tx cs
    else .next s.hold

/-- HW_TX_ERROR (42_dma_engine.md R251): nothing is queued for reception. -/
def execHwTxError (n sent : Nat) (s : State) : Out :=
  s.engine .dmaTxOnly n .tx fun c d =>
    if d.hwOwned ∧ sent ≤ d.len.toNat then
      s.orRaise (s.copyOut c d.addr.toNat sent) fun bs =>
        let cs := csTxFail d.cs
        let c1 := c.setDesc (s.cfg.slot .tx c.hw.tx) { d with cs := cs }
        { s with lineOut := s.lineOut ++ [TxRecord.mk n bs true] }.walkOn n
          { c1 with evt := evRaise c.evt evTxe } .tx c.hw.tx cs
    else .next s.hold

end Sys2Proof.Machine
end

