-- ==== Sys2Proof/Machine/Gate.lean ====
section
/-! DEFINITION. The Ownership Protocol's two takes (41_ownership.md) as shared operations, the Blocking I/O Gate and the blocking
calls (44_gate.md): WAIT, READ, WRITE in their phases, SIGNAL, CANCEL, SPURIOUS_WAKE. -/

namespace Sys2Proof.Machine

/-- How a take ends. -/
inductive TakeEnd
  /-- `(NotReady, 0)`: nothing changed (41_ownership.md R223) -/
  | notReady
  /-- `(OK, k)` with the state after the hand-off -/
  | took (s : State) (k : Nat)
  /-- a fault, recorded in the state -/
  | trapped (s : State)

/-- TAKE_WR by the thread taking the step (41_ownership.md R221). -/
def State.takeWrite (s : State) (n maxLen : Nat) (contextOk : Bool) : TakeEnd :=
  match s.callCtx n contextOk with
  | .error tr => .trapped (s.raise tr)
  | .ok c =>
    let j := c.cursor.tx
    let k := s.cfg.slot .tx j
    match s.readDesc c k with
    | .error tr => .trapped (s.raise tr)
    | .ok d =>
      if d.hwOwned then .notReady
      else
        let src := (s.thr s.me).src
        let len := writeLen s.cfg src maxLen
        match c.copyIn s.cfg s.mem d.addr.toNat (src.take len) with
        | (m, some tr) => .trapped ({ s with mem := m }.raise tr)
        | (m, none) =>
          let c' := c.setDesc k { d with cs := csTakeWr d.cs, len := BitVec.ofNat 16 len }
          .took ({ s with mem := m }.setCtx n { c' with cursor := { c.cursor with tx := nextCursor s.cfg .tx j } }) len

/-- TAKE_RD by the thread taking the step (41_ownership.md R225). -/
def State.takeRead (s : State) (n maxLen : Nat) (contextOk : Bool) : TakeEnd :=
  match s.callCtx n contextOk with
  | .error tr => .trapped (s.raise tr)
  | .ok c =>
    let i := c.cursor.rx
    let k := s.cfg.slot .rx i
    match s.readDesc c k with
    | .error tr => .trapped (s.raise tr)
    | .ok d =>
      if d.hwOwned then .notReady
      else
        let len := readLen d maxLen
        match s.copyOut c d.addr.toNat len with
        | .error tr => .trapped (s.raise tr)
        | .ok bs =>
          let c' := c.setDesc k { d with cs := csTakeRd d.cs }
          .took ((s.setCtx n { c' with cursor := { c.cursor with rx := nextCursor s.cfg .rx i } }).setThr s.me
            { s.thr s.me with dst := bs }) len

/-! The phases of a call (44_gate.md R292 to R295, R300, R301). -/

/-- The thread taking the step moves to sub-phase `ph` of its call. -/
def State.inPhase (s : State) (k : CallKind) (n : Nat) (d : Dir) (ph : SubPhase) (len : Nat) : State :=
  (s.setThr s.me { s.thr s.me with phase := .inCall k n d ph, callLen := len }).moved

/-- The call of the thread taking the step returns `(code, v)`: the thread is `Idle`. -/
def State.callReturn (s : State) (code : Code) (v : Nat) : State :=
  (s.setThr s.me { s.thr s.me with phase := .idle, callLen := 0 }).finish code (.num v)

/-- The wait of a call succeeded: a WAIT returns `(OK, 0)`, a READ or WRITE goes to `Take` (44_gate.md R292, R293, R300). -/
def State.waitDone (s : State) (k : CallKind) (n : Nat) (d : Dir) (len : Nat) : State :=
  match k with
  | .wait => s.callReturn .ok 0
  | .read => s.inPhase .read n d .take len
  | .write => s.inPhase .write n d .take len

/-- Phase `Entry` (44_gate.md R292). -/
def State.callEntry (s : State) (k : CallKind) (n : Nat) (d : Dir) (len : Nat) (contextOk : Bool) : Out :=
  s.orRaise (s.callCtx n contextOk) fun c =>
    s.orRaise (s.waitPred c d) fun p =>
      if p then .next (s.waitDone k n d len) else .next (s.inPhase k n d .prep len)

/-- Phase `Prep`: enqueue, re-check, then look at the cancellation (44_gate.md R293). -/
def State.callPrep (s : State) (k : CallKind) (n : Nat) (d : Dir) (len : Nat) : Out :=
  match s.ctx? n with
  | none => .next (s.raise (trapOf .noSuchInstance))
  | some c =>
    let joined := s.setCtx n (c.enqueue d s.me)
    let left := s.setCtx n (c.dequeue d s.me)
    joined.orRaise (s.waitPred c d) fun p =>
      if p then .next (left.waitDone k n d len)
      else if (s.thr s.me).cancel then
        .next ((left.setThr s.me { s.thr s.me with cancel := false }).callReturn .canceled 0)
      else .next (joined.inPhase k n d .sleep len)

/-- The thread is held in `Sleep`: it waits in the gate and no cancellation is pending (44_gate.md R294). -/
def State.asleep (s : State) (n : Nat) (d : Dir) : Bool :=
  match s.ctx? n with
  | none => false
  | some c => (c.gate.get d).contains s.me && !(s.thr s.me).cancel

/-- Phase `Sleep`: a hold, or the wake-up to `Prep` (44_gate.md R294, R295). -/
def State.callSleep (s : State) (k : CallKind) (n : Nat) (d : Dir) (len : Nat) : Out :=
  if s.asleep n d then .next s.hold else .next (s.inPhase k n d .prep len)

/-- The take of a call. No rule gives a WAIT a `Take` step; a thread at `InCall(WAIT, n, dir, Take)`, which 10_state.md R45
admits and no run reaches, goes back to `Entry` as after a lost race (DESIGN CHOICE, notes/assumptions/34.md). -/
def State.takeOf (s : State) (k : CallKind) (n len : Nat) : TakeEnd :=
  match k with
  | .read => s.takeRead n len true
  | .write => s.takeWrite n len true
  | .wait => .notReady

/-- Phase `Take` (44_gate.md R300, R301): a lost race goes back to `Entry`. -/
def State.callTake (s : State) (k : CallKind) (n : Nat) (d : Dir) (len : Nat) : Out :=
  match s.takeOf k n len with
  | .notReady => .next (s.inPhase k n d .entry len)
  | .took s' v => .next (s'.callReturn .ok v)
  | .trapped s' => .next s'

/-- The next phase of the call in progress. -/
def State.callPhase (s : State) (k : CallKind) (n : Nat) (d : Dir) (ph : SubPhase) (len : Nat) : Out :=
  match ph with
  | .entry => s.callEntry k n d len true
  | .prep => s.callPrep k n d len
  | .sleep => s.callSleep k n d len
  | .take => s.callTake k n d len

/-- One atomic step of a blocking call: `Entry` for an idle thread, the next phase for a thread inside this very call, a hold
for a thread inside another (notes/assumptions/8.md, 10.md). -/
def State.blockingCall (s : State) (k : CallKind) (n : Nat) (d : Dir) (len : Nat) : Out :=
  match s.mayIssue .threadCall with
  | .noStep => .refused .noSuchStep
  | .wrongContext => s.callEntry k n d len false
  | .yes =>
    match (s.thr s.me).phase with
    | .idle => s.callEntry k n d len true
    | .inCall k' n' d' ph =>
      if k' = k ∧ n' = n ∧ d' = d ∧ (s.thr s.me).callLen = len then s.callPhase k n d ph len else .next s.hold

/-- The thread taking the step is at the `Take` phase of this call. -/
def State.atTake (s : State) (k : CallKind) (n : Nat) (d : Dir) (len : Nat) : Bool :=
  s.mayIssue .threadCall == .yes && (s.thr s.me).phase == .inCall k n d .take && (s.thr s.me).callLen == len

/-- WAIT (44_gate.md R292 to R295). -/
def execWait (n : Nat) (d : Dir) (s : State) : Out := s.blockingCall .wait n d 0

/-- READ (44_gate.md R300). -/
def execRead (n maxLen : Nat) (s : State) : Out := s.blockingCall .read n .rx maxLen

/-- WRITE (44_gate.md R301). -/
def execWrite (n len : Nat) (s : State) : Out := s.blockingCall .write n .tx len

/-- SIGNAL (44_gate.md R297). -/
def execSignal (n : Nat) (d : Dir) (s : State) : Out :=
  s.issue .either fun _ =>
    s.orRaise (s.laidOutCtx n) fun c => .next ((s.setCtx n (c.wakeAll d)).finish .ok (.num 0))

/-- CANCEL (44_gate.md R298). -/
def execCancel (t : Nat) (s : State) : Out :=
  s.issue .envOnly fun _ =>
    if s.cfg.threads.contains t then
      .next ((s.setThr t { s.thr t with cancel := true }).finish .ok (.num 0))
    else .next (s.raise (trapOf .contractViolation))

/-- SPURIOUS_WAKE (44_gate.md R299): enabled while `t` waits in the gate. `NoSuchInstance` where the id names no context
(30_encoding.md R133, 60_exceptions.md R404; notes/assumptions/11.md). -/
def execSpuriousWake (n : Nat) (d : Dir) (t : Nat) (s : State) : Out :=
  s.issue .envOnly fun _ =>
    match s.ctx? n with
    | none => .next (s.raise (trapOf .noSuchInstance))
    | some c =>
      if (c.gate.get d).contains t then .next (s.setCtx n (c.dequeue d t)).moved else .next s.hold

end Sys2Proof.Machine
end

