-- ==== Sys2Proof/Machine/Ownership.lean ====
section
/-! DEFINITION. The bare takes (41_ownership.md): TAKE_WR, TAKE_RD. -/

namespace Sys2Proof.Machine

/-- The result of a bare take. -/
def State.takeAlone (s : State) (e : TakeEnd) : Out :=
  match e with
  | .notReady => .next (s.finish .notReady (.num 0))
  | .took s' k => .next (s'.finish .ok (.num k))
  | .trapped s' => .next s'

/-- TAKE_WR (41_ownership.md R221). By a thread at the `Take` phase of its WRITE the word is that step of the call
(44_gate.md R301, 95_test_vectors.md P1 line 7; notes/assumptions/8.md). -/
def execTakeWr (n maxLen : Nat) (s : State) : Out :=
  if s.atTake .write n .tx maxLen then s.callTake .write n .tx maxLen
  else s.issue .threadCall fun ok => s.takeAlone (s.takeWrite n maxLen ok)

/-- TAKE_RD (41_ownership.md R225). By a thread at the `Take` phase of its READ the word is that step of the call
(44_gate.md R300, 95_test_vectors.md P1 line 16; notes/assumptions/8.md). -/
def execTakeRd (n maxLen : Nat) (s : State) : Out :=
  if s.atTake .read n .rx maxLen then s.callTake .read n .rx maxLen
  else s.issue .threadCall fun ok => s.takeAlone (s.takeRead n maxLen ok)

end Sys2Proof.Machine
end

