-- ==== Sys2Proof/Machine/Ring.lean ====
section
/-! DEFINITION. The Descriptor Ring operations (40_ring.md): RING_INIT, DESC_AT, ADVANCE. -/

namespace Sys2Proof.Machine

/-- How laying out a ring ends. -/
inductive LayOut
  /-- `(OK, 0)` with the state after it -/
  | laid (s : State)
  /-- `(AllocationError, 0)`: fully unwound, nothing written (40_ring.md R202) -/
  | failed
  /-- a fault, recorded in the state -/
  | trapped (s : State)

/-- The buffers that other contexts hold (40_ring.md R201). -/
def State.otherBuffers (s : State) (n : Nat) : List Nat :=
  s.ctxs.flatMap (fun p => if p.1 = n then [] else p.2.desc.map (fun d => d.addr.toNat))

/-- The context after a successful layout (40_ring.md R201). -/
def Ctx.laidOutWith (c : Ctx) (cfg : Config) (addrs : List Addr) : Ctx :=
  { c with
    life := .initialized
    desc := cfg.layout 0 addrs
    cursor := ⟨0, 0⟩
    gate := ⟨[], []⟩
    rxFaults := 0
    txFaults := 0 }

/-- RING_INIT on an `Allocated` context, with the draws of the entry (40_ring.md R201, R202). A descriptor area that is not
inside the address space faults with the buffers obtained and no descriptor written (notes/assumptions/18.md). -/
def State.layOut (s : State) (n : Nat) (c : Ctx) : LayOut :=
  if s.cur.draws.descArea then
    match s.cfg.obtain (s.otherBuffers n) s.cfg.slots s.cur.draws.alloc with
    | none => .failed
    | some addrs =>
      let s1 := { s with liveBuffers := s.liveBuffers + s.cfg.slots }
      match s.cfg.firstUnreachable 0 s.cfg.slots with
      | some k => .trapped (s1.raise ⟨.badAddress, s.cfg.descAddr k + 4⟩)
      | none =>
        .laid ({ s1 with mem := s.cfg.fillBuffers s.mem addrs s.cur.draws.fill }.setCtx n (c.laidOutWith s.cfg addrs))
  else .failed

/-- RING_INIT as the operation of its own word (40_ring.md R201): a failure leaves the context `Allocated`. -/
def State.ringInitAlone (s : State) (n : Nat) : Out :=
  match s.ctx? n with
  | none => .next (s.raise (trapOf .contractViolation))
  | some c =>
    if c.life = .allocated then
      match s.layOut n c with
      | .laid s' => .next (s'.finish .ok (.num 0))
      | .failed => .next (s.finish .allocationError (.num 0))
      | .trapped s' => .next s'
    else .next (s.raise (trapOf .contractViolation))

/-- Step 2 of BRINGUP (45_registry.md R332): RING_INIT on the new context, whose failure ends the bring-up and empties the
slot. -/
def State.bringupLayOut (s : State) (id : Nat) (c : Ctx) : Out :=
  match s.layOut id c with
  | .laid s' => .next s'.moved
  | .failed => .next ({ s.dropCtx id with hostOp := .idle }.finish .allocationError (.num 0))
  | .trapped s' => .next s'

/-- RING_INIT (40_ring.md R201). While the Host brings up instance `n`, the word is step 2 of that bring-up
(95_test_vectors.md P1 line 2, P4 lines 2 and 4; notes/assumptions/8.md). -/
def execRingInit (n : Nat) (s : State) : Out :=
  match s.mayIssue .hostOnly with
  | .noStep => .refused .noSuchStep
  | .wrongContext => .next (s.raise (trapOf .contextViolation))
  | .yes =>
    match s.hostOp with
    | .idle => s.ringInitAlone n
    | .inBringup id =>
      match s.ctx? id with
      | none => .next s.hold
      | some c => if id = n ∧ c.life = .allocated then s.bringupLayOut id c else .next s.hold
    | .inTeardown _ _ => .next s.hold

/-- DESC_AT (40_ring.md R203): a snapshot, no state changes. -/
def execDescAt (n : Nat) (d : Dir) (idx : Nat) (s : State) : Out :=
  s.issue .either fun _ =>
    s.orRaise (s.laidOutCtx n) fun c =>
      if s.cfg.cap d ≤ idx then .next (s.raise (trapOf .contractViolation))
      else s.orRaise (s.readDesc c (s.cfg.slot d idx)) fun x => .next (s.finish .ok (.desc x))

/-- ADVANCE (40_ring.md R205): a pure function of its operands. -/
def execAdvance (d : Dir) (idx : Nat) (s : State) : Out :=
  s.issue .anyone fun _ =>
    match advanceIdx idx (s.cfg.cap d) with
    | none => .next (s.raise (trapOf .contractViolation))
    | some i => .next (s.finish .ok (.num i))

end Sys2Proof.Machine
end

