-- ==== Sys2Proof/Machine/Registry.lean ====
section
/-! DEFINITION. The Device Instance Registry and lifecycle operations (45_registry.md): BRINGUP, LOOKUP, TEARDOWN, OPEN, CLOSE. -/

namespace Sys2Proof.Machine

/-- A new device context (45_registry.md R332 step 1). `EVT` is unspecified until activation: a draw
(10_state.md R60; notes/assumptions/15.md). `desc` and `cursor` have no meaning before RING_INIT (notes/assumptions/16.md). -/
def Ctx.fresh (evt : Half) : Ctx where
  life := .allocated
  desc := []
  cursor := ⟨0, 0⟩
  hw := ⟨0, 0⟩
  dmaEn := ⟨false, false⟩
  evt := evt
  imask := 0
  handler := false
  disp := .idle
  handled := false
  gate := ⟨[], []⟩
  rxFaults := 0
  txFaults := 0

/-- The context at the end of bring-up (45_registry.md R332 step 3). -/
def Ctx.activate (c : Ctx) (evt : Half) : Ctx :=
  { c with
    life := .active
    hw := ⟨0, 0⟩
    dmaEn := ⟨true, true⟩
    evt := evt
    imask := evAll
    handler := true }

/-- BRINGUP step 1, allocate the id (45_registry.md R331, R332). -/
def State.bringupAllocate (s : State) : Out :=
  if s.nextId = s.cfg.nInst then .next (s.finish .capacityExceeded (.num 0))
  else
    .next ({ s with nextId := s.nextId + 1, hostOp := .inBringup s.nextId }.setCtx s.nextId
      (Ctx.fresh s.cur.draws.evtDraw)).moved

/-- BRINGUP step 3, controller bring-up and activation (45_registry.md R332). -/
def State.bringupActivate (s : State) (id : Nat) (c : Ctx) : Out :=
  if s.cur.draws.bringup then
    .next (({ s with hostOp := .idle }.setCtx id (c.activate s.cur.draws.evtDraw)).finish .ok (.num id))
  else .next ({ s.release id with hostOp := .idle }.finish .bringupError (.num 0))

/-- BRINGUP (45_registry.md R332): the step that `host_op` and the context's `life` say is next. -/
def execBringup (s : State) : Out :=
  match s.mayIssue .hostOnly with
  | .noStep => .refused .noSuchStep
  | .wrongContext => .next (s.raise (trapOf .contextViolation))
  | .yes =>
    match s.hostOp with
    | .idle => s.bringupAllocate
    | .inBringup id =>
      match s.ctx? id with
      | none => .next s.hold
      | some c =>
        match c.life with
        | .allocated => s.bringupLayOut id c
        | .initialized => s.bringupActivate id c
        | _ => .next s.hold
    | .inTeardown _ _ => .next s.hold

/-- LOOKUP (45_registry.md R334). -/
def execLookup (n : Nat) (s : State) : Out :=
  s.issue .anyone fun _ =>
    s.orRaise (s.activeCtx n) fun _ => .next (s.finish .ok (.num n))

/-- Some thread is inside a call on the instance (45_registry.md R336). -/
def State.callerInside (s : State) (n : Nat) : Bool := s.cfg.threads.any (fun t => (s.thr t).insideCall n)

/-- The context after teardown step 1 (45_registry.md R336). -/
def Ctx.stop (c : Ctx) : Ctx :=
  { c with life := .stopped, imask := 0, handler := false, dmaEn := ⟨false, false⟩ }

/-- TEARDOWN step 1, stop interrupts (45_registry.md R336): it holds while an invocation is in progress. -/
def State.teardownStop (s : State) (n : Nat) : Out :=
  s.orRaise (s.activeCtx n) fun c =>
    if c.disp = .idle then
      if s.callerInside n then .next (s.raise (trapOf .contractViolation))
      else .next ({ s with hostOp := .inTeardown n (!s.cur.draws.stopOk) }.setCtx n c.stop).moved
    else .next s.hold

/-- TEARDOWN step 2, release from the registry (45_registry.md R336). -/
def State.teardownUnregister (s : State) (n : Nat) (err : Bool) (c : Ctx) : Out :=
  .next ({ s with hostOp := .inTeardown n (err || !s.cur.draws.unregisterOk) }.setCtx n
    { c with life := .unregistered }).moved

/-- TEARDOWN step 3, release buffers (45_registry.md R336). -/
def State.teardownRelease (s : State) (n : Nat) (err : Bool) : Out :=
  .next ({ s.release n with hostOp := .idle }.finish (if err then .teardownError else .ok) (.num 0))

/-- TEARDOWN (45_registry.md R336): the step that `host_op` and the context's `life` say is next. Issued by the dispatcher it
faults, on the instance first (60_exceptions.md R414). -/
def execTeardown (n : Nat) (s : State) : Out :=
  match s.mayIssue .hostOnly with
  | .noStep => .refused .noSuchStep
  | .wrongContext => s.orRaise (s.activeCtx n) fun _ => .next (s.raise (trapOf .contextViolation))
  | .yes =>
    match s.hostOp with
    | .idle => s.teardownStop n
    | .inBringup _ => .next s.hold
    | .inTeardown id err =>
      if id = n then
        match s.ctx? n with
        | none => .next s.hold
        | some c =>
          match c.life with
          | .stopped => s.teardownUnregister n err c
          | .unregistered => s.teardownRelease n err
          | _ => .next s.hold
      else .next s.hold

/-- OPEN (45_registry.md R338). -/
def execOpenInst (n : Nat) (s : State) : Out :=
  s.issue .threadCall fun ok =>
    s.orRaise (s.activeCtx n) fun _ =>
      s.orRaise (needContext ok) fun _ =>
        .next ((s.setThr s.me { s.thr s.me with bound := some n }).finish .ok (.num 0))

/-- CLOSE (45_registry.md R339). -/
def execCloseInst (s : State) : Out :=
  s.issue .threadCall fun ok =>
    s.orRaise (needContext ok) fun _ =>
      .next ((s.setThr s.me { s.thr s.me with bound := none }).finish .ok (.num 0))

end Sys2Proof.Machine
end

