-- ==== Sys2Proof/Machine/Dispatch.lean ====
section
/-! DEFINITION. One arm per operation of 30_encoding.md R135: the meaning it calls. -/

namespace Sys2Proof.Machine

def exec (i : Instr) (s : State) : Host.Outcome State Fault Refusal :=
  match i with
  | .ringInit n => Sys2Proof.Machine.execRingInit n s
  | .descAt n d idx => Sys2Proof.Machine.execDescAt n d idx s
  | .advance d idx => Sys2Proof.Machine.execAdvance d idx s
  | .takeWr n maxLen => Sys2Proof.Machine.execTakeWr n maxLen s
  | .takeRd n maxLen => Sys2Proof.Machine.execTakeRd n maxLen s
  | .wait n d => Sys2Proof.Machine.execWait n d s
  | .signal n d => Sys2Proof.Machine.execSignal n d s
  | .cancel t => Sys2Proof.Machine.execCancel t s
  | .spuriousWake n d t => Sys2Proof.Machine.execSpuriousWake n d t s
  | .read n maxLen => Sys2Proof.Machine.execRead n maxLen s
  | .write n len => Sys2Proof.Machine.execWrite n len s
  | .evtRead n => Sys2Proof.Machine.execEvtRead n s
  | .evtAck n m => Sys2Proof.Machine.execEvtAck n m s
  | .imaskWrite n v => Sys2Proof.Machine.execImaskWrite n v s
  | .irqDispatch n => Sys2Proof.Machine.execIrqDispatch n s
  | .bringup => Sys2Proof.Machine.execBringup s
  | .lookup n => Sys2Proof.Machine.execLookup n s
  | .teardown n => Sys2Proof.Machine.execTeardown n s
  | .openInst n => Sys2Proof.Machine.execOpenInst n s
  | .closeInst => Sys2Proof.Machine.execCloseInst s
  | .hwRxComplete n lf count => Sys2Proof.Machine.execHwRxComplete n lf count s
  | .hwRxCompleteErr n lf count => Sys2Proof.Machine.execHwRxCompleteErr n lf count s
  | .hwRxBusy n => Sys2Proof.Machine.execHwRxBusy n s
  | .hwTxComplete n => Sys2Proof.Machine.execHwTxComplete n s
  | .hwTxError n sent => Sys2Proof.Machine.execHwTxError n sent s

end Sys2Proof.Machine
end

