-- ==== Sys2Proof/Machine/Step.lean ====
section
/-! DEFINITION. One step of the machine: the next entry of the schedule, decoded and performed (00_scope.md R14). -/

namespace Sys2Proof.Machine

/-- One atomic step. A recorded fault stops the machine (60_exceptions.md R404); with an empty schedule the machine waits for
the outside world and nothing changes (notes/assumptions/1.md). -/
def step (s : State) : Host.Outcome State Fault Refusal :=
  match s.fault with
  | some f => .fault (.stopped f.reason)
  | none =>
    match s.sched with
    | [] => .next s
    | e :: rest =>
      match decode e.word with
      | .error _ => (s.load e rest).illegal
      | .ok i => exec i (s.load e rest)

/-- The table's word as the next entry of the schedule, issued by the agent that 30_encoding.md R135 names. -/
def State.withFetchWord (s : State) (nbits w : Nat) : State :=
  { s with sched := entryOf s.cfg (BitVec.ofNat 32 (w % 2 ^ nbits)) :: s.sched }

end Sys2Proof.Machine
end

