-- ==== Sys2Proof/Safety.lean ====
section
/-! DEFINITION. What claims about runs are stated in: the end of a run (70_reset_and_hazards.md R521), steps under a chosen entry
and the fairness assumptions (R520, 42_dma_engine.md R257, 43_dispatcher.md R278, R280, 45_registry.md R341), and the
invariants of the reachable states (10_state.md R37 to R44, R58, R59, 30_encoding.md R122). -/

namespace Sys2Proof

/-- `INST` is an operand of the operation and has the value `m` (30_encoding.md R133, R135). -/
def Instr.namesInstance (i : Instr) (m : Nat) : Bool :=
  match i with
  | .ringInit n => n == m
  | .descAt n _ _ => n == m
  | .advance _ _ => false
  | .takeWr n _ => n == m
  | .takeRd n _ => n == m
  | .wait n _ => n == m
  | .signal n _ => n == m
  | .cancel _ => false
  | .spuriousWake n _ _ => n == m
  | .read n _ => n == m
  | .write n _ => n == m
  | .evtRead n => n == m
  | .evtAck n _ => n == m
  | .imaskWrite n _ => n == m
  | .irqDispatch n => n == m
  | .bringup => false
  | .lookup n => n == m
  | .teardown n => n == m
  | .openInst n => n == m
  | .closeInst => false
  | .hwRxComplete n _ _ => n == m
  | .hwRxCompleteErr n _ _ => n == m
  | .hwRxBusy n => n == m
  | .hwTxComplete n => n == m
  | .hwTxError n _ => n == m

end Sys2Proof

namespace Sys2Proof.Machine

/-! The end of a run. -/

/-- The interrupt line of instance `n` (60_exceptions.md R410). -/
def State.line (s : State) (n : Nat) : Bool :=
  match s.ctx? n with
  | none => false
  | some c => c.line

/-- Some transmit slot is READY. -/
def Ctx.txReady (c : Ctx) (cfg : Config) : Bool := (c.desc.drop cfg.rxCap).any Desc.hwOwned

/-- What R521 asks of a live context. -/
def Ctx.quiet (c : Ctx) (cfg : Config) : Bool :=
  c.disp == .idle && !c.line && (c.life != .active || !c.txReady cfg)

/-- A state is final: the run has ended (70_reset_and_hazards.md R521). -/
def State.final (s : State) : Bool :=
  s.fault == none && s.hostOp == .idle && s.cfg.threads.all (fun t => (s.thr t).phase == .idle)
    && s.ctxs.all (fun p => p.2.quiet s.cfg) && (!s.cfg.loopback || s.linePending == [])

/-! Steps under a chosen entry, and fairness. A run chooses one entry after another; the schedule field holds only the entry
of the step. -/

/-- The step that performs this entry. -/
def State.perform (s : State) (e : Entry) : Out := step { s with sched := [e] }

/-- The entry is an enabled step of its agent. -/
def State.enabled (s : State) (e : Entry) : Prop := ∃ t, s.perform e = .next t ∧ t.out ≠ .held

/-- An infinite run: its states and the entries chosen. -/
def IsRun (σ : Nat → State) (ε : Nat → Entry) : Prop := ∀ k, (σ k).perform (ε k) = .next (σ (k + 1))

/-- From `k` on an entry of the class is taken at some time. -/
def TakenFrom (σ : Nat → State) (ε : Nat → Entry) (cls : Entry → Prop) (k : Nat) : Prop :=
  ∃ j, k ≤ j ∧ cls (ε j) ∧ (σ (j + 1)).out ≠ .held

/-- A class of steps that is enabled infinitely often from `k` on is eventually taken. -/
def StronglyFairFrom (σ : Nat → State) (ε : Nat → Entry) (cls : Entry → Prop) (k : Nat) : Prop :=
  (∀ j, k ≤ j → ∃ l, j ≤ l ∧ ∃ e, cls e ∧ (σ l).enabled e) → TakenFrom σ ε cls k

/-- The steps of the transmit engine of instance `n`. -/
def txStepOf (n : Nat) (e : Entry) : Prop :=
  e.agent = .dmaTx ∧ (decode e.word = .ok (.hwTxComplete n) ∨ ∃ c, decode e.word = .ok (.hwTxError n c))

/-- The steps of the receive engine of instance `n`. -/
def rxStepOf (n : Nat) (e : Entry) : Prop :=
  e.agent = .dmaRx ∧ ((∃ lf c, decode e.word = .ok (.hwRxComplete n lf c)) ∨ decode e.word = .ok (.hwRxBusy n))

/-- The steps of an invocation of instance `n`. -/
def dispatchStepOf (n : Nat) (e : Entry) : Prop :=
  e.agent = .dispatcher ∧ decode e.word = .ok (.irqDispatch n)

/-- The Host's teardown of instance `n`. -/
def teardownStepOf (n : Nat) (e : Entry) : Prop := e.agent = .host ∧ decode e.word = .ok (.teardown n)

/-- A class of steps that stays enabled while a condition stays true is eventually taken. -/
def WeaklyFairWhile (σ : Nat → State) (ε : Nat → Entry) (cond : State → Prop) (cls : Entry → Prop) : Prop :=
  ∀ k, (∀ j, k ≤ j → cond (σ j) ∧ ∃ e, cls e ∧ (σ j).enabled e) → TakenFrom σ ε cls k

/-- The engine of direction `d` of instance `n` may step: the instance exists and its engine is enabled (42_dma_engine.md
R240). -/
def State.engineOn (s : State) (n : Nat) (d : Dir) : Prop := ∃ c, s.ctx? n = some c ∧ c.dmaEn.get d = true

/-- An invocation of instance `n` is wanted: the line is asserted, or an invocation is in progress. -/
def State.dispatchDue (s : State) (n : Nat) : Prop :=
  ∃ c, s.ctx? n = some c ∧ (c.line = true ∨ c.disp ≠ .idle)

/-- Some attempt at teardown step 1 was made at or before `k`, and from `k` on the instance is still `Active`. 45_registry.md
R341 states no such condition; that strong fairness is owed only to a teardown the Host wants is the model's choice
(DESIGN CHOICE, notes/assumptions/29.md). -/
def TeardownWanted (σ : Nat → State) (ε : Nat → Entry) (n k : Nat) : Prop :=
  (∃ j, j ≤ k ∧ teardownStepOf n (ε j)) ∧ ∀ j, k ≤ j → ∃ c, (σ j).ctx? n = some c ∧ c.life = .active

/-- The fairness assumptions of the spec (42_dma_engine.md R257, 43_dispatcher.md R278, R280, 45_registry.md R341,
70_reset_and_hazards.md R520). -/
structure FairRun (σ : Nat → State) (ε : Nat → Entry) : Prop where
  run : IsRun σ ε
  /-- R257: the transmit engine, while R240 lets it step -/
  tx : ∀ n, WeaklyFairWhile σ ε (fun s => s.engineOn n .tx) (txStepOf n)
  /-- R257: the receive engine under LOOPBACK, while R240 lets it step; a receive step is enabled only with bytes pending
  (R256) -/
  rx : ∀ n, WeaklyFairWhile σ ε (fun s => s.cfg.loopback = true ∧ s.engineOn n .rx) (rxStepOf n)
  /-- R278, R280: an invocation is started while the line is asserted, and goes on once started -/
  dispatch : ∀ n, WeaklyFairWhile σ ε (fun s => s.dispatchDue n) (dispatchStepOf n)
  /-- R341: the Host goes on with what it has in progress -/
  host : WeaklyFairWhile σ ε (fun s => s.hostOp ≠ .idle) (fun e => e.agent = .host)
  /-- R341: teardown step 1, once it is attempted (notes/assumptions/29.md) -/
  teardown : ∀ n k, TeardownWanted σ ε n k → StronglyFairFrom σ ε (teardownStepOf n) k
  /-- R520: a thread inside a call goes on; that an idle thread is owed nothing is the model's choice (DESIGN CHOICE,
  notes/assumptions/30.md) -/
  thread : ∀ t, WeaklyFairWhile σ ε (fun s => (s.thr t).phase ≠ .idle) (fun e => e.agent = .thread t)

/-! The invariants. -/

/-- The context holds its buffers: from RING_INIT to release (10_state.md R43, R55). -/
def Life.holdsBuffers : Life → Bool
  | .initialized => true
  | .active => true
  | .stopped => true
  | .unregistered => true
  | _ => false

/-- `desc[k]` as it must be (30_encoding.md R122, 10_state.md R38, R59): no reserved bit, WRAP exactly on the last slot of
each sub-ring, `len` at most `BUF_SIZE`. -/
def Desc.ok (d : Desc) (cfg : Config) (k : Nat) : Bool :=
  !d.reservedSet && decide (d.len.toNat ≤ cfg.bufSize) && (d.wrap == (k + 1 == cfg.rxCap || k + 1 == cfg.slots))

/-- `desc[k]` exists and is as it must be. -/
def Ctx.descOk (c : Ctx) (cfg : Config) (k : Nat) : Bool :=
  match c.desc[k]? with
  | none => false
  | some d => d.ok cfg k

/-- Every descriptor of a laid-out ring is as it must be, and the four index registers are in range (10_state.md R32). -/
abbrev Ctx.ringOk (c : Ctx) (cfg : Config) : Prop :=
  c.desc.length = cfg.slots ∧ (∀ k, k < cfg.slots → c.descOk cfg k = true)
    ∧ c.cursor.rx < cfg.rxCap ∧ c.hw.rx < cfg.rxCap ∧ c.cursor.tx < cfg.txCap ∧ c.hw.tx < cfg.txCap

/-- `i` lies on the cyclic run from `a` up to but not including `b`. -/
abbrev inRun (a b i : Nat) : Prop := if a ≤ b then a ≤ i ∧ i < b else a ≤ i ∨ i < b

/-- Slot `i` of sub-ring `dir` is owned by hardware. -/
def Ctx.slotHw (c : Ctx) (cfg : Config) (dir : Dir) (i : Nat) : Bool :=
  match c.desc[cfg.slot dir i]? with
  | none => false
  | some d => d.hwOwned

/-- The ring shape of one direction (10_state.md R58): software owns exactly the cyclic run from the cursor up to the hardware
index; when they meet, the whole sub-ring has one owner. -/
abbrev Ctx.shaped (c : Ctx) (cfg : Config) (dir : Dir) : Prop :=
  if c.cursor.get dir = c.hw.get dir then
    ∀ i, i < cfg.cap dir → c.slotHw cfg dir i = c.slotHw cfg dir 0
  else ∀ i, i < cfg.cap dir → (c.slotHw cfg dir i = false ↔ inRun (c.cursor.get dir) (c.hw.get dir) i)

/-- The register and lifecycle facts of a context (10_state.md R41 to R44, 30_encoding.md R125, R127). -/
abbrev Ctx.controlOk (c : Ctx) : Prop :=
  c.evt &&& ~~~evAll = 0 ∧ c.imask &&& ~~~evAll = 0
    ∧ (c.handler = true ↔ c.life = .active) ∧ (c.dmaEn.rx = true ↔ c.life = .active)
    ∧ (c.dmaEn.tx = true ↔ c.life = .active) ∧ (c.disp ≠ .idle → c.life = .active) ∧ c.life ≠ .released

/-- A context that is not laid out has no descriptors; one that is laid out has a ring as it must be, and before activation
its four indices are 0 (10_state.md R60). -/
abbrev Ctx.layoutOk (c : Ctx) (cfg : Config) : Prop :=
  (c.life.holdsBuffers = false → c.desc = []) ∧ (c.life.holdsBuffers = true → c.ringOk cfg)
    ∧ (c.life = .allocated ∨ c.life = .initialized → c.cursor = ⟨0, 0⟩ ∧ c.hw = ⟨0, 0⟩)

/-- Every context has its registers, its layout and its lifecycle as they must be. -/
def State.ctxsOk (s : State) : Prop := ∀ n c, s.ctx? n = some c → c.controlOk ∧ c.layoutOk s.cfg

/-- Every laid-out ring has the shape of 10_state.md R58. -/
def State.ringsShaped (s : State) : Prop :=
  ∀ n c, s.ctx? n = some c → c.life.holdsBuffers = true → c.shaped s.cfg .rx ∧ c.shaped s.cfg .tx

/-- The allocator's accounting (10_state.md R55): the contexts that hold buffers, `R + T` each. -/
def State.buffersHeld (s : State) : Nat :=
  (s.ctxs.filter (fun p => p.2.life.holdsBuffers)).length * s.cfg.slots

/-- Slots are keyed once, and the accounting is right. -/
def State.accounted (s : State) : Prop := Table.rising s.ctxs ∧ s.liveBuffers = s.buffersHeld

/-- Ids are handed out in order and within the capacity (10_state.md R52, 45_registry.md R331). -/
def State.idsOk (s : State) : Prop :=
  s.nextId ≤ s.cfg.nInst ∧ ∀ n c, s.ctx? n = some c → n < s.nextId

/-- Every buffer lies inside the 32-bit space, apart from the descriptor area and apart from every other buffer of any context
(20_memory.md R91, 40_ring.md R201). -/
def State.buffersApart (s : State) : Prop :=
  ∀ n (c : Ctx) (k : Nat) (d : Desc), s.ctx? n = some c → c.desc[k]? = some d →
    d.addr.toNat + s.cfg.bufSize ≤ 2 ^ 32
      ∧ apart d.addr.toNat s.cfg.bufSize s.cfg.descBase (8 * s.cfg.slots) = true
      ∧ ∀ m (e : Ctx) (j : Nat) (x : Desc), s.ctx? m = some e → e.desc[j]? = some x → (m = n → j ≠ k) →
        apart d.addr.toNat s.cfg.bufSize x.addr.toNat s.cfg.bufSize = true

/-! Who takes the step, for claims about one operation. -/

/-- Thread `t` of `THREADS`, in no call. -/
def State.idleThread (s : State) (t : Nat) : Prop :=
  s.cur.agent = .thread t ∧ t ∈ s.cfg.threads ∧ (s.thr t).phase = .idle

/-- The Host with nothing in progress. -/
def State.idleHost (s : State) : Prop := s.cur.agent = .host ∧ s.hostOp = .idle

/-- An agent of one of the two execution contexts that is in the middle of no operation of its own. -/
def State.freeSoftware (s : State) : Prop := (∃ t, s.idleThread t) ∨ s.idleHost ∨ s.cur.agent = .dispatcher

/-- Any agent that is in the middle of no operation of its own. -/
def State.freeAgent (s : State) : Prop :=
  s.freeSoftware ∨ s.cur.agent = .dmaRx ∨ s.cur.agent = .dmaTx ∨ s.cur.agent = .env

/-- Operation `i` is the blocking call `(k, n, d)` with the operand `len`. -/
def isCall (i : Instr) (k : CallKind) (n : Nat) (d : Dir) (len : Nat) : Prop :=
  (k = .wait ∧ len = 0 ∧ i = .wait n d) ∨ (k = .read ∧ d = .rx ∧ i = .read n len)
    ∨ (k = .write ∧ d = .tx ∧ i = .write n len)

/-- Thread `t` takes a step inside the call `(k, n, d)` with the operand `len`, at sub-phase `ph`. -/
def State.insideAt (s : State) (t : Nat) (k : CallKind) (n : Nat) (d : Dir) (len : Nat) (ph : SubPhase) : Prop :=
  s.cur.agent = .thread t ∧ t ∈ s.cfg.threads ∧ (s.thr t).phase = .inCall k n d ph ∧ (s.thr t).callLen = len

/-! What an operation changes and what it leaves. -/

/-- The parameters, the ids, the fault record, the accounting, the Host's progress and the schedule are unchanged. -/
def State.sameCore (s t : State) : Prop :=
  t.cfg = s.cfg ∧ t.nextId = s.nextId ∧ t.fault = s.fault ∧ t.liveBuffers = s.liveBuffers ∧ t.hostOp = s.hostOp
    ∧ t.sched = s.sched ∧ t.cur = s.cur

/-- The serial line is unchanged. -/
def State.sameLine (s t : State) : Prop := t.lineOut = s.lineOut ∧ t.linePending = s.linePending

/-- Every byte of memory is unchanged. -/
def State.sameMem (s t : State) : Prop := ∀ a, t.mem.read a = s.mem.read a

/-- Every byte of memory outside `a .. a + k - 1` is unchanged. -/
def State.sameMemBut (s t : State) (a k : Nat) : Prop := ∀ x, x < a ∨ a + k ≤ x → t.mem.read x = s.mem.read x

/-- Every context is unchanged. -/
def State.sameCtxs (s t : State) : Prop := ∀ m, t.ctx? m = s.ctx? m

/-- Context `n` is now `c`, every other context is unchanged. -/
def State.nowCtx (s t : State) (n : Nat) (c : Ctx) : Prop := t.ctx? n = some c ∧ ∀ m, m ≠ n → t.ctx? m = s.ctx? m

/-- Every thread is unchanged. -/
def State.sameThreads (s t : State) : Prop := ∀ u, t.thr u = s.thr u

/-- Thread `u` is now `th`, every other thread is unchanged. -/
def State.nowThread (s t : State) (u : Nat) (th : Thread) : Prop := t.thr u = th ∧ ∀ v, v ≠ u → t.thr v = s.thr v

/-- The result `(code, v)` is delivered to the agent taking the step, into `ret` when that is a thread, and no thread changes
otherwise. -/
def State.returns (s t : State) (code : Code) (v : Value) : Prop :=
  t.out = .result ⟨code, v⟩
    ∧ ∀ u, t.thr u = if s.cur.agent = .thread u then { s.thr u with ret := ⟨code, v⟩ } else s.thr u

/-- The step returns `(code, v)` and changes nothing else. -/
def State.onlyReturns (s t : State) (code : Code) (v : Value) : Prop :=
  s.returns t code v ∧ s.sameCore t ∧ s.sameLine t ∧ s.sameMem t ∧ s.sameCtxs t

/-- The step makes context `n` into `c` and changes nothing else, the delivery and threads apart. -/
def State.onlyCtx (s t : State) (n : Nat) (c : Ctx) : Prop :=
  s.nowCtx t n c ∧ s.sameCore t ∧ s.sameLine t ∧ s.sameMem t

/-- The step recorded this fault and changed nothing else. -/
def State.faults (s t : State) (reason : Reason) (addr : Nat) : Prop :=
  t = { s with fault := some ⟨reason, s.cur.agent, s.cur.word, addr⟩, out := .raised reason }

/-- The operation has no enabled step: nothing changes. -/
def State.waits (s t : State) : Prop := t = { s with out := .held }

/-- Buffers the allocator may hand to context `n` (40_ring.md R201): one per slot, inside the 32-bit space, apart from the
descriptor area, from one another and from the buffers of other contexts. -/
def State.legalBuffers (s : State) (n : Nat) (addrs : List Addr) : Prop :=
  addrs.length = s.cfg.rxCap + s.cfg.txCap
    ∧ addrs.Pairwise (fun a b => apart a.toNat s.cfg.bufSize b.toNat s.cfg.bufSize = true)
    ∧ ∀ a, a ∈ addrs →
        a.toNat + s.cfg.bufSize ≤ 2 ^ 32
          ∧ apart a.toNat s.cfg.bufSize s.cfg.descBase (8 * (s.cfg.rxCap + s.cfg.txCap)) = true
          ∧ ∀ m (c : Ctx) (k : Nat) (d : Desc), m ≠ n → s.ctx? m = some c → c.desc[k]? = some d →
              apart a.toNat s.cfg.bufSize d.addr.toNat s.cfg.bufSize = true

/-- The descriptors of a freshly laid-out ring over these buffers (10_state.md R60, 40_ring.md R201). -/
def freshRing (cfg : Config) (addrs : List Addr) (desc : List Desc) : Prop :=
  desc.length = cfg.rxCap + cfg.txCap
    ∧ (∀ i a, i < cfg.rxCap → addrs[i]? = some a →
        desc[i]? = some ⟨csO ||| (if cfg.rxInitIrq then csI else 0) ||| (if i = cfg.rxCap - 1 then csW else 0), 0, a⟩)
    ∧ ∀ j a, j < cfg.txCap → addrs[cfg.rxCap + j]? = some a →
        desc[cfg.rxCap + j]? = some ⟨if j = cfg.txCap - 1 then csW else 0, 0, a⟩

/-- The buffers hold the drawn bytes, a byte that is not drawn and every byte outside the buffers is as it was. -/
def State.buffersDrawn (s t : State) (addrs : List Addr) : Prop :=
  (∀ (k j : Nat) (a : Addr), addrs[k]? = some a → j < s.cfg.bufSize →
      t.mem.read (a.toNat + j)
        = ((s.cur.draws.fill[k]?).bind (fun (bs : List Byte) => bs[j]?)).getD (s.mem.read (a.toNat + j)))
    ∧ ∀ x, (∀ a, a ∈ addrs → x < a.toNat ∨ a.toNat + s.cfg.bufSize ≤ x) → t.mem.read x = s.mem.read x

/-- The ring of context `n`, which was `c`, is laid out over these buffers (40_ring.md R201): nothing of the context changes
but `life`, the descriptors, the cursors, the gates and the fault counters. -/
def State.laidRing (s t : State) (n : Nat) (c : Ctx) (addrs : List Addr) : Prop :=
  (∃ desc, freshRing s.cfg addrs desc
      ∧ s.nowCtx t n { c with life := .initialized, desc := desc, cursor := ⟨0, 0⟩, gate := ⟨[], []⟩, rxFaults := 0, txFaults := 0 })
    ∧ s.buffersDrawn t addrs ∧ t.liveBuffers = s.liveBuffers + (s.cfg.rxCap + s.cfg.txCap)
    ∧ t.cfg = s.cfg ∧ t.nextId = s.nextId ∧ t.fault = s.fault ∧ t.hostOp = s.hostOp ∧ s.sameLine t

/-- Some draw of the layout is a failure: the descriptor area, or one of the first `R + T` buffers (40_ring.md R201). -/
def State.layoutDrawFails (s : State) : Prop :=
  s.cur.draws.descArea = false
    ∨ ∃ k, k < s.cfg.rxCap + s.cfg.txCap ∧ (s.cur.draws.alloc[k]? = none ∨ s.cur.draws.alloc[k]? = some none)

end Sys2Proof.Machine
end

