-- ==== Sys2Proof/Certificates/Slice0/Obligations.lean ====
section
/-! DEFINITION. The statements for the provers: what the rules of spec/ say the operations and the whole machine do. Each docstring
names the rule it formalises. -/

open Sys2Proof
open Sys2Proof.Machine

/-! ## The step and the encoding -/

/-- 00_scope.md R14, R15: with no fault recorded, a step performs the decoded operation of the next entry of the schedule; an
empty schedule changes nothing. The schedule and the payload that an idle thread is handed with the entry of its TAKE_WR or
WRITE are the model's (notes/assumptions/1.md, 19.md). -/
def Obligations.StepRunsDecodedInstruction : Prop :=
  ∀ (s : State) (e : Entry) (rest : List Entry) (i : Instr),
    s.fault = none →
      (s.sched = [] → step s = .next s) ∧
      (s.sched = e :: rest → decode e.word = .ok i →
        step s = exec i (s.load e rest)
          ∧ (s.load e rest).cur = e ∧ (s.load e rest).sched = rest
          ∧ (s.load e rest).cfg = s.cfg ∧ (s.load e rest).nextId = s.nextId ∧ (s.load e rest).ctxs = s.ctxs
          ∧ (s.load e rest).fault = s.fault ∧ (s.load e rest).liveBuffers = s.liveBuffers
          ∧ (s.load e rest).lineOut = s.lineOut ∧ (s.load e rest).linePending = s.linePending
          ∧ (s.load e rest).hostOp = s.hostOp ∧ (s.load e rest).mem = s.mem ∧ (s.load e rest).out = s.out
          ∧ ∀ u, (s.load e rest).thr u
              = if takesPayload e.word = true ∧ e.agent = .thread u ∧ u ∈ s.cfg.threads ∧ (s.thr u).phase = .idle then
                  { s.thr u with src := e.draws.src.getD (s.thr u).src }
                else s.thr u)

/-- 30_encoding.md R135, R145: words written out from the table decode to their operations, and words outside it are refused. -/
def Obligations.SampleWordsDecode : Prop :=
  decode 0x31080100 = .ok (.write 0 256) ∧ decode 0x70010100 = .ok (.hwRxComplete 0 true 256)
    ∧ decode 0x01300000 = .ok (.ringInit 3) ∧ decode 0x0208000F = .ok (.descAt 0 .tx 15)
    ∧ decode 0x03080003 = .ok (.advance .tx 3) ∧ decode 0x4110FFFF = .ok (.evtAck 1 0xFFFF)
    ∧ decode 0x53F00000 = .ok (.openInst 15) ∧ decode 0x740800FF = .ok (.hwTxError 0 255)
    ∧ decode 0x00000000 = .error (.unassignedOpc 0) ∧ decode 0x31020100 = .error .fixedFields
    ∧ decode 0x310A0100 = .error .reservedBits

/-- 30_encoding.md R130, R131, R135: no operand bit is lost; every well-formed operation decodes back from its word. -/
def Obligations.DecodeEncodeRoundTrip : Prop :=
  ∀ i : Instr, i.wf = true → decode (encode i) = .ok i

/-- 30_encoding.md R130, R136: a word has at most one meaning, and that meaning has only this word. -/
def Obligations.EncodeDecodeExact : Prop :=
  ∀ (w : Word) (i : Instr), decode w = .ok i → i.wf = true ∧ encode i = w

/-- 30_encoding.md R136: decoding is total, a legal word satisfies exactly one row's mask and match, an illegal word none. -/
def Obligations.DecodeMatchesOneRow : Prop :=
  ∀ w : Word,
    (∀ i, decode w = .ok i → (opRows.filter (fun r => r.fits w)).map OpRow.mnemonic = [i.mnemonic])
      ∧ (∀ e, decode w = .error e → opRows.filter (fun r => r.fits w) = [])

/-- 30_encoding.md R141: an illegal word is never performed; the agent that would issue it faults, nothing else changes, a
payload that came with the entry included. -/
def Obligations.IllegalWordFaults : Prop :=
  ∀ (s : State) (e : Entry) (rest : List Entry) (x : DecodeError),
    s.fault = none → s.sched = e :: rest → decode e.word = .error x → { s with sched := rest, cur := e }.freeAgent →
      ∃ t, step s = .next t ∧ { s with sched := rest, cur := e }.faults t .illegalOperation 0

/-- 10_state.md R56, 60_exceptions.md R404: a recorded fault is never cleared, no agent has a step after it, and the state is
never final. -/
def Obligations.FaultIsSticky : Prop :=
  ∀ (s : State) (f : FaultRec), s.fault = some f →
    step s = .fault (.stopped f.reason) ∧ (∀ e, s.perform e = .fault (.stopped f.reason)) ∧ s.final = false

/-! ## Descriptor Ring -/

/-- 40_ring.md R205: ADVANCE, for any agent that is free to issue it. -/
def Obligations.AdvanceResult : Prop :=
  (∀ (d : Dir) (idx : Nat), idx < 65536 →
      (encode (.advance d idx)).toNat = 0x03000000 + dirBit d * 2 ^ 19 + idx)
    ∧ ∀ (s : State) (d : Dir) (idx : Nat), s.freeAgent →
      (s.cfg.cap d ≤ idx → ∃ t, exec (.advance d idx) s = .next t ∧ s.faults t .contractViolation 0)
      ∧ (idx < s.cfg.cap d →
          ∃ t, exec (.advance d idx) s = .next t
            ∧ s.onlyReturns t .ok (.num (if idx = s.cfg.cap d - 1 then 0 else idx + 1)))

/-- 40_ring.md R203: DESC_AT returns the record `D(dir, idx)` and changes nothing. -/
def Obligations.DescAtSnapshot : Prop :=
  (∀ (n idx : Nat) (d : Dir), n < 16 → idx < 65536 →
      (encode (.descAt n d idx)).toNat = 0x02000000 + n * 2 ^ 20 + dirBit d * 2 ^ 19 + idx)
    ∧ ∀ (s : State) (n idx : Nat) (d : Dir), s.freeSoftware →
      ((∀ c, s.ctx? n = some c → c.life ∉ [Life.initialized, .active, .stopped]) →
          ∃ t, exec (.descAt n d idx) s = .next t ∧ s.faults t .noSuchInstance 0)
      ∧ ∀ c, s.ctx? n = some c → c.life ∈ [Life.initialized, .active, .stopped] →
          (s.cfg.cap d ≤ idx → ∃ t, exec (.descAt n d idx) s = .next t ∧ s.faults t .contractViolation 0)
          ∧ ∀ x : Desc, s.cfg.wf = true → idx < s.cfg.cap d →
              c.desc[if d = .rx then idx else s.cfg.rxCap + idx]? = some x →
              (x.cs &&& 0x47FE = 0 → ∃ t, exec (.descAt n d idx) s = .next t ∧ s.onlyReturns t .ok (.desc x))
              ∧ (x.cs &&& 0x47FE ≠ 0 → ∃ t, exec (.descAt n d idx) s = .next t ∧ s.faults t .contractViolation 0)

/-- 40_ring.md R201, 10_state.md R60: a RING_INIT whose draws all succeed lays the ring out; a context that is absent or not
`Allocated` faults. That a buffer byte the entry's draw does not give keeps its old value is the model's choice
(notes/assumptions/14.md). -/
def Obligations.RingInitLaysOut : Prop :=
  ∀ (s : State) (n : Nat), s.idleHost →
    ((∀ c, s.ctx? n = some c → c.life ≠ .allocated) →
        ∃ t, exec (.ringInit n) s = .next t ∧ s.faults t .contractViolation 0)
    ∧ ∀ (c : Ctx) (addrs : List Addr), s.ctx? n = some c → c.life = .allocated → s.cfg.wf = true →
        Table.rising s.ctxs → s.cur.draws.descArea = true → s.cur.draws.alloc = addrs.map some →
        s.legalBuffers n addrs →
          ∃ t, exec (.ringInit n) s = .next t ∧ s.laidRing t n c addrs ∧ s.returns t .ok (.num 0)
            ∧ t.sched = s.sched ∧ t.cur = s.cur

/-- 40_ring.md R202: a failed RING_INIT leaves no trace and the context `Allocated`. -/
def Obligations.RingInitFailureLeavesNoTrace : Prop :=
  ∀ (s : State) (n : Nat) (c : Ctx), s.idleHost → s.ctx? n = some c → c.life = .allocated → s.layoutDrawFails →
    ∃ t, exec (.ringInit n) s = .next t ∧ s.onlyReturns t .allocationError (.num 0)

/-! ## Ownership Protocol -/

/-- 41_ownership.md R221: TAKE_WR by an idle thread, in the order of its checks, with everything it leaves alone. -/
def Obligations.TakeWrHandsSlotOver : Prop :=
  (∀ n m, n < 16 → m < 65536 → (encode (.takeWr n m)).toNat = 0x10080000 + n * 2 ^ 20 + m)
    ∧ (∀ (s : State) (n m : Nat), s.cur.agent = .dispatcher →
        ∃ t, exec (.takeWr n m) s = .next t
          ∧ s.faults t (if s.ctx? n = none then .noSuchInstance else .contextViolation) 0)
    ∧ ∀ (s : State) (u n maxLen : Nat), s.idleThread u →
      (s.ctx? n = none → ∃ t, exec (.takeWr n maxLen) s = .next t ∧ s.faults t .noSuchInstance 0)
      ∧ ∀ c, s.ctx? n = some c →
        (c.life ≠ .active → ∃ t, exec (.takeWr n maxLen) s = .next t ∧ s.faults t .contractViolation 0)
        ∧ ∀ d : Desc, c.life = .active → s.cfg.wf = true → c.cursor.tx < s.cfg.txCap →
          c.desc[s.cfg.rxCap + c.cursor.tx]? = some d → d.cs &&& 0x47FE = 0 →
          (d.hwOwned = true →
            ∃ t, exec (.takeWr n maxLen) s = .next t ∧ s.onlyReturns t .notReady (.num 0))
          ∧ ∀ k, d.hwOwned = false → d.addr.toNat + s.cfg.bufSize ≤ 2 ^ 32 →
            k = min (min (s.thr u).src.length maxLen) s.cfg.bufSize →
              ∃ t, exec (.takeWr n maxLen) s = .next t
                ∧ s.nowCtx t n
                    { c with
                      desc := c.desc.set (s.cfg.rxCap + c.cursor.tx)
                        ⟨csO ||| csL ||| csI ||| (d.cs &&& csW), BitVec.ofNat 16 k, d.addr⟩
                      cursor := ⟨c.cursor.rx, if c.cursor.tx = s.cfg.txCap - 1 then 0 else c.cursor.tx + 1⟩ }
                ∧ s.returns t .ok (.num k) ∧ s.sameCore t ∧ s.sameLine t
                ∧ (∀ j b, j < k → (s.thr u).src[j]? = some b → t.mem.read (d.addr.toNat + j) = b)
                ∧ s.sameMemBut t d.addr.toNat k

/-- 41_ownership.md R225: TAKE_RD by an idle thread; `dst` becomes exactly the copied bytes. -/
def Obligations.TakeRdDrainsSlot : Prop :=
  (∀ n m, n < 16 → m < 65536 → (encode (.takeRd n m)).toNat = 0x11000000 + n * 2 ^ 20 + m)
    ∧ (∀ (s : State) (n m : Nat), s.cur.agent = .dispatcher →
        ∃ t, exec (.takeRd n m) s = .next t
          ∧ s.faults t (if s.ctx? n = none then .noSuchInstance else .contextViolation) 0)
    ∧ ∀ (s : State) (u n maxLen : Nat), s.idleThread u →
      (s.ctx? n = none → ∃ t, exec (.takeRd n maxLen) s = .next t ∧ s.faults t .noSuchInstance 0)
      ∧ ∀ c, s.ctx? n = some c →
        (c.life ≠ .active → ∃ t, exec (.takeRd n maxLen) s = .next t ∧ s.faults t .contractViolation 0)
        ∧ ∀ d : Desc, c.life = .active → s.cfg.wf = true → c.cursor.rx < s.cfg.rxCap →
          c.desc[c.cursor.rx]? = some d → d.cs &&& 0x47FE = 0 →
          (d.hwOwned = true →
            ∃ t, exec (.takeRd n maxLen) s = .next t ∧ s.onlyReturns t .notReady (.num 0))
          ∧ ∀ k, d.hwOwned = false → d.addr.toNat + s.cfg.bufSize ≤ 2 ^ 32 → d.len.toNat ≤ s.cfg.bufSize →
            k = min d.len.toNat maxLen →
              ∃ t, exec (.takeRd n maxLen) s = .next t
                ∧ s.nowCtx t n
                    { c with
                      desc := c.desc.set c.cursor.rx ⟨csO ||| csI ||| (d.cs &&& csW), d.len, d.addr⟩
                      cursor := ⟨if c.cursor.rx = s.cfg.rxCap - 1 then 0 else c.cursor.rx + 1, c.cursor.tx⟩ }
                ∧ s.nowThread t u
                    { s.thr u with
                      dst := (List.range k).map (fun j => s.mem.read (d.addr.toNat + j))
                      ret := ⟨.ok, .num k⟩ }
                ∧ t.out = .result ⟨.ok, .num k⟩ ∧ s.sameCore t ∧ s.sameLine t ∧ s.sameMem t

/-- 41_ownership.md R223: whatever the state, a take that answers `NotReady` has written nothing but the issuer's `ret`. -/
def Obligations.NotReadyWritesNoState : Prop :=
  ∀ (s t : State) (n maxLen : Nat) (i : Instr), i = .takeWr n maxLen ∨ i = .takeRd n maxLen →
    exec i s = .next t → (∃ v, t.out = .result ⟨.notReady, v⟩) → s.onlyReturns t .notReady (.num 0)

/-- 41_ownership.md R222: a write of more than `BUF_SIZE` bytes enqueues exactly `BUF_SIZE` and records that length. -/
def Obligations.LongWriteIsTruncated : Prop :=
  ∀ (s : State) (u n maxLen : Nat) (c : Ctx) (d : Desc), s.idleThread u → s.cfg.wf = true → s.ctx? n = some c →
    c.life = .active → c.cursor.tx < s.cfg.txCap → c.desc[s.cfg.rxCap + c.cursor.tx]? = some d →
    d.cs &&& 0x47FE = 0 → d.hwOwned = false → d.addr.toNat + s.cfg.bufSize ≤ 2 ^ 32 →
    s.cfg.bufSize < (s.thr u).src.length → s.cfg.bufSize < maxLen →
      ∃ (t : State) (e : Ctx) (x : Desc), exec (.takeWr n maxLen) s = .next t
        ∧ t.out = .result ⟨.ok, .num s.cfg.bufSize⟩ ∧ t.ctx? n = some e
        ∧ e.desc[s.cfg.rxCap + c.cursor.tx]? = some x ∧ x.len.toNat = s.cfg.bufSize
        ∧ ∀ j b, j < s.cfg.bufSize → (s.thr u).src[j]? = some b → t.mem.read (d.addr.toNat + j) = b

/-- 40_ring.md R207, R205: after exactly `capacity` takes the cursor is back at 0, and not before. -/
def Obligations.CursorReturnsAfterCapacityTakes : Prop :=
  ∀ (cfg : Config) (d : Dir) (k : Nat), cfg.wf = true → k ≤ cfg.cap d →
    (nextCursor cfg d)^[k] 0 = if k = cfg.cap d then 0 else k

/-! ## DMA engines -/

/-- 42_dma_engine.md R242, R243, R241, R253: a receive completion with drawn data (R246) fills the slot at `hw[RX]`. -/
def Obligations.RxCompletionFillsSlot : Prop :=
  ∀ (s : State) (n count : Nat) (lf err : Bool) (c : Ctx) (d : Desc),
    s.cur.agent = .dmaRx → s.cfg.loopback = false → s.cur.draws.data.length = count → count ≤ s.cfg.bufSize →
    s.cfg.wf = true → s.ctx? n = some c → c.dmaEn.rx = true → c.hw.rx < s.cfg.rxCap → c.desc[c.hw.rx]? = some d →
    d.cs &&& 0x47FE = 0 → d.hwOwned = true → d.addr.toNat + s.cfg.bufSize ≤ 2 ^ 32 →
    (d.wrap = true ∨ c.hw.rx + 1 < s.cfg.rxCap) →
      ∃ t, exec (if err then .hwRxCompleteErr n lf count else .hwRxComplete n lf count) s = .next t
        ∧ s.nowCtx t n
            { c with
              desc := c.desc.set c.hw.rx
                ⟨(d.cs &&& (csW ||| csI)) ||| (if lf then csL else 0) ||| (if err then csE else 0),
                  BitVec.ofNat 16 count, d.addr⟩
              evt := if d.irq then c.evt ||| (if lf then evRxf else evRxb) else c.evt
              hw := ⟨if d.wrap then 0 else c.hw.rx + 1, c.hw.tx⟩ }
        ∧ (∀ j b, s.cur.draws.data[j]? = some b → t.mem.read (d.addr.toNat + j) = b)
        ∧ s.sameMemBut t d.addr.toNat count ∧ s.sameThreads t ∧ s.sameCore t ∧ s.sameLine t ∧ t.out = .moved

/-- 42_dma_engine.md R244, R241, R256: HW_RX_BUSY sets `BSY` while the slot at `hw[RX]` is FULL; under LOOPBACK it drops the
oldest bytes of the instance's line. The tag of the instance on each entry is notes/assumptions/12.md. -/
def Obligations.RxBusyDropsData : Prop :=
  (∀ n, n < 16 → (encode (.hwRxBusy n)).toNat = 0x72000000 + n * 2 ^ 20)
    ∧ ∀ (s : State) (n : Nat) (c : Ctx) (d : Desc), s.cur.agent = .dmaRx → s.cfg.wf = true → s.ctx? n = some c →
      c.dmaEn.rx = true → c.hw.rx < s.cfg.rxCap → c.desc[c.hw.rx]? = some d → d.cs &&& 0x47FE = 0 →
      d.hwOwned = false →
        (∀ before bs after, s.cfg.loopback = true → s.linePending = before ++ (n, bs) :: after →
          (∀ x, x ∈ before → x.1 ≠ n) →
            ∃ t, exec (.hwRxBusy n) s = .next t ∧ s.nowCtx t n { c with evt := c.evt ||| evBsy }
              ∧ s.sameCore t ∧ s.sameMem t ∧ s.sameThreads t ∧ t.lineOut = s.lineOut
              ∧ t.linePending = before ++ after ∧ t.out = .moved)
        ∧ (s.cfg.loopback = true → (∀ x, x ∈ s.linePending → x.1 ≠ n) →
            ∃ t, exec (.hwRxBusy n) s = .next t ∧ s.waits t)
        ∧ (s.cfg.loopback = false →
            ∃ t, exec (.hwRxBusy n) s = .next t ∧ s.onlyCtx t n { c with evt := c.evt ||| evBsy }
              ∧ s.sameThreads t ∧ t.out = .moved)

/-- 42_dma_engine.md R250, R241, R253, R256: HW_TX_COMPLETE sends the READY slot at `hw[TX]` and hands it back. That the bytes
queued under LOOPBACK carry the instance's id is the model's reading (notes/assumptions/12.md). -/
def Obligations.TxCompletionSendsSlot : Prop :=
  ∀ (s : State) (n : Nat) (c : Ctx) (d : Desc), s.cur.agent = .dmaTx → s.cfg.wf = true → s.ctx? n = some c →
    c.dmaEn.tx = true → c.hw.tx < s.cfg.txCap → c.desc[s.cfg.rxCap + c.hw.tx]? = some d → d.cs &&& 0x47FE = 0 →
    d.hwOwned = true → d.addr.toNat + s.cfg.bufSize ≤ 2 ^ 32 → d.len.toNat ≤ s.cfg.bufSize →
    (d.wrap = true ∨ c.hw.tx + 1 < s.cfg.txCap) →
      ∀ bytes, bytes = (List.range d.len.toNat).map (fun j => s.mem.read (d.addr.toNat + j)) →
      ∃ t, exec (.hwTxComplete n) s = .next t
        ∧ s.nowCtx t n
            { c with
              desc := c.desc.set (s.cfg.rxCap + c.hw.tx) ⟨d.cs &&& ~~~(csO ||| csE), d.len, d.addr⟩
              evt := if d.irq then c.evt ||| evTxb else c.evt
              hw := ⟨c.hw.rx, if d.wrap then 0 else c.hw.tx + 1⟩ }
        ∧ t.lineOut = s.lineOut ++ [TxRecord.mk n bytes false]
        ∧ t.linePending = (if s.cfg.loopback then s.linePending ++ [(n, bytes)] else s.linePending)
        ∧ s.sameMem t ∧ s.sameThreads t ∧ s.sameCore t ∧ t.out = .moved

/-- 42_dma_engine.md R251, R241, R253: HW_TX_ERROR fails the READY slot at `hw[TX]` after sending a part of it; nothing is queued
for reception. -/
def Obligations.TxFailureHandsSlotBack : Prop :=
  ∀ (s : State) (n sent : Nat) (c : Ctx) (d : Desc), s.cur.agent = .dmaTx → s.cfg.wf = true → s.ctx? n = some c →
    c.dmaEn.tx = true → c.hw.tx < s.cfg.txCap → c.desc[s.cfg.rxCap + c.hw.tx]? = some d → d.cs &&& 0x47FE = 0 →
    d.hwOwned = true → sent ≤ d.len.toNat → d.addr.toNat + s.cfg.bufSize ≤ 2 ^ 32 → d.len.toNat ≤ s.cfg.bufSize →
    (d.wrap = true ∨ c.hw.tx + 1 < s.cfg.txCap) →
      ∃ t, exec (.hwTxError n sent) s = .next t
        ∧ s.nowCtx t n
            { c with
              desc := c.desc.set (s.cfg.rxCap + c.hw.tx) ⟨(d.cs &&& ~~~csO) ||| csE, d.len, d.addr⟩
              evt := c.evt ||| evTxe
              hw := ⟨c.hw.rx, if d.wrap then 0 else c.hw.tx + 1⟩ }
        ∧ t.lineOut = s.lineOut
            ++ [TxRecord.mk n ((List.range sent).map (fun j => s.mem.read (d.addr.toNat + j))) true]
        ∧ t.linePending = s.linePending ∧ s.sameMem t ∧ s.sameThreads t ∧ s.sameCore t ∧ t.out = .moved

/-- 42_dma_engine.md R240, R242, R244, R245, R252: an engine step that is not enabled changes nothing. An absent context is no
such case (`AbsentInstanceFaults`). -/
def Obligations.DisabledEnginesHold : Prop :=
  ∀ (s : State) (n count : Nat) (lf : Bool),
    (s.cur.agent = .dmaRx → ∀ c, s.ctx? n = some c → c.dmaEn.rx = false →
      ∀ i, i ∈ [Instr.hwRxComplete n lf count, .hwRxCompleteErr n lf count, .hwRxBusy n] →
        ∃ t, exec i s = .next t ∧ s.waits t)
    ∧ (s.cur.agent = .dmaTx → ∀ c, s.ctx? n = some c → c.dmaEn.tx = false →
      ∀ i, i ∈ [Instr.hwTxComplete n, .hwTxError n count] → ∃ t, exec i s = .next t ∧ s.waits t)
    ∧ (s.cur.agent = .dmaRx → s.cfg.wf = true → ∀ (c : Ctx) (d : Desc), s.ctx? n = some c → c.hw.rx < s.cfg.rxCap →
      c.desc[c.hw.rx]? = some d → d.cs &&& 0x47FE = 0 → c.dmaEn.rx = true →
        (d.hwOwned = true → ∃ t, exec (.hwRxBusy n) s = .next t ∧ s.waits t)
        ∧ (d.hwOwned = false ∨ s.cfg.bufSize < count →
            ∀ i, i ∈ [Instr.hwRxComplete n lf count, .hwRxCompleteErr n lf count] →
              ∃ t, exec i s = .next t ∧ s.waits t))
    ∧ (s.cur.agent = .dmaTx → s.cfg.wf = true → ∀ (c : Ctx) (d : Desc), s.ctx? n = some c → c.hw.tx < s.cfg.txCap →
      c.desc[s.cfg.rxCap + c.hw.tx]? = some d → d.cs &&& 0x47FE = 0 → c.dmaEn.tx = true →
        (d.hwOwned = false → ∃ t, exec (.hwTxComplete n) s = .next t ∧ s.waits t)
        ∧ (d.hwOwned = false ∨ d.len.toNat < count → ∃ t, exec (.hwTxError n count) s = .next t ∧ s.waits t))

/-- 42_dma_engine.md R253: `next_hw` is 0 on WRAP, else the next index inside the sub-ring; a transmit step that would walk past
the end faults. -/
def Obligations.WalkPastEndFaults : Prop :=
  (∀ (cfg : Config) (d : Dir) (h : Nat) (cs : Half),
      nextHw cfg d h cs = if cs &&& csW ≠ 0 then some 0 else if h + 1 < cfg.cap d then some (h + 1) else none)
    ∧ ∀ (s : State) (n : Nat) (c : Ctx) (d : Desc), s.cur.agent = .dmaTx → s.cfg.wf = true → s.ctx? n = some c →
      c.dmaEn.tx = true → c.hw.tx + 1 = s.cfg.txCap → c.desc[s.cfg.rxCap + c.hw.tx]? = some d →
      d.cs &&& 0x47FE = 0 → d.hwOwned = true → d.addr.toNat + s.cfg.bufSize ≤ 2 ^ 32 →
      d.len.toNat ≤ s.cfg.bufSize → d.wrap = false →
        ∃ t, exec (.hwTxComplete n) s = .next t
          ∧ t.fault = some ⟨.contractViolation, s.cur.agent, s.cur.word, 0⟩

/-- 42_dma_engine.md R256: under LOOPBACK a receive completion takes the oldest bytes of the instance's own line, with `LF = 1`
and no error, and nothing else is enabled. The tag of the instance on each entry is notes/assumptions/12.md. -/
def Obligations.LoopbackFeedsReceiver : Prop :=
  ∀ (s : State) (n count : Nat) (lf err : Bool) (c : Ctx) (d : Desc),
    s.cur.agent = .dmaRx → s.cfg.loopback = true → s.cfg.wf = true → s.ctx? n = some c → c.dmaEn.rx = true →
    c.hw.rx < s.cfg.rxCap → c.desc[c.hw.rx]? = some d → d.cs &&& 0x47FE = 0 → d.hwOwned = true →
    d.addr.toNat + s.cfg.bufSize ≤ 2 ^ 32 → d.wrap = true ∨ c.hw.rx + 1 < s.cfg.rxCap → count ≤ s.cfg.bufSize →
      ((∀ x, x ∈ s.linePending → x.1 ≠ n) →
        ∃ t, exec (if err then .hwRxCompleteErr n lf count else .hwRxComplete n lf count) s = .next t ∧ s.waits t)
      ∧ ∀ before bs after, s.linePending = before ++ (n, bs) :: after → (∀ x, x ∈ before → x.1 ≠ n) →
        (err = true ∨ lf = false ∨ bs.length ≠ count →
          ∃ t, exec (if err then .hwRxCompleteErr n lf count else .hwRxComplete n lf count) s = .next t ∧ s.waits t)
        ∧ (bs.length = count →
            ∃ t, exec (.hwRxComplete n true count) s = .next t
              ∧ s.nowCtx t n
                  { c with
                    desc := c.desc.set c.hw.rx
                      ⟨(d.cs &&& (csW ||| csI)) ||| csL, BitVec.ofNat 16 count, d.addr⟩
                    evt := if d.irq then c.evt ||| evRxf else c.evt
                    hw := ⟨if d.wrap then 0 else c.hw.rx + 1, c.hw.tx⟩ }
              ∧ (∀ j b, bs[j]? = some b → t.mem.read (d.addr.toNat + j) = b)
              ∧ s.sameMemBut t d.addr.toNat count ∧ t.linePending = before ++ after ∧ t.lineOut = s.lineOut
              ∧ s.sameThreads t ∧ s.sameCore t ∧ t.out = .moved)

/-! ## Interrupt Event Dispatcher -/

/-- 43_dispatcher.md R271: EVT_READ returns the event register and changes nothing. -/
def Obligations.EvtReadHasNoSideEffect : Prop :=
  (∀ n, n < 16 → (encode (.evtRead n)).toNat = 0x40000000 + n * 2 ^ 20)
    ∧ ∀ (s : State) (n : Nat), s.freeSoftware → s.cfg.wf = true →
      ((∀ c, s.ctx? n = some c → c.life ∉ [Life.initialized, .active, .stopped]) →
          ∃ t, exec (.evtRead n) s = .next t ∧ s.faults t .noSuchInstance 0)
      ∧ ∀ c, s.ctx? n = some c → c.life ∈ [Life.initialized, .active, .stopped] →
          ∃ t, exec (.evtRead n) s = .next t ∧ s.onlyReturns t .ok (.num (c.evt.toNat % 32))

/-- 43_dispatcher.md R272, 20_memory.md R95: EVT_ACK clears exactly the bits of its mask. -/
def Obligations.EvtAckClearsExactlyMask : Prop :=
  (∀ n (m : Half), n < 16 → (encode (.evtAck n m)).toNat = 0x41000000 + n * 2 ^ 20 + m.toNat)
    ∧ ∀ (s : State) (n : Nat) (m : Half), s.freeSoftware → s.cfg.wf = true →
      ((∀ c, s.ctx? n = some c → c.life ∉ [Life.initialized, .active, .stopped]) →
          ∃ t, exec (.evtAck n m) s = .next t ∧ s.faults t .noSuchInstance 0)
      ∧ ∀ c, s.ctx? n = some c → c.life ∈ [Life.initialized, .active, .stopped] →
          ∃ (t : State) (e : Half), exec (.evtAck n m) s = .next t ∧ s.onlyCtx t n { c with evt := e }
            ∧ s.returns t .ok (.num 0)
            ∧ ∀ b, b < 16 → e.getLsbD b = (c.evt.getLsbD b && !m.getLsbD b)

/-- 43_dispatcher.md R273: IMASK_WRITE stores the five enable bits and drops the rest. -/
def Obligations.ImaskWriteKeepsFiveBits : Prop :=
  (∀ n (v : Half), n < 16 → (encode (.imaskWrite n v)).toNat = 0x42000000 + n * 2 ^ 20 + v.toNat)
    ∧ ∀ (s : State) (n : Nat) (v : Half), s.freeSoftware → s.cfg.wf = true →
      ((∀ c, s.ctx? n = some c → c.life ∉ [Life.initialized, .active, .stopped]) →
          ∃ t, exec (.imaskWrite n v) s = .next t ∧ s.faults t .noSuchInstance 0)
      ∧ ∀ c, s.ctx? n = some c → c.life ∈ [Life.initialized, .active, .stopped] →
          ∃ (t : State) (e : Half), exec (.imaskWrite n v) s = .next t ∧ s.onlyCtx t n { c with imask := e }
            ∧ s.returns t .ok (.num 0) ∧ ∀ b, b < 16 → e.getLsbD b = (v.getLsbD b && decide (b < 5))

/-- 43_dispatcher.md R277, R274, R275, 30_encoding.md R126: the phases of one invocation. The value 0 beside the reported code
is the model's (notes/assumptions/28.md); that the start holds on a context without a handler is its reading of R277, where
60_exceptions.md R404 could mean a fault (notes/assumptions/32.md). -/
def Obligations.IrqDispatchPhases : Prop :=
  (∀ n, n < 16 → (encode (.irqDispatch n)).toNat = 0x43000000 + n * 2 ^ 20)
    ∧ ∀ (s : State) (n : Nat), s.cur.agent = .dispatcher → s.cfg.wf = true →
      (s.ctx? n = none → ∃ t, exec (.irqDispatch n) s = .next t ∧ s.faults t .noSuchInstance 0)
      ∧ ∀ c, s.ctx? n = some c →
        (c.disp = .idle → c.handler = false → ∃ t, exec (.irqDispatch n) s = .next t ∧ s.waits t)
        ∧ (∀ h, (c.disp = .idle ∧ c.handler = true ∧ h = false) ∨ (c.disp = .reading ∧ h = c.handled) →
            (c.evt &&& evAll = 0 →
              ∃ t, exec (.irqDispatch n) s = .next t ∧ s.onlyCtx t n { c with disp := .idle, handled := h }
                ∧ s.returns t (if h then .handled else .notHandled) (.num 0))
            ∧ (c.evt &&& evAll ≠ 0 →
              ∃ t, exec (.irqDispatch n) s = .next t
                ∧ s.onlyCtx t n { c with disp := .acking (c.evt &&& evAll), handled := true }
                ∧ s.sameThreads t ∧ t.out = .moved))
        ∧ (∀ m, c.disp = .acking m →
            ∃ t, exec (.irqDispatch n) s = .next t
              ∧ s.onlyCtx t n { c with evt := c.evt &&& ~~~m, disp := .signalling m }
              ∧ s.sameThreads t ∧ t.out = .moved)
        ∧ (∀ m, c.disp = .signalling m →
            ∃ t, exec (.irqDispatch n) s = .next t
              ∧ s.onlyCtx t n
                  { c with
                    disp := .reading
                    rxFaults := if m &&& 0x0004 ≠ 0 then c.rxFaults + 1 else c.rxFaults
                    txFaults := if m &&& 0x0010 ≠ 0 then c.txFaults + 1 else c.txFaults
                    gate := ⟨if m &&& 0x000D ≠ 0 then [] else c.gate.rx, if m &&& 0x0012 ≠ 0 then [] else c.gate.tx⟩ }
              ∧ s.sameThreads t ∧ t.out = .moved)

/-- 43_dispatcher.md R270, R276, R282: whatever the state, a dispatcher step touches no descriptor, buffer, cursor or hardware
index, no mask, no lifecycle state and no thread. -/
def Obligations.DispatcherTouchesOnlyItsOwn : Prop :=
  ∀ (s t : State) (n : Nat), s.cur.agent = .dispatcher → exec (.irqDispatch n) s = .next t →
    t.mem = s.mem ∧ t.threads = s.threads ∧ s.sameLine t ∧ t.hostOp = s.hostOp ∧ t.liveBuffers = s.liveBuffers
      ∧ (∀ m, m ≠ n → t.ctx? m = s.ctx? m)
      ∧ ∀ e, t.ctx? n = some e → ∃ c, s.ctx? n = some c ∧ e.desc = c.desc ∧ e.cursor = c.cursor ∧ e.hw = c.hw
          ∧ e.dmaEn = c.dmaEn ∧ e.imask = c.imask ∧ e.life = c.life ∧ e.handler = c.handler
          ∧ ∀ b, b < 16 → e.evt.getLsbD b = true → c.evt.getLsbD b = true

/-- 60_exceptions.md R410: the line is asserted exactly while an enabled event bit is pending, and follows an acknowledge and a
write of the mask. -/
def Obligations.LineFollowsEventsAndMask : Prop :=
  ∀ (s : State) (n : Nat) (c : Ctx), s.ctx? n = some c →
    (s.line n = true ↔ c.handler = true ∧ ∃ b, b < 16 ∧ c.evt.getLsbD b = true ∧ c.imask.getLsbD b = true)
    ∧ (s.freeSoftware → s.cfg.wf = true → c.life ∈ [Life.initialized, .active, .stopped] → ∀ m : Half,
        (∃ t, exec (.evtAck n m) s = .next t
          ∧ (t.line n = true ↔ c.handler = true
              ∧ ∃ b, b < 16 ∧ c.evt.getLsbD b = true ∧ m.getLsbD b = false ∧ c.imask.getLsbD b = true))
        ∧ ∃ t, exec (.imaskWrite n m) s = .next t
          ∧ (t.line n = true ↔ c.handler = true ∧ ∃ b, b < 5 ∧ c.evt.getLsbD b = true ∧ m.getLsbD b = true))

/-! ## Blocking I/O Gate and the blocking calls -/

/-- 44_gate.md R292, R300, R301: `Entry`, from `Idle` or again inside a call. A WAIT whose predicate holds returns at once; a READ
or WRITE goes to `Take`; otherwise the thread goes to `Prep`. -/
def Obligations.CallEntryChecksPredicate : Prop :=
  ∀ (s : State) (i : Instr) (k : CallKind) (u n len : Nat) (d : Dir), isCall i k n d len →
    s.idleThread u ∨ s.insideAt u k n d len .entry →
      (s.ctx? n = none → ∃ t, exec i s = .next t ∧ s.faults t .noSuchInstance 0)
      ∧ ∀ c, s.ctx? n = some c →
        (c.life ≠ .active → ∃ t, exec i s = .next t ∧ s.faults t .contractViolation 0)
        ∧ ∀ x : Desc, c.life = .active → s.cfg.wf = true → c.cursor.get d < s.cfg.cap d →
          c.desc[(if d = .rx then 0 else s.cfg.rxCap) + c.cursor.get d]? = some x → x.cs &&& 0x47FE = 0 →
            ∃ t, exec i s = .next t ∧ s.sameCtxs t ∧ s.sameCore t ∧ s.sameLine t ∧ s.sameMem t
              ∧ (x.hwOwned = false → k = .wait →
                  t.out = .result ⟨.ok, .num 0⟩
                    ∧ s.nowThread t u { s.thr u with phase := .idle, callLen := 0, ret := ⟨.ok, .num 0⟩ })
              ∧ (x.hwOwned = false → k ≠ .wait →
                  t.out = .moved
                    ∧ s.nowThread t u { s.thr u with phase := .inCall k n d .take, callLen := len })
              ∧ (x.hwOwned = true →
                  t.out = .moved
                    ∧ s.nowThread t u { s.thr u with phase := .inCall k n d .prep, callLen := len })

/-- 44_gate.md R293, R300, R301: `Prep` enqueues, checks the predicate again and then the cancellation, in one step. -/
def Obligations.PrepEnqueuesAndRechecks : Prop :=
  ∀ (s : State) (i : Instr) (k : CallKind) (u n len : Nat) (d : Dir) (c : Ctx) (x : Desc), isCall i k n d len →
    s.insideAt u k n d len .prep → s.ctx? n = some c → s.cfg.wf = true → c.cursor.get d < s.cfg.cap d →
    c.desc[(if d = .rx then 0 else s.cfg.rxCap) + c.cursor.get d]? = some x → x.cs &&& 0x47FE = 0 →
      ∃ (t : State) (g : PerDir (List Nat)), exec i s = .next t ∧ s.onlyCtx t n { c with gate := g }
        ∧ (∀ e, e ≠ d → g.get e = c.gate.get e)
        ∧ (∀ v, v ≠ u → (v ∈ g.get d ↔ v ∈ c.gate.get d))
        ∧ (x.hwOwned = false →
            u ∉ g.get d
              ∧ (k = .wait → t.out = .result ⟨.ok, .num 0⟩
                  ∧ s.nowThread t u { s.thr u with phase := .idle, callLen := 0, ret := ⟨.ok, .num 0⟩ })
              ∧ (k ≠ .wait → t.out = .moved
                  ∧ s.nowThread t u { s.thr u with phase := .inCall k n d .take, callLen := len }))
        ∧ (x.hwOwned = true → (s.thr u).cancel = true →
            u ∉ g.get d ∧ t.out = .result ⟨.canceled, .num 0⟩
              ∧ s.nowThread t u
                  { s.thr u with phase := .idle, callLen := 0, cancel := false, ret := ⟨.canceled, .num 0⟩ })
        ∧ (x.hwOwned = true → (s.thr u).cancel = false →
            u ∈ g.get d ∧ t.out = .moved
              ∧ s.nowThread t u { s.thr u with phase := .inCall k n d .sleep, callLen := len })

/-- 44_gate.md R294, R295: a sleeper has no step while it is in the gate and no cancellation is pending; otherwise its next step
is to `Prep`. -/
def Obligations.SleepHoldsUntilWoken : Prop :=
  ∀ (s : State) (i : Instr) (k : CallKind) (u n len : Nat) (d : Dir) (c : Ctx), isCall i k n d len →
    s.insideAt u k n d len .sleep → s.ctx? n = some c →
      (u ∈ c.gate.get d → (s.thr u).cancel = false → ∃ t, exec i s = .next t ∧ s.waits t)
      ∧ (u ∉ c.gate.get d ∨ (s.thr u).cancel = true →
          ∃ t, exec i s = .next t ∧ s.nowThread t u { s.thr u with phase := .inCall k n d .prep, callLen := len }
            ∧ s.sameCtxs t ∧ s.sameCore t ∧ s.sameLine t ∧ s.sameMem t ∧ t.out = .moved)

/-- 44_gate.md R300, R301: `Take` of a READ or WRITE. A lost race goes back to `Entry` and changes nothing else; a READ that wins
returns the drained bytes, a WRITE that wins the count it enqueued. The bare take's word at this phase is that same step
(notes/assumptions/8.md). -/
def Obligations.TakePhaseTakesOrRetries : Prop :=
  ∀ (s : State) (u n len : Nat) (c : Ctx) (x : Desc), s.ctx? n = some c → c.life = .active → s.cfg.wf = true →
    x.cs &&& 0x47FE = 0 → x.addr.toNat + s.cfg.bufSize ≤ 2 ^ 32 → x.len.toNat ≤ s.cfg.bufSize →
      (∀ i, i = .read n len ∨ i = .takeRd n len → s.insideAt u .read n .rx len .take → c.cursor.rx < s.cfg.rxCap →
        c.desc[c.cursor.rx]? = some x →
          ∃ t, exec i s = .next t ∧ s.sameCore t ∧ s.sameLine t ∧ s.sameMem t
            ∧ (x.hwOwned = true → s.sameCtxs t ∧ t.out = .moved
                ∧ s.nowThread t u { s.thr u with phase := .inCall .read n .rx .entry, callLen := len })
            ∧ (x.hwOwned = false → ∀ r, r = min x.len.toNat len →
                t.out = .result ⟨.ok, .num r⟩
                  ∧ s.nowThread t u
                      { s.thr u with
                        phase := .idle, callLen := 0, ret := ⟨.ok, .num r⟩
                        dst := (List.range r).map (fun j => s.mem.read (x.addr.toNat + j)) }
                  ∧ s.nowCtx t n
                      { c with
                        desc := c.desc.set c.cursor.rx ⟨csO ||| csI ||| (x.cs &&& csW), x.len, x.addr⟩
                        cursor := ⟨if c.cursor.rx = s.cfg.rxCap - 1 then 0 else c.cursor.rx + 1, c.cursor.tx⟩ }))
      ∧ (∀ i, i = .write n len ∨ i = .takeWr n len → s.insideAt u .write n .tx len .take →
        c.cursor.tx < s.cfg.txCap → c.desc[s.cfg.rxCap + c.cursor.tx]? = some x →
          ∃ t, exec i s = .next t ∧ s.sameCore t ∧ s.sameLine t
            ∧ (x.hwOwned = true → s.sameCtxs t ∧ s.sameMem t ∧ t.out = .moved
                ∧ s.nowThread t u { s.thr u with phase := .inCall .write n .tx .entry, callLen := len })
            ∧ (x.hwOwned = false → ∀ r, r = min (min (s.thr u).src.length len) s.cfg.bufSize →
                t.out = .result ⟨.ok, .num r⟩
                  ∧ s.nowThread t u { s.thr u with phase := .idle, callLen := 0, ret := ⟨.ok, .num r⟩ }
                  ∧ (∀ j b, j < r → (s.thr u).src[j]? = some b → t.mem.read (x.addr.toNat + j) = b)
                  ∧ s.sameMemBut t x.addr.toNat r
                  ∧ s.nowCtx t n
                      { c with
                        desc := c.desc.set (s.cfg.rxCap + c.cursor.tx)
                          ⟨csO ||| csL ||| csI ||| (x.cs &&& csW), BitVec.ofNat 16 r, x.addr⟩
                        cursor := ⟨c.cursor.rx, if c.cursor.tx = s.cfg.txCap - 1 then 0 else c.cursor.tx + 1⟩ }))

/-- 44_gate.md R297: SIGNAL empties the waiter set of one direction. -/
def Obligations.SignalWakesOneDirection : Prop :=
  (∀ n d, n < 16 → (encode (.signal n d)).toNat = 0x21000000 + n * 2 ^ 20 + dirBit d * 2 ^ 19)
    ∧ ∀ (s : State) (n : Nat) (d : Dir), s.freeSoftware →
      ((∀ c, s.ctx? n = some c → c.life ∉ [Life.initialized, .active, .stopped]) →
          ∃ t, exec (.signal n d) s = .next t ∧ s.faults t .noSuchInstance 0)
      ∧ ∀ c, s.ctx? n = some c → c.life ∈ [Life.initialized, .active, .stopped] →
          ∃ (t : State) (g : PerDir (List Nat)), exec (.signal n d) s = .next t
            ∧ s.onlyCtx t n { c with gate := g } ∧ s.returns t .ok (.num 0)
            ∧ ∀ e, g.get e = if e = d then [] else c.gate.get e

/-- 44_gate.md R298: CANCEL sets the flag of one thread and changes no waiter set. -/
def Obligations.CancelSetsFlag : Prop :=
  (∀ u, u < 65536 → (encode (.cancel u)).toNat = 0x22000000 + u)
    ∧ ∀ (s : State) (u : Nat), s.cur.agent = .env →
      (u ∉ s.cfg.threads → ∃ t, exec (.cancel u) s = .next t ∧ s.faults t .contractViolation 0)
      ∧ (u ∈ s.cfg.threads →
          ∃ t, exec (.cancel u) s = .next t ∧ s.nowThread t u { s.thr u with cancel := true }
            ∧ s.sameCtxs t ∧ s.sameCore t ∧ s.sameLine t ∧ s.sameMem t ∧ t.out = .result ⟨.ok, .num 0⟩)

/-- 44_gate.md R299: SPURIOUS_WAKE removes one waiter, and is not enabled when the thread is not waiting. -/
def Obligations.SpuriousWakeRemovesOneWaiter : Prop :=
  (∀ n d u, n < 16 → u < 65536 →
      (encode (.spuriousWake n d u)).toNat = 0x23000000 + n * 2 ^ 20 + dirBit d * 2 ^ 19 + u)
    ∧ ∀ (s : State) (n u : Nat) (d : Dir) (c : Ctx), s.cur.agent = .env → s.ctx? n = some c →
      (u ∉ c.gate.get d → ∃ t, exec (.spuriousWake n d u) s = .next t ∧ s.waits t)
      ∧ (u ∈ c.gate.get d →
          ∃ (t : State) (g : PerDir (List Nat)), exec (.spuriousWake n d u) s = .next t
            ∧ s.onlyCtx t n { c with gate := g } ∧ s.sameThreads t ∧ t.out = .moved
            ∧ (∀ v, v ∈ g.get d ↔ v ∈ c.gate.get d ∧ v ≠ u) ∧ ∀ e, e ≠ d → g.get e = c.gate.get e)

/-- 44_gate.md R302, R293: whatever the state, a step of a call that is not at `Take` changes no descriptor, buffer, cursor or
index, only waiter sets; and a call that answers `Canceled` answers the count 0 at such a step and consumes the flag. -/
def Obligations.WaitingChangesNoRing : Prop :=
  ∀ (s t : State) (i : Instr) (k : CallKind) (n len : Nat) (d : Dir), isCall i k n d len → exec i s = .next t →
    ((s.thr s.me).phase ≠ .inCall k n d .take →
      s.sameMem t ∧ s.sameLine t ∧ t.liveBuffers = s.liveBuffers
        ∧ ∀ m, (t.ctx? m = none ↔ s.ctx? m = none)
            ∧ ∀ e, t.ctx? m = some e → ∃ (c : Ctx) (g : PerDir (List Nat)), s.ctx? m = some c ∧ e = { c with gate := g })
    ∧ ∀ v, t.out = .result ⟨.canceled, v⟩ →
        v = .num 0 ∧ (s.thr s.me).phase = .inCall k n d .prep ∧ (s.thr s.me).cancel = true
          ∧ (t.thr s.me).cancel = false

/-! ## Device Instance Registry and lifecycle -/

/-- 45_registry.md R332 step 1, R331, 60_exceptions.md R407: BRINGUP hands out the next id, or refuses when the registry is full. -/
def Obligations.BringupHandsOutNextId : Prop :=
  encode .bringup = 0x50000000
    ∧ ∀ s : State, s.idleHost →
      (s.nextId = s.cfg.nInst → ∃ t, exec .bringup s = .next t ∧ s.onlyReturns t .capacityExceeded (.num 0))
      ∧ (s.nextId ≠ s.cfg.nInst →
          ∃ t, exec .bringup s = .next t
            ∧ s.nowCtx t s.nextId
                { life := .allocated, desc := [], cursor := ⟨0, 0⟩, hw := ⟨0, 0⟩, dmaEn := ⟨false, false⟩,
                  evt := s.cur.draws.evt &&& 0x001F, imask := 0, handler := false, disp := .idle, handled := false,
                  gate := ⟨[], []⟩, rxFaults := 0, txFaults := 0 }
            ∧ t.nextId = s.nextId + 1 ∧ t.hostOp = .inBringup s.nextId ∧ t.liveBuffers = s.liveBuffers
            ∧ t.cfg = s.cfg ∧ t.fault = s.fault ∧ s.sameLine t ∧ s.sameMem t ∧ s.sameThreads t ∧ t.out = .moved)

/-- 45_registry.md R332 step 2, 40_ring.md R201, R202: the ring of the new context is laid out, or the bring-up ends with
`AllocationError`, the slot is empty and nothing else has changed. That a buffer byte the entry's draw does not give keeps its
old value is the model's choice (notes/assumptions/14.md). -/
def Obligations.BringupLaysOutRing : Prop :=
  ∀ (s : State) (id : Nat) (c : Ctx), s.cur.agent = .host → s.hostOp = .inBringup id → s.ctx? id = some c →
    c.life = .allocated →
      (∀ addrs, s.cfg.wf = true → Table.rising s.ctxs → s.cur.draws.descArea = true →
        s.cur.draws.alloc = addrs.map some → s.legalBuffers id addrs →
          ∃ t, exec .bringup s = .next t ∧ s.laidRing t id c addrs ∧ s.sameThreads t ∧ t.out = .moved)
      ∧ (s.layoutDrawFails →
          ∃ t, exec .bringup s = .next t ∧ t.ctx? id = none ∧ (∀ m, m ≠ id → t.ctx? m = s.ctx? m)
            ∧ t.hostOp = .idle ∧ t.liveBuffers = s.liveBuffers ∧ t.nextId = s.nextId ∧ t.cfg = s.cfg
            ∧ t.fault = s.fault ∧ s.sameLine t ∧ s.sameMem t ∧ s.returns t .allocationError (.num 0))

/-- 45_registry.md R332 step 3: the instance is activated, or the whole ring is released and the bring-up ends with
`BringupError`. -/
def Obligations.BringupActivates : Prop :=
  ∀ (s : State) (id : Nat) (c : Ctx), s.cur.agent = .host → s.hostOp = .inBringup id → s.ctx? id = some c →
    c.life = .initialized →
      (s.cur.draws.bringup = true →
        ∃ t, exec .bringup s = .next t
          ∧ s.nowCtx t id
              { c with
                life := .active, hw := ⟨0, 0⟩, dmaEn := ⟨true, true⟩, evt := s.cur.draws.evt &&& 0x001F
                imask := 0x001F, handler := true }
          ∧ t.hostOp = .idle ∧ t.liveBuffers = s.liveBuffers ∧ t.nextId = s.nextId ∧ t.cfg = s.cfg
          ∧ t.fault = s.fault ∧ s.sameLine t ∧ s.sameMem t ∧ s.returns t .ok (.num id))
      ∧ (s.cur.draws.bringup = false →
          ∃ t, exec .bringup s = .next t ∧ t.ctx? id = none ∧ (∀ m, m ≠ id → t.ctx? m = s.ctx? m)
            ∧ t.hostOp = .idle ∧ t.liveBuffers = s.liveBuffers - (s.cfg.rxCap + s.cfg.txCap)
            ∧ t.nextId = s.nextId ∧ t.cfg = s.cfg ∧ t.fault = s.fault ∧ s.sameLine t ∧ s.sameMem t
            ∧ s.returns t .bringupError (.num 0))

/-- 45_registry.md R334: LOOKUP answers the id of an `Active` instance and faults for every other id. -/
def Obligations.LookupRoutesActiveIds : Prop :=
  (∀ n, n < 16 → (encode (.lookup n)).toNat = 0x51000000 + n * 2 ^ 20)
    ∧ ∀ (s : State) (n : Nat), s.freeAgent →
      ((∀ c, s.ctx? n = some c → c.life ≠ .active) →
          ∃ t, exec (.lookup n) s = .next t ∧ s.faults t .noSuchInstance 0)
      ∧ ∀ c, s.ctx? n = some c → c.life = .active →
          ∃ t, exec (.lookup n) s = .next t ∧ s.onlyReturns t .ok (.num n)

/-- 45_registry.md R336 step 1: TEARDOWN stops interrupts and DMA; it holds while an invocation is in progress and faults on a
caller inside a call or an instance that is not `Active`. -/
def Obligations.TeardownStopsInterruptsFirst : Prop :=
  ∀ (s : State) (n : Nat), s.idleHost →
    ((∀ c, s.ctx? n = some c → c.life ≠ .active) →
        ∃ t, exec (.teardown n) s = .next t ∧ s.faults t .noSuchInstance 0)
    ∧ ∀ c, s.ctx? n = some c → c.life = .active →
      (c.disp ≠ .idle → ∃ t, exec (.teardown n) s = .next t ∧ s.waits t)
      ∧ (c.disp = .idle → (∃ u k d ph, u ∈ s.cfg.threads ∧ (s.thr u).phase = .inCall k n d ph) →
          ∃ t, exec (.teardown n) s = .next t ∧ s.faults t .contractViolation 0)
      ∧ (c.disp = .idle → (∀ u k d ph, u ∈ s.cfg.threads → (s.thr u).phase ≠ .inCall k n d ph) →
          ∃ t, exec (.teardown n) s = .next t
            ∧ s.nowCtx t n { c with life := .stopped, imask := 0, handler := false, dmaEn := ⟨false, false⟩ }
            ∧ t.hostOp = .inTeardown n (!s.cur.draws.stopOk) ∧ t.liveBuffers = s.liveBuffers ∧ t.nextId = s.nextId
            ∧ t.cfg = s.cfg ∧ t.fault = s.fault ∧ s.sameLine t ∧ s.sameMem t ∧ s.sameThreads t ∧ t.out = .moved)

/-- 45_registry.md R336 steps 2 and 3, 60_exceptions.md R408: the id stops routing, then the buffers are released, and an error of
either earlier step is reported without stopping them. -/
def Obligations.TeardownUnregistersThenReleases : Prop :=
  ∀ (s : State) (n : Nat) (err : Bool) (c : Ctx), s.cur.agent = .host → s.hostOp = .inTeardown n err →
    s.ctx? n = some c →
      (c.life = .stopped →
        ∃ t, exec (.teardown n) s = .next t ∧ s.nowCtx t n { c with life := .unregistered }
          ∧ t.hostOp = .inTeardown n (err || !s.cur.draws.unregisterOk) ∧ t.liveBuffers = s.liveBuffers
          ∧ t.nextId = s.nextId ∧ t.cfg = s.cfg ∧ t.fault = s.fault ∧ s.sameLine t ∧ s.sameMem t ∧ s.sameThreads t
          ∧ t.out = .moved)
      ∧ (c.life = .unregistered →
          ∃ t, exec (.teardown n) s = .next t ∧ t.ctx? n = none ∧ (∀ m, m ≠ n → t.ctx? m = s.ctx? m)
            ∧ t.hostOp = .idle ∧ t.liveBuffers = s.liveBuffers - (s.cfg.rxCap + s.cfg.txCap) ∧ t.nextId = s.nextId
            ∧ t.cfg = s.cfg ∧ t.fault = s.fault ∧ s.sameLine t ∧ s.sameMem t
            ∧ s.returns t (if err then .teardownError else .ok) (.num 0))

/-- 45_registry.md R338, 60_exceptions.md R414: OPEN binds the caller; its faults in their order. -/
def Obligations.OpenBindsCaller : Prop :=
  (∀ n, n < 16 → (encode (.openInst n)).toNat = 0x53000000 + n * 2 ^ 20)
    ∧ ∀ (s : State) (n : Nat),
      ((∃ u, s.idleThread u) ∨ s.cur.agent = .dispatcher → (∀ c, s.ctx? n = some c → c.life ≠ .active) →
          ∃ t, exec (.openInst n) s = .next t ∧ s.faults t .noSuchInstance 0)
      ∧ ∀ c, s.ctx? n = some c → c.life = .active →
          (s.cur.agent = .dispatcher → ∃ t, exec (.openInst n) s = .next t ∧ s.faults t .contextViolation 0)
          ∧ ∀ u, s.idleThread u →
              ∃ t, exec (.openInst n) s = .next t
                ∧ s.nowThread t u { s.thr u with bound := some n, ret := ⟨.ok, .num 0⟩ }
                ∧ t.out = .result ⟨.ok, .num 0⟩ ∧ s.sameCtxs t ∧ s.sameCore t ∧ s.sameLine t ∧ s.sameMem t

/-- 45_registry.md R339: CLOSE drops the caller's binding. -/
def Obligations.CloseDropsBinding : Prop :=
  encode .closeInst = 0x54000000
    ∧ ∀ s : State,
      (s.cur.agent = .dispatcher → ∃ t, exec .closeInst s = .next t ∧ s.faults t .contextViolation 0)
      ∧ ∀ u, s.idleThread u →
          ∃ t, exec .closeInst s = .next t ∧ s.nowThread t u { s.thr u with bound := none, ret := ⟨.ok, .num 0⟩ }
            ∧ t.out = .result ⟨.ok, .num 0⟩ ∧ s.sameCtxs t ∧ s.sameCore t ∧ s.sameLine t ∧ s.sameMem t

/-! ## The whole machine -/

/-- 60_exceptions.md R420, R414, 43_dispatcher.md R283, 70_reset_and_hazards.md R514: what the dispatcher may not issue faults
with `ContextViolation`, unless the instance is absent, and IRQ_DISPATCH in thread context does too. -/
def Obligations.WrongContextFaults : Prop :=
  (∀ (s : State) (n len : Nat) (d : Dir), s.cur.agent = .dispatcher →
      ∀ i, i ∈ [Instr.wait n d, .read n len, .write n len, .takeWr n len, .takeRd n len] →
        ∃ t, exec i s = .next t
          ∧ s.faults t (if s.ctx? n = none then .noSuchInstance else .contextViolation) 0)
    ∧ (∀ (s : State) (n : Nat), s.cur.agent = .dispatcher →
        ∀ i, i ∈ [Instr.bringup, .ringInit n, .closeInst] →
          ∃ t, exec i s = .next t ∧ s.faults t .contextViolation 0)
    ∧ (∀ (s : State) (n : Nat), s.cur.agent = .dispatcher → ∀ i, i ∈ [Instr.teardown n, .openInst n] →
        ((∀ c, s.ctx? n = some c → c.life ≠ .active) → ∃ t, exec i s = .next t ∧ s.faults t .noSuchInstance 0)
        ∧ ∀ c, s.ctx? n = some c → c.life = .active →
            ∃ t, exec i s = .next t ∧ s.faults t .contextViolation 0)
    ∧ ∀ (s : State) (n : Nat), (∃ u, s.idleThread u) ∨ s.idleHost →
        ∃ t, exec (.irqDispatch n) s = .next t
          ∧ s.faults t (if s.ctx? n = none then .noSuchInstance else .contextViolation) 0

/-- 30_encoding.md R133, 60_exceptions.md R404: every operation with an `INST` operand except RING_INIT faults with
`NoSuchInstance` when the id names no context, whichever agent issues it. That this goes for the engines' steps and
SPURIOUS_WAKE, whose own rules name no exception, is notes/assumptions/11.md. -/
def Obligations.AbsentInstanceFaults : Prop :=
  ∀ (s : State) (n len : Nat) (d : Dir) (lf : Bool) (m : Half), s.ctx? n = none →
    ((∃ u, s.idleThread u) ∨ s.cur.agent = .dispatcher →
      ∀ i, i ∈ [Instr.takeWr n len, .takeRd n len, .wait n d, .read n len, .write n len, .openInst n] →
        ∃ t, exec i s = .next t ∧ s.faults t .noSuchInstance 0)
    ∧ (s.idleHost ∨ s.cur.agent = .dispatcher → ∃ t, exec (.teardown n) s = .next t ∧ s.faults t .noSuchInstance 0)
    ∧ (s.freeSoftware →
      ∀ i, i ∈ [Instr.descAt n d len, .signal n d, .evtRead n, .evtAck n m, .imaskWrite n m, .irqDispatch n] →
        ∃ t, exec i s = .next t ∧ s.faults t .noSuchInstance 0)
    ∧ (s.freeAgent → ∃ t, exec (.lookup n) s = .next t ∧ s.faults t .noSuchInstance 0)
    ∧ (s.cur.agent = .dmaRx → ∀ i, i ∈ [Instr.hwRxComplete n lf len, .hwRxCompleteErr n lf len, .hwRxBusy n] →
        ∃ t, exec i s = .next t ∧ s.faults t .noSuchInstance 0)
    ∧ (s.cur.agent = .dmaTx → ∀ i, i ∈ [Instr.hwTxComplete n, .hwTxError n len] →
        ∃ t, exec i s = .next t ∧ s.faults t .noSuchInstance 0)
    ∧ (s.cur.agent = .env → ∃ t, exec (.spuriousWake n d len) s = .next t ∧ s.faults t .noSuchInstance 0)

/-- 60_exceptions.md R420, 30_encoding.md R135: an operation of another agent than the one the table names is no step at all, and a
thread outside `THREADS` has no step (notes/assumptions/9.md). -/
def Obligations.OtherAgentsHaveNoStep : Prop :=
  ∀ (s : State) (n len : Nat) (d : Dir) (lf : Bool) (m : Half),
    (s.cur.agent ≠ .env → ∀ i, i ∈ [Instr.cancel len, .spuriousWake n d len] → exec i s = .refused .noSuchStep)
    ∧ (s.cur.agent ≠ .dmaRx → ∀ i, i ∈ [Instr.hwRxComplete n lf len, .hwRxCompleteErr n lf len, .hwRxBusy n] →
        exec i s = .refused .noSuchStep)
    ∧ (s.cur.agent ≠ .dmaTx → ∀ i, i ∈ [Instr.hwTxComplete n, .hwTxError n len] → exec i s = .refused .noSuchStep)
    ∧ (s.cur.agent ≠ .host → s.cur.agent ≠ .dispatcher →
        ∀ i, i ∈ [Instr.bringup, .ringInit n, .teardown n] → exec i s = .refused .noSuchStep)
    ∧ ((∀ u, s.cur.agent ≠ .thread u) → s.cur.agent ≠ .dispatcher →
        ∀ i, i ∈ [Instr.wait n d, .read n len, .write n len, .takeWr n len, .takeRd n len, .openInst n, .closeInst] →
          exec i s = .refused .noSuchStep)
    ∧ (s.cur.agent = .env ∨ s.cur.agent = .dmaRx ∨ s.cur.agent = .dmaTx →
        ∀ i, i ∈ [Instr.signal n d, .descAt n d len, .evtRead n, .evtAck n m, .imaskWrite n m, .irqDispatch n] →
          exec i s = .refused .noSuchStep)
    ∧ ∀ u i, s.cur.agent = .thread u → u ∉ s.cfg.threads → exec i s = .refused .noSuchStep

/-- 45_registry.md R335, 44_gate.md R306, 43_dispatcher.md R281: an operation changes no context but the one its `INST` names;
BRINGUP only the next id and the one it is bringing up. -/
def Obligations.InstancesAreIsolated : Prop :=
  ∀ (s t : State) (i : Instr) (m : Nat), exec i s = .next t → i.namesInstance m = false →
    (i = .bringup → m ≠ s.nextId ∧ s.hostOp ≠ .inBringup m) → t.ctx? m = s.ctx? m

/-- 10_state.md R37, R38, R50, 40_ring.md R200: on a context that is past `Allocated`, `O` is set only by the takes, also inside
READ and WRITE, and cleared only by the engines' completions; no operation changes a buffer address or `W`. -/
def Obligations.OwnershipHasTwoWriters : Prop :=
  ∀ (s t : State) (i : Instr) (n k : Nat) (c e : Ctx) (d x : Desc), exec i s = .next t → s.ctx? n = some c →
    c.life ≠ .allocated → t.ctx? n = some e → c.desc[k]? = some d → e.desc[k]? = some x →
      x.addr = d.addr ∧ x.wrap = d.wrap
        ∧ (d.hwOwned = false → x.hwOwned = true →
            ∃ m len, i = .takeWr m len ∨ i = .takeRd m len ∨ i = .read m len ∨ i = .write m len)
        ∧ (d.hwOwned = true → x.hwOwned = false →
            ∃ m len lf, i = .hwRxComplete m lf len ∨ i = .hwRxCompleteErr m lf len ∨ i = .hwTxComplete m
              ∨ i = .hwTxError m len)

/-- 10_state.md R52, 45_registry.md R331: ids stay within the capacity, `next_id` never decreases, and the slot of an id that was
handed out and is empty stays empty; the parameters never change. -/
def Obligations.IdsAreNeverReused : Prop :=
  ∀ s t : State, s.idsOk → step s = .next t →
    t.idsOk ∧ s.nextId ≤ t.nextId ∧ (∀ n, n < s.nextId → s.ctx? n = none → t.ctx? n = none) ∧ t.cfg = s.cfg

/-- 45_registry.md R337, 70_reset_and_hazards.md R515: a context disappears, with its buffers, only while both its DMA enables and
its handler are off. -/
def Obligations.BuffersReleasedAfterDmaOff : Prop :=
  ∀ (s t : State) (n : Nat) (c : Ctx), s.ctxsOk → step s = .next t → s.ctx? n = some c → t.ctx? n = none →
    c.dmaEn.rx = false ∧ c.dmaEn.tx = false ∧ c.handler = false ∧ c.life ≠ .active

/-- Every step keeps memory in its canonical form (the model's, notes/assumptions/14.md). -/
def Obligations.MemoryStaysCanonical : Prop :=
  ∀ s t : State, s.mem.wf → step s = .next t → t.mem.wf

/-- 10_state.md R38, R44, R59, 30_encoding.md R122, R125, R127: every step keeps, of every context, that no reserved `cs` bit is
set, that WRAP is exactly on the two last slots, that no length exceeds `BUF_SIZE`, the indices in range, the registers free
of reserved bits, and handler and DMA enables on exactly while `Active`. That a
context not yet laid out has no descriptors and cursors 0 is the model's choice (notes/assumptions/16.md), and that bits 15:5 of
`EVT` are 0 before activation its reading (notes/assumptions/15.md). -/
def Obligations.ContextsStayWellFormed : Prop :=
  ∀ s t : State, s.cfg.wf = true → s.ctxsOk → step s = .next t → t.ctxsOk

/-- 10_state.md R58, 42_dma_engine.md R254: every step keeps the shape of every laid-out ring: software owns exactly the cyclic
run from the cursor up to the hardware index, and when they meet the sub-ring has one owner. -/
def Obligations.RingsKeepTheirShape : Prop :=
  ∀ s t : State, s.cfg.wf = true → s.ctxsOk → s.ringsShaped → step s = .next t → t.ringsShaped

/-- 10_state.md R55, 40_ring.md R202, 70_reset_and_hazards.md R504: every step keeps `live_buffers` at `R + T` for each context
that holds its buffers. -/
def Obligations.BufferAccountingIsExact : Prop :=
  ∀ s t : State, s.cfg.wf = true → s.idsOk → s.accounted → step s = .next t → t.accounted

/-- 20_memory.md R91, 40_ring.md R201: every step keeps all buffers inside the 32-bit space and pairwise apart, and apart from the
descriptor area. -/
def Obligations.BuffersStayApart : Prop :=
  ∀ s t : State, s.buffersApart → step s = .next t → t.buffersApart

/-- 44_gate.md R291, 10_state.md R58: on a ring of the right shape the wait predicate holds exactly when some slot of the sub-ring
is owned by software. -/
def Obligations.PredicateMeansSomeSlot : Prop :=
  ∀ (s : State) (c : Ctx) (d : Dir), s.cfg.wf = true → c.ringOk s.cfg → c.shaped s.cfg d →
    ∃ b, s.waitPred c d = .ok b ∧ (b = true ↔ ∃ k, k < s.cfg.cap d ∧ c.slotHw s.cfg d k = false)

/-- 70_reset_and_hazards.md R500, 10_state.md R60: the state at driver load, for every configuration; `reset` is driver load with
the test configuration (notes/assumptions/5.md). -/
def Obligations.DriverLoadState : Prop :=
  core.reset = State.driverLoad Config.c0
    ∧ ∀ cfg : Config, ∀ s : State, s = State.driverLoad cfg →
      s.cfg = cfg ∧ s.nextId = 0 ∧ (∀ n, s.ctx? n = none) ∧ s.fault = none ∧ s.liveBuffers = 0 ∧ s.lineOut = []
        ∧ s.linePending = [] ∧ s.hostOp = .idle
        ∧ ∀ u, (s.thr u).phase = .idle ∧ (s.thr u).cancel = false ∧ (s.thr u).bound = none

/-- The invariants of the tier 3 statements hold at driver load, of every configuration. -/
def Obligations.DriverLoadMeetsInvariants : Prop :=
  ∀ cfg : Config, ∀ s : State, s = State.driverLoad cfg →
    s.mem.wf ∧ s.ctxsOk ∧ s.ringsShaped ∧ s.idsOk ∧ s.accounted ∧ s.buffersApart
end

