-- ==== Sys2Proof/Laws/Flags.lean ====
section
/-! SUPPORT. Every flag computation of Machine/Flags.lean bit by bit: a flag is one bit of `cs`, and each computation says what
each flag becomes. -/

namespace Sys2Proof.Machine

/-- Some bit of a single-bit mask is set when that bit is. -/
theorem anyBit_twoPow (v : Half) (i : Nat) (h : i < 16) : anyBit v (BitVec.twoPow 16 i) = v.getLsbD i := by
  unfold anyBit
  rw [BitVec.and_twoPow]
  cases v.getLsbD i with
  | false => simp
  | true =>
    have : BitVec.twoPow 16 i ≠ 0#16 := by
      intro hz
      have := congrArg (fun x => x.getLsbD i) hz
      simp [h] at this
    simpa using this

theorem anyBit_csO (v : Half) : anyBit v csO = v.getLsbD 15 := anyBit_twoPow v 15 (by decide)
theorem anyBit_csW (v : Half) : anyBit v csW = v.getLsbD 13 := anyBit_twoPow v 13 (by decide)
theorem anyBit_csI (v : Half) : anyBit v csI = v.getLsbD 12 := anyBit_twoPow v 12 (by decide)
theorem anyBit_csL (v : Half) : anyBit v csL = v.getLsbD 11 := anyBit_twoPow v 11 (by decide)
theorem anyBit_csE (v : Half) : anyBit v csE = v.getLsbD 0 := anyBit_twoPow v 0 (by decide)

/-- No bit of a mask is set exactly when the masked value is 0. -/
theorem anyBit_eq_false {v m : Half} : anyBit v m = false ↔ v &&& m = 0 := by simp [anyBit]

/-- No reserved bit is set exactly when every set bit is a named one. -/
theorem reserved_clear_iff (v : Half) : anyBit v csRsv = false ↔ v &&& csRsv = 0 := anyBit_eq_false

/-- Bits of a value that a mask keeps. -/
theorem and_and_of_and (v a b : Half) (h : a &&& b = 0) : (v &&& a) &&& b = 0 := by
  rw [BitVec.and_assoc, h]; simp

theorem bitsIf_and (b : Bool) (a m : Half) (h : a &&& m = 0) : bitsIf b a &&& m = 0 := by
  cases b <;> simp [bitsIf, h]

theorem csTakeWr_reserved (cs : Half) : anyBit (csTakeWr cs) csRsv = false := by
  rw [anyBit_eq_false, csTakeWr, BitVec.and_or_distrib_right, and_and_of_and _ _ _ (by decide)]
  decide

theorem csTakeRd_reserved (cs : Half) : anyBit (csTakeRd cs) csRsv = false := by
  rw [anyBit_eq_false, csTakeRd, BitVec.and_or_distrib_right, and_and_of_and _ _ _ (by decide)]
  decide

theorem csRxDone_reserved (cs : Half) (lf err : Bool) : anyBit (csRxDone cs lf err) csRsv = false := by
  rw [anyBit_eq_false, csRxDone, BitVec.and_or_distrib_right, BitVec.and_or_distrib_right,
    and_and_of_and _ _ _ (by decide), bitsIf_and _ _ _ (by decide), bitsIf_and _ _ _ (by decide)]
  decide

theorem csTxDone_reserved (cs : Half) (h : anyBit cs csRsv = false) : anyBit (csTxDone cs) csRsv = false := by
  rw [anyBit_eq_false] at h ⊢
  rw [csTxDone, BitVec.and_assoc, BitVec.and_comm (~~~_), ← BitVec.and_assoc, h]; simp

theorem csTxFail_reserved (cs : Half) (h : anyBit cs csRsv = false) : anyBit (csTxFail cs) csRsv = false := by
  rw [anyBit_eq_false] at h ⊢
  rw [csTxFail, BitVec.and_or_distrib_right, BitVec.and_assoc, BitVec.and_comm (~~~_), ← BitVec.and_assoc, h]
  decide

theorem csInitRx_reserved (cfg : Config) (i : Nat) : anyBit (csInitRx cfg i) csRsv = false := by
  unfold csInitRx bitsIf
  cases cfg.rxInitIrq <;> cases (i + 1 == cfg.rxCap) <;> decide

theorem csInitTx_reserved (cfg : Config) (j : Nat) : anyBit (csInitTx cfg j) csRsv = false := by
  unfold csInitTx bitsIf
  cases (j + 1 == cfg.txCap) <;> decide

/-! The flags after each computation. -/

theorem csTakeWr_flags (cs : Half) :
    anyBit (csTakeWr cs) csO = true ∧ anyBit (csTakeWr cs) csL = true ∧ anyBit (csTakeWr cs) csI = true
      ∧ anyBit (csTakeWr cs) csE = false ∧ anyBit (csTakeWr cs) csW = anyBit cs csW := by
  simp only [anyBit_csO, anyBit_csL, anyBit_csI, anyBit_csE, anyBit_csW]
  simp [csTakeWr, csO, csL, csI, csW]

theorem csTakeRd_flags (cs : Half) :
    anyBit (csTakeRd cs) csO = true ∧ anyBit (csTakeRd cs) csL = false ∧ anyBit (csTakeRd cs) csI = true
      ∧ anyBit (csTakeRd cs) csE = false ∧ anyBit (csTakeRd cs) csW = anyBit cs csW := by
  simp only [anyBit_csO, anyBit_csL, anyBit_csI, anyBit_csE, anyBit_csW]
  simp [csTakeRd, csO, csI, csW]

theorem csRxDone_flags (cs : Half) (lf err : Bool) :
    anyBit (csRxDone cs lf err) csO = false ∧ anyBit (csRxDone cs lf err) csL = lf
      ∧ anyBit (csRxDone cs lf err) csI = anyBit cs csI ∧ anyBit (csRxDone cs lf err) csE = err
      ∧ anyBit (csRxDone cs lf err) csW = anyBit cs csW := by
  simp only [anyBit_csO, anyBit_csL, anyBit_csI, anyBit_csE, anyBit_csW]
  cases lf <;> cases err <;> simp [csRxDone, bitsIf, csL, csI, csW, csE]

theorem csTxDone_flags (cs : Half) :
    anyBit (csTxDone cs) csO = false ∧ anyBit (csTxDone cs) csL = anyBit cs csL
      ∧ anyBit (csTxDone cs) csI = anyBit cs csI ∧ anyBit (csTxDone cs) csE = false
      ∧ anyBit (csTxDone cs) csW = anyBit cs csW := by
  simp only [anyBit_csO, anyBit_csL, anyBit_csI, anyBit_csE, anyBit_csW]
  simp [csTxDone, csO, csE]

theorem csTxFail_flags (cs : Half) :
    anyBit (csTxFail cs) csO = false ∧ anyBit (csTxFail cs) csL = anyBit cs csL
      ∧ anyBit (csTxFail cs) csI = anyBit cs csI ∧ anyBit (csTxFail cs) csE = true
      ∧ anyBit (csTxFail cs) csW = anyBit cs csW := by
  simp only [anyBit_csO, anyBit_csL, anyBit_csI, anyBit_csE, anyBit_csW]
  simp [csTxFail, csO, csE]

theorem csInitRx_flags (cfg : Config) (i : Nat) :
    anyBit (csInitRx cfg i) csO = true ∧ anyBit (csInitRx cfg i) csI = cfg.rxInitIrq
      ∧ anyBit (csInitRx cfg i) csW = (i + 1 == cfg.rxCap) := by
  unfold csInitRx bitsIf
  cases cfg.rxInitIrq <;> cases (i + 1 == cfg.rxCap) <;> decide

theorem csInitTx_flags (cfg : Config) (j : Nat) :
    anyBit (csInitTx cfg j) csO = false ∧ anyBit (csInitTx cfg j) csW = (j + 1 == cfg.txCap) := by
  unfold csInitTx bitsIf
  cases (j + 1 == cfg.txCap) <;> decide

/-- An acknowledge clears exactly the bits of the mask. -/
theorem evAck_bit (evt m : Half) (i : Nat) (h : i < 16) :
    (evAck evt m).getLsbD i = (evt.getLsbD i && !m.getLsbD i) := by
  simp [evAck, h]

theorem evRaise_bit (evt m : Half) (i : Nat) : (evRaise evt m).getLsbD i = (evt.getLsbD i || m.getLsbD i) := by
  simp [evRaise]

/-- Raising event bits of the five classes sets no reserved bit. -/
theorem evRaise_reserved {evt m : Half} (he : evt &&& ~~~evAll = 0) (hm : m &&& ~~~evAll = 0) :
    evRaise evt m &&& ~~~evAll = 0 := by
  rw [evRaise, BitVec.and_or_distrib_right, he, hm]
  decide

theorem evAck_reserved {evt : Half} (m : Half) (he : evt &&& ~~~evAll = 0) : evAck evt m &&& ~~~evAll = 0 := by
  rw [evAck, BitVec.and_assoc, BitVec.and_comm (~~~m), ← BitVec.and_assoc, he]; simp

theorem evRxDone_reserved (irq lf : Bool) : evRxDone irq lf &&& ~~~evAll = 0 := by
  cases irq <;> cases lf <;> decide

theorem evTxDone_reserved (irq : Bool) : evTxDone irq &&& ~~~evAll = 0 := by cases irq <;> decide

end Sys2Proof.Machine
end

