-- ==== Sys2Proof/Laws/Table.lean ====
section
/-! SUPPORT. What the operations of Machine/Table.lean do: read after write, and the canonical form that every one of them
keeps. -/

namespace Sys2Proof

@[simp] theorem Table.lookup_nil {α : Type} (k : Nat) : Table.lookup ([] : Table α) k = none := rfl

@[simp] theorem Table.lookup_put_self {α : Type} (tb : Table α) (k : Nat) (v : α) :
    (tb.put k v).lookup k = some v := by
  induction tb with
  | nil => simp [Table.put, Table.lookup]
  | cons p r ih =>
    obtain ⟨j, w⟩ := p
    simp only [Table.put]
    split
    · simp [Table.lookup]
    · split
      · simp [Table.lookup]
      · simp [Table.lookup, *]

theorem Table.lookup_put_ne {α : Type} (tb : Table α) {j k : Nat} (v : α) (h : j ≠ k) :
    (tb.put k v).lookup j = tb.lookup j := by
  induction tb with
  | nil => simp [Table.put, Table.lookup, h.symm]
  | cons p r ih =>
    obtain ⟨i, w⟩ := p
    simp only [Table.put]
    split
    · simp [Table.lookup, h.symm]
    · split
      · next hi => subst hi; simp [Table.lookup, h.symm]
      · simp [Table.lookup, ih]

@[simp] theorem Table.lookup_erase_self {α : Type} (tb : Table α) (k : Nat) : (tb.erase k).lookup k = none := by
  induction tb with
  | nil => rfl
  | cons p r ih =>
    obtain ⟨j, w⟩ := p
    simp only [Table.erase]
    split
    · exact ih
    · simp [Table.lookup, *]

theorem Table.lookup_erase_ne {α : Type} (tb : Table α) {j k : Nat} (h : j ≠ k) :
    (tb.erase k).lookup j = tb.lookup j := by
  induction tb with
  | nil => rfl
  | cons p r ih =>
    obtain ⟨i, w⟩ := p
    simp only [Table.erase]
    split
    · next hi => subst hi; simp [Table.lookup, h.symm, ih]
    · simp [Table.lookup, ih]

/-- An entry of the table after `put` is the new one or an old one at another key. -/
theorem Table.mem_put {α : Type} {tb : Table α} {k : Nat} {v : α} {x : Nat × α} (h : x ∈ tb.put k v) :
    x = (k, v) ∨ x ∈ tb := by
  induction tb with
  | nil => simpa [Table.put] using h
  | cons p r ih =>
    obtain ⟨j, w⟩ := p
    simp only [Table.put] at h
    split at h
    · simpa using h
    · split at h
      · rcases List.mem_cons.mp h with h | h <;> simp [h]
      · rcases List.mem_cons.mp h with h | h
        · simp [h]
        · rcases ih h with h | h <;> simp [h]

theorem Table.mem_erase {α : Type} {tb : Table α} {k : Nat} {x : Nat × α} (h : x ∈ tb.erase k) : x ∈ tb := by
  induction tb with
  | nil => exact h
  | cons p r ih =>
    obtain ⟨j, w⟩ := p
    simp only [Table.erase] at h
    split at h
    · exact List.mem_cons_of_mem _ (ih h)
    · rcases List.mem_cons.mp h with h | h
      · simp [h]
      · exact List.mem_cons_of_mem _ (ih h)

theorem Table.rising_put {α : Type} {tb : Table α} (k : Nat) (v : α) (h : tb.rising) : (tb.put k v).rising := by
  induction tb with
  | nil => simp [Table.rising, Table.put]
  | cons p r ih =>
    obtain ⟨j, w⟩ := p
    have hr := List.pairwise_cons.mp h
    simp only [Table.put]
    split
    · next hk =>
      refine List.pairwise_cons.mpr ⟨fun y hy => ?_, h⟩
      rcases List.mem_cons.mp hy with hy | hy
      · simpa [hy] using hk
      · have := hr.1 y hy
        simp only at this ⊢
        omega
    · split
      · next hj => subst hj; exact List.pairwise_cons.mpr ⟨fun y hy => hr.1 y hy, hr.2⟩
      · next hk hj =>
        refine List.pairwise_cons.mpr ⟨fun y hy => ?_, ih hr.2⟩
        rcases Table.mem_put hy with hy | hy
        · simp only [hy]; omega
        · exact hr.1 y hy

theorem Table.rising_erase {α : Type} {tb : Table α} (k : Nat) (h : tb.rising) : (tb.erase k).rising := by
  induction tb with
  | nil => exact h
  | cons p r ih =>
    obtain ⟨j, w⟩ := p
    have hr := List.pairwise_cons.mp h
    simp only [Table.erase]
    split
    · exact ih hr.2
    · exact List.pairwise_cons.mpr ⟨fun y hy => hr.1 y (Table.mem_erase hy), ih hr.2⟩

/-- A listed entry of a rising table is what `lookup` finds. -/
theorem Table.lookup_of_mem {α : Type} {tb : Table α} {k : Nat} {v : α} (h : tb.rising) (hm : (k, v) ∈ tb) :
    tb.lookup k = some v := by
  induction tb with
  | nil => cases hm
  | cons p r ih =>
    obtain ⟨j, w⟩ := p
    have hr := List.pairwise_cons.mp h
    rcases List.mem_cons.mp hm with hm | hm
    · cases hm; simp [Table.lookup]
    · have hlt := hr.1 _ hm
      simp only at hlt
      simp [Table.lookup, Nat.ne_of_lt hlt, ih hr.2 hm]

theorem Table.mem_of_lookup {α : Type} {tb : Table α} {k : Nat} {v : α} (h : tb.lookup k = some v) : (k, v) ∈ tb := by
  induction tb with
  | nil => cases h
  | cons p r ih =>
    obtain ⟨j, w⟩ := p
    simp only [Table.lookup] at h
    split at h
    · next hj => cases h; simp [hj]
    · exact List.mem_cons_of_mem _ (ih h)

@[simp] theorem Memory.read_nil (a : Nat) : Memory.read [] a = Memory.unlisted := rfl

@[simp] theorem Memory.read_write_self (m : Memory) (a : Nat) (b : Byte) : (m.write a b).read a = b := by
  unfold Memory.write
  split
  · next h => simp [Memory.read, h]
  · simp [Memory.read]

theorem Memory.read_write_ne (m : Memory) {a x : Nat} (b : Byte) (h : x ≠ a) : (m.write a b).read x = m.read x := by
  unfold Memory.write
  split
  · simp [Memory.read, Table.lookup_erase_ne m h]
  · simp [Memory.read, Table.lookup_put_ne m b h]

theorem Memory.wf_nil : Memory.wf [] := by simp [Memory.wf, Table.rising]

/-- A write keeps the canonical form. -/
theorem Memory.wf_write {m : Memory} (a : Nat) (b : Byte) (h : m.wf) : (m.write a b).wf := by
  unfold Memory.write
  split
  · exact ⟨Table.rising_erase a h.1, fun x hx => h.2 x (Table.mem_erase hx)⟩
  · next hb =>
    refine ⟨Table.rising_put a b h.1, fun x hx => ?_⟩
    rcases Table.mem_put hx with hx | hx
    · simpa [hx] using hb
    · exact h.2 x hx

theorem Memory.wf_writeBytes {m : Memory} (a : Nat) (bs : List Byte) (h : m.wf) : (m.writeBytes a bs).wf := by
  induction bs generalizing m a with
  | nil => exact h
  | cons b bs ih => exact ih (a + 1) (Memory.wf_write a b h)

/-- Bytes outside the range written are as before. -/
theorem Memory.read_writeBytes_outside (m : Memory) (a : Nat) (bs : List Byte) {x : Nat}
    (h : x < a ∨ a + bs.length ≤ x) : (m.writeBytes a bs).read x = m.read x := by
  induction bs generalizing m a with
  | nil => rfl
  | cons b bs ih =>
    simp only [List.length_cons] at h
    rw [Memory.writeBytes, ih _ _ (by omega), Memory.read_write_ne _ _ (by omega)]

/-- Byte `j` of the bytes written is what is read at its place. -/
theorem Memory.read_writeBytes_inside (m : Memory) (a : Nat) (bs : List Byte) {j : Nat} (h : j < bs.length) :
    (m.writeBytes a bs).read (a + j) = bs[j] := by
  induction bs generalizing m a j with
  | nil => simp at h
  | cons b bs ih =>
    cases j with
    | zero =>
      rw [Memory.writeBytes, Memory.read_writeBytes_outside _ _ _ (by omega)]
      simp
    | succ j =>
      have := ih (m.write a b) (a + 1) (j := j) (by simpa using h)
      simpa [Memory.writeBytes, Nat.add_assoc, Nat.add_comm 1] using this

@[simp] theorem Memory.length_readBytes (m : Memory) (a n : Nat) : (m.readBytes a n).length = n := by
  induction n generalizing a with
  | zero => rfl
  | succ n ih => simp [Memory.readBytes, ih]

theorem Memory.getElem_readBytes (m : Memory) (a n : Nat) {j : Nat} (h : j < (m.readBytes a n).length) :
    (m.readBytes a n)[j] = m.read (a + j) := by
  induction n generalizing a j with
  | zero => simp [Memory.readBytes] at h
  | succ n ih =>
    cases j with
    | zero => simp [Memory.readBytes]
    | succ j =>
      simp only [Memory.readBytes, List.getElem_cons_succ]
      rw [ih]
      congr 1
      omega

/-- What was written is what is read back. -/
theorem Memory.readBytes_writeBytes (m : Memory) (a : Nat) (bs : List Byte) :
    (m.writeBytes a bs).readBytes a bs.length = bs := by
  refine List.ext_getElem (by simp) fun j h1 h2 => ?_
  rw [Memory.getElem_readBytes, Memory.read_writeBytes_inside _ _ _ h2]

theorem mem_setInsert (w : List Nat) (t x : Nat) : x ∈ setInsert w t ↔ x = t ∨ x ∈ w := by
  induction w with
  | nil => simp [setInsert]
  | cons y r ih =>
    simp only [setInsert]
    split
    · simp
    · split
      · next h => simp [h]
      · simp only [List.mem_cons, ih]; tauto

theorem mem_setErase (w : List Nat) (t x : Nat) : x ∈ setErase w t ↔ x ∈ w ∧ x ≠ t := by
  simp [setErase]

/-- Leaving right after joining is leaving. -/
theorem setErase_setInsert (w : List Nat) (t : Nat) : setErase (setInsert w t) t = setErase w t := by
  induction w with
  | nil => simp [setErase, setInsert]
  | cons y r ih =>
    simp only [setInsert]
    split
    · simp [setErase]
    · split
      · next h => simp [setErase, h]
      · simp only [setErase, List.filter_cons] at ih ⊢; rw [ih]

end Sys2Proof

namespace Sys2Proof.Machine

@[simp] theorem PerDir.get_rx {α : Type} (p : PerDir α) : p.get .rx = p.rx := rfl
@[simp] theorem PerDir.get_tx {α : Type} (p : PerDir α) : p.get .tx = p.tx := rfl
@[simp] theorem PerDir.set_rx {α : Type} (p : PerDir α) (v : α) : p.set .rx v = ⟨v, p.tx⟩ := rfl
@[simp] theorem PerDir.set_tx {α : Type} (p : PerDir α) (v : α) : p.set .tx v = ⟨p.rx, v⟩ := rfl

theorem PerDir.get_set_self {α : Type} (p : PerDir α) (d : Dir) (v : α) : (p.set d v).get d = v := by
  cases d <;> rfl

theorem PerDir.get_set_ne {α : Type} (p : PerDir α) {d e : Dir} (v : α) (h : e ≠ d) : (p.set d v).get e = p.get e := by
  cases d <;> cases e <;> first | rfl | exact absurd rfl h

end Sys2Proof.Machine
end

