-- ==== Sys2Proof/Laws/State.lean ====
section
/-! SUPPORT. One lemma per field per update of the state, and what the named parts of the state read after an update. -/

namespace Sys2Proof.Machine

/-! `State.setCtx` -/

@[simp] theorem State.setCtx_cfg (s : State) (n : Nat) (c : Ctx) : (s.setCtx n c).cfg = s.cfg := rfl
@[simp] theorem State.setCtx_nextId (s : State) (n : Nat) (c : Ctx) : (s.setCtx n c).nextId = s.nextId := rfl
@[simp] theorem State.setCtx_ctxs (s : State) (n : Nat) (c : Ctx) : (s.setCtx n c).ctxs = s.ctxs.put n c := rfl
@[simp] theorem State.setCtx_fault (s : State) (n : Nat) (c : Ctx) : (s.setCtx n c).fault = s.fault := rfl
@[simp] theorem State.setCtx_liveBuffers (s : State) (n : Nat) (c : Ctx) : (s.setCtx n c).liveBuffers = s.liveBuffers := rfl
@[simp] theorem State.setCtx_lineOut (s : State) (n : Nat) (c : Ctx) : (s.setCtx n c).lineOut = s.lineOut := rfl
@[simp] theorem State.setCtx_linePending (s : State) (n : Nat) (c : Ctx) : (s.setCtx n c).linePending = s.linePending := rfl
@[simp] theorem State.setCtx_threads (s : State) (n : Nat) (c : Ctx) : (s.setCtx n c).threads = s.threads := rfl
@[simp] theorem State.setCtx_hostOp (s : State) (n : Nat) (c : Ctx) : (s.setCtx n c).hostOp = s.hostOp := rfl
@[simp] theorem State.setCtx_mem (s : State) (n : Nat) (c : Ctx) : (s.setCtx n c).mem = s.mem := rfl
@[simp] theorem State.setCtx_sched (s : State) (n : Nat) (c : Ctx) : (s.setCtx n c).sched = s.sched := rfl
@[simp] theorem State.setCtx_cur (s : State) (n : Nat) (c : Ctx) : (s.setCtx n c).cur = s.cur := rfl
@[simp] theorem State.setCtx_out (s : State) (n : Nat) (c : Ctx) : (s.setCtx n c).out = s.out := rfl

/-! `State.dropCtx` -/

@[simp] theorem State.dropCtx_cfg (s : State) (n : Nat) : (s.dropCtx n).cfg = s.cfg := rfl
@[simp] theorem State.dropCtx_nextId (s : State) (n : Nat) : (s.dropCtx n).nextId = s.nextId := rfl
@[simp] theorem State.dropCtx_ctxs (s : State) (n : Nat) : (s.dropCtx n).ctxs = s.ctxs.erase n := rfl
@[simp] theorem State.dropCtx_fault (s : State) (n : Nat) : (s.dropCtx n).fault = s.fault := rfl
@[simp] theorem State.dropCtx_liveBuffers (s : State) (n : Nat) : (s.dropCtx n).liveBuffers = s.liveBuffers := rfl
@[simp] theorem State.dropCtx_lineOut (s : State) (n : Nat) : (s.dropCtx n).lineOut = s.lineOut := rfl
@[simp] theorem State.dropCtx_linePending (s : State) (n : Nat) : (s.dropCtx n).linePending = s.linePending := rfl
@[simp] theorem State.dropCtx_threads (s : State) (n : Nat) : (s.dropCtx n).threads = s.threads := rfl
@[simp] theorem State.dropCtx_hostOp (s : State) (n : Nat) : (s.dropCtx n).hostOp = s.hostOp := rfl
@[simp] theorem State.dropCtx_mem (s : State) (n : Nat) : (s.dropCtx n).mem = s.mem := rfl
@[simp] theorem State.dropCtx_sched (s : State) (n : Nat) : (s.dropCtx n).sched = s.sched := rfl
@[simp] theorem State.dropCtx_cur (s : State) (n : Nat) : (s.dropCtx n).cur = s.cur := rfl
@[simp] theorem State.dropCtx_out (s : State) (n : Nat) : (s.dropCtx n).out = s.out := rfl

/-! `State.setThr` -/

@[simp] theorem State.setThr_cfg (s : State) (t : Nat) (th : Thread) : (s.setThr t th).cfg = s.cfg := rfl
@[simp] theorem State.setThr_nextId (s : State) (t : Nat) (th : Thread) : (s.setThr t th).nextId = s.nextId := rfl
@[simp] theorem State.setThr_ctxs (s : State) (t : Nat) (th : Thread) : (s.setThr t th).ctxs = s.ctxs := rfl
@[simp] theorem State.setThr_fault (s : State) (t : Nat) (th : Thread) : (s.setThr t th).fault = s.fault := rfl
@[simp] theorem State.setThr_liveBuffers (s : State) (t : Nat) (th : Thread) : (s.setThr t th).liveBuffers = s.liveBuffers := rfl
@[simp] theorem State.setThr_lineOut (s : State) (t : Nat) (th : Thread) : (s.setThr t th).lineOut = s.lineOut := rfl
@[simp] theorem State.setThr_linePending (s : State) (t : Nat) (th : Thread) : (s.setThr t th).linePending = s.linePending := rfl
@[simp] theorem State.setThr_threads (s : State) (t : Nat) (th : Thread) : (s.setThr t th).threads = s.threads.put t th := rfl
@[simp] theorem State.setThr_hostOp (s : State) (t : Nat) (th : Thread) : (s.setThr t th).hostOp = s.hostOp := rfl
@[simp] theorem State.setThr_mem (s : State) (t : Nat) (th : Thread) : (s.setThr t th).mem = s.mem := rfl
@[simp] theorem State.setThr_sched (s : State) (t : Nat) (th : Thread) : (s.setThr t th).sched = s.sched := rfl
@[simp] theorem State.setThr_cur (s : State) (t : Nat) (th : Thread) : (s.setThr t th).cur = s.cur := rfl
@[simp] theorem State.setThr_out (s : State) (t : Nat) (th : Thread) : (s.setThr t th).out = s.out := rfl

/-! `State.say` -/

@[simp] theorem State.say_cfg (s : State) (d : Delivery) : (s.say d).cfg = s.cfg := rfl
@[simp] theorem State.say_nextId (s : State) (d : Delivery) : (s.say d).nextId = s.nextId := rfl
@[simp] theorem State.say_ctxs (s : State) (d : Delivery) : (s.say d).ctxs = s.ctxs := rfl
@[simp] theorem State.say_fault (s : State) (d : Delivery) : (s.say d).fault = s.fault := rfl
@[simp] theorem State.say_liveBuffers (s : State) (d : Delivery) : (s.say d).liveBuffers = s.liveBuffers := rfl
@[simp] theorem State.say_lineOut (s : State) (d : Delivery) : (s.say d).lineOut = s.lineOut := rfl
@[simp] theorem State.say_linePending (s : State) (d : Delivery) : (s.say d).linePending = s.linePending := rfl
@[simp] theorem State.say_threads (s : State) (d : Delivery) : (s.say d).threads = s.threads := rfl
@[simp] theorem State.say_hostOp (s : State) (d : Delivery) : (s.say d).hostOp = s.hostOp := rfl
@[simp] theorem State.say_mem (s : State) (d : Delivery) : (s.say d).mem = s.mem := rfl
@[simp] theorem State.say_sched (s : State) (d : Delivery) : (s.say d).sched = s.sched := rfl
@[simp] theorem State.say_cur (s : State) (d : Delivery) : (s.say d).cur = s.cur := rfl
@[simp] theorem State.say_out (s : State) (d : Delivery) : (s.say d).out = d := rfl

/-! `State.hold` -/

@[simp] theorem State.hold_cfg (s : State) : s.hold.cfg = s.cfg := rfl
@[simp] theorem State.hold_nextId (s : State) : s.hold.nextId = s.nextId := rfl
@[simp] theorem State.hold_ctxs (s : State) : s.hold.ctxs = s.ctxs := rfl
@[simp] theorem State.hold_fault (s : State) : s.hold.fault = s.fault := rfl
@[simp] theorem State.hold_liveBuffers (s : State) : s.hold.liveBuffers = s.liveBuffers := rfl
@[simp] theorem State.hold_lineOut (s : State) : s.hold.lineOut = s.lineOut := rfl
@[simp] theorem State.hold_linePending (s : State) : s.hold.linePending = s.linePending := rfl
@[simp] theorem State.hold_threads (s : State) : s.hold.threads = s.threads := rfl
@[simp] theorem State.hold_hostOp (s : State) : s.hold.hostOp = s.hostOp := rfl
@[simp] theorem State.hold_mem (s : State) : s.hold.mem = s.mem := rfl
@[simp] theorem State.hold_sched (s : State) : s.hold.sched = s.sched := rfl
@[simp] theorem State.hold_cur (s : State) : s.hold.cur = s.cur := rfl
@[simp] theorem State.hold_out (s : State) : s.hold.out = .held := rfl

/-! `State.moved` -/

@[simp] theorem State.moved_cfg (s : State) : s.moved.cfg = s.cfg := rfl
@[simp] theorem State.moved_nextId (s : State) : s.moved.nextId = s.nextId := rfl
@[simp] theorem State.moved_ctxs (s : State) : s.moved.ctxs = s.ctxs := rfl
@[simp] theorem State.moved_fault (s : State) : s.moved.fault = s.fault := rfl
@[simp] theorem State.moved_liveBuffers (s : State) : s.moved.liveBuffers = s.liveBuffers := rfl
@[simp] theorem State.moved_lineOut (s : State) : s.moved.lineOut = s.lineOut := rfl
@[simp] theorem State.moved_linePending (s : State) : s.moved.linePending = s.linePending := rfl
@[simp] theorem State.moved_threads (s : State) : s.moved.threads = s.threads := rfl
@[simp] theorem State.moved_hostOp (s : State) : s.moved.hostOp = s.hostOp := rfl
@[simp] theorem State.moved_mem (s : State) : s.moved.mem = s.mem := rfl
@[simp] theorem State.moved_sched (s : State) : s.moved.sched = s.sched := rfl
@[simp] theorem State.moved_cur (s : State) : s.moved.cur = s.cur := rfl
@[simp] theorem State.moved_out (s : State) : s.moved.out = .moved := rfl

/-! `State.raise` -/

@[simp] theorem State.raise_cfg (s : State) (tr : Trap) : (s.raise tr).cfg = s.cfg := rfl
@[simp] theorem State.raise_nextId (s : State) (tr : Trap) : (s.raise tr).nextId = s.nextId := rfl
@[simp] theorem State.raise_ctxs (s : State) (tr : Trap) : (s.raise tr).ctxs = s.ctxs := rfl
@[simp] theorem State.raise_fault (s : State) (tr : Trap) : (s.raise tr).fault = some ⟨tr.reason, s.cur.agent, s.cur.word, tr.addr⟩ := rfl
@[simp] theorem State.raise_liveBuffers (s : State) (tr : Trap) : (s.raise tr).liveBuffers = s.liveBuffers := rfl
@[simp] theorem State.raise_lineOut (s : State) (tr : Trap) : (s.raise tr).lineOut = s.lineOut := rfl
@[simp] theorem State.raise_linePending (s : State) (tr : Trap) : (s.raise tr).linePending = s.linePending := rfl
@[simp] theorem State.raise_threads (s : State) (tr : Trap) : (s.raise tr).threads = s.threads := rfl
@[simp] theorem State.raise_hostOp (s : State) (tr : Trap) : (s.raise tr).hostOp = s.hostOp := rfl
@[simp] theorem State.raise_mem (s : State) (tr : Trap) : (s.raise tr).mem = s.mem := rfl
@[simp] theorem State.raise_sched (s : State) (tr : Trap) : (s.raise tr).sched = s.sched := rfl
@[simp] theorem State.raise_cur (s : State) (tr : Trap) : (s.raise tr).cur = s.cur := rfl
@[simp] theorem State.raise_out (s : State) (tr : Trap) : (s.raise tr).out = .raised tr.reason := rfl

/-! `State.release` -/

@[simp] theorem State.release_cfg (s : State) (n : Nat) : (s.release n).cfg = s.cfg := rfl
@[simp] theorem State.release_nextId (s : State) (n : Nat) : (s.release n).nextId = s.nextId := rfl
@[simp] theorem State.release_ctxs (s : State) (n : Nat) : (s.release n).ctxs = s.ctxs.erase n := rfl
@[simp] theorem State.release_fault (s : State) (n : Nat) : (s.release n).fault = s.fault := rfl
@[simp] theorem State.release_liveBuffers (s : State) (n : Nat) : (s.release n).liveBuffers = s.liveBuffers - s.cfg.slots := rfl
@[simp] theorem State.release_lineOut (s : State) (n : Nat) : (s.release n).lineOut = s.lineOut := rfl
@[simp] theorem State.release_linePending (s : State) (n : Nat) : (s.release n).linePending = s.linePending := rfl
@[simp] theorem State.release_threads (s : State) (n : Nat) : (s.release n).threads = s.threads := rfl
@[simp] theorem State.release_hostOp (s : State) (n : Nat) : (s.release n).hostOp = s.hostOp := rfl
@[simp] theorem State.release_mem (s : State) (n : Nat) : (s.release n).mem = s.mem := rfl
@[simp] theorem State.release_sched (s : State) (n : Nat) : (s.release n).sched = s.sched := rfl
@[simp] theorem State.release_cur (s : State) (n : Nat) : (s.release n).cur = s.cur := rfl
@[simp] theorem State.release_out (s : State) (n : Nat) : (s.release n).out = s.out := rfl

/-! `State.finish` changes the issuing thread's `ret` and the delivery only. -/

@[simp] theorem State.finish_cfg (s : State) (k : Code) (v : Value) : (s.finish k v).cfg = s.cfg := by
  unfold State.finish; split <;> rfl

@[simp] theorem State.finish_nextId (s : State) (k : Code) (v : Value) : (s.finish k v).nextId = s.nextId := by
  unfold State.finish; split <;> rfl

@[simp] theorem State.finish_ctxs (s : State) (k : Code) (v : Value) : (s.finish k v).ctxs = s.ctxs := by
  unfold State.finish; split <;> rfl

@[simp] theorem State.finish_fault (s : State) (k : Code) (v : Value) : (s.finish k v).fault = s.fault := by
  unfold State.finish; split <;> rfl

@[simp] theorem State.finish_liveBuffers (s : State) (k : Code) (v : Value) : (s.finish k v).liveBuffers = s.liveBuffers := by
  unfold State.finish; split <;> rfl

@[simp] theorem State.finish_lineOut (s : State) (k : Code) (v : Value) : (s.finish k v).lineOut = s.lineOut := by
  unfold State.finish; split <;> rfl

@[simp] theorem State.finish_linePending (s : State) (k : Code) (v : Value) : (s.finish k v).linePending = s.linePending := by
  unfold State.finish; split <;> rfl

@[simp] theorem State.finish_hostOp (s : State) (k : Code) (v : Value) : (s.finish k v).hostOp = s.hostOp := by
  unfold State.finish; split <;> rfl

@[simp] theorem State.finish_mem (s : State) (k : Code) (v : Value) : (s.finish k v).mem = s.mem := by
  unfold State.finish; split <;> rfl

@[simp] theorem State.finish_sched (s : State) (k : Code) (v : Value) : (s.finish k v).sched = s.sched := by
  unfold State.finish; split <;> rfl

@[simp] theorem State.finish_cur (s : State) (k : Code) (v : Value) : (s.finish k v).cur = s.cur := by
  unfold State.finish; split <;> rfl

@[simp] theorem State.finish_out (s : State) (k : Code) (v : Value) : (s.finish k v).out = .result ⟨k, v⟩ := by
  unfold State.finish; split <;> rfl

theorem State.finish_of_thread (s : State) (k : Code) (v : Value) {t : Nat} (h : s.cur.agent = .thread t) :
    s.finish k v = (s.setThr t { s.thr t with ret := ⟨k, v⟩ }).say (.result ⟨k, v⟩) := by
  simp [State.finish, h]

theorem State.finish_of_not_thread (s : State) (k : Code) (v : Value) (h : ∀ t, s.cur.agent ≠ .thread t) :
    s.finish k v = s.say (.result ⟨k, v⟩) := by
  unfold State.finish
  split
  · next t ht => exact absurd ht (h t)
  · rfl

/-! `State.load` sets the entry, the rest of the schedule and at most one thread's payload. -/

@[simp] theorem State.load_cfg (s : State) (e : Entry) (rest : List Entry) : (s.load e rest).cfg = s.cfg := by
  unfold State.load State.supplySrc; split <;> (try split) <;> rfl

@[simp] theorem State.load_nextId (s : State) (e : Entry) (rest : List Entry) : (s.load e rest).nextId = s.nextId := by
  unfold State.load State.supplySrc; split <;> (try split) <;> rfl

@[simp] theorem State.load_ctxs (s : State) (e : Entry) (rest : List Entry) : (s.load e rest).ctxs = s.ctxs := by
  unfold State.load State.supplySrc; split <;> (try split) <;> rfl

@[simp] theorem State.load_fault (s : State) (e : Entry) (rest : List Entry) : (s.load e rest).fault = s.fault := by
  unfold State.load State.supplySrc; split <;> (try split) <;> rfl

@[simp] theorem State.load_liveBuffers (s : State) (e : Entry) (rest : List Entry) : (s.load e rest).liveBuffers = s.liveBuffers := by
  unfold State.load State.supplySrc; split <;> (try split) <;> rfl

@[simp] theorem State.load_lineOut (s : State) (e : Entry) (rest : List Entry) : (s.load e rest).lineOut = s.lineOut := by
  unfold State.load State.supplySrc; split <;> (try split) <;> rfl

@[simp] theorem State.load_linePending (s : State) (e : Entry) (rest : List Entry) : (s.load e rest).linePending = s.linePending := by
  unfold State.load State.supplySrc; split <;> (try split) <;> rfl

@[simp] theorem State.load_hostOp (s : State) (e : Entry) (rest : List Entry) : (s.load e rest).hostOp = s.hostOp := by
  unfold State.load State.supplySrc; split <;> (try split) <;> rfl

@[simp] theorem State.load_mem (s : State) (e : Entry) (rest : List Entry) : (s.load e rest).mem = s.mem := by
  unfold State.load State.supplySrc; split <;> (try split) <;> rfl

@[simp] theorem State.load_sched (s : State) (e : Entry) (rest : List Entry) : (s.load e rest).sched = rest := by
  unfold State.load State.supplySrc; split <;> (try split) <;> rfl

@[simp] theorem State.load_cur (s : State) (e : Entry) (rest : List Entry) : (s.load e rest).cur = e := by
  unfold State.load State.supplySrc; split <;> (try split) <;> rfl

@[simp] theorem State.load_out (s : State) (e : Entry) (rest : List Entry) : (s.load e rest).out = s.out := by
  unfold State.load State.supplySrc; split <;> (try split) <;> rfl

/-! Contexts and threads by name. -/

@[simp] theorem State.ctx?_setCtx_self (s : State) (n : Nat) (c : Ctx) : (s.setCtx n c).ctx? n = some c := by
  simp [State.ctx?]

theorem State.ctx?_setCtx_ne (s : State) {m n : Nat} (c : Ctx) (h : m ≠ n) : (s.setCtx n c).ctx? m = s.ctx? m := by
  simp [State.ctx?, Table.lookup_put_ne _ _ h]

@[simp] theorem State.ctx?_dropCtx_self (s : State) (n : Nat) : (s.dropCtx n).ctx? n = none := by
  simp [State.ctx?]

theorem State.ctx?_dropCtx_ne (s : State) {m n : Nat} (h : m ≠ n) : (s.dropCtx n).ctx? m = s.ctx? m := by
  simp [State.ctx?, Table.lookup_erase_ne _ h]

@[simp] theorem State.ctx?_setThr (s : State) (t : Nat) (th : Thread) (n : Nat) : (s.setThr t th).ctx? n = s.ctx? n := rfl
@[simp] theorem State.ctx?_say (s : State) (d : Delivery) (n : Nat) : (s.say d).ctx? n = s.ctx? n := rfl
@[simp] theorem State.ctx?_hold (s : State) (n : Nat) : s.hold.ctx? n = s.ctx? n := rfl
@[simp] theorem State.ctx?_moved (s : State) (n : Nat) : s.moved.ctx? n = s.ctx? n := rfl
@[simp] theorem State.ctx?_raise (s : State) (tr : Trap) (n : Nat) : (s.raise tr).ctx? n = s.ctx? n := rfl

@[simp] theorem State.ctx?_finish (s : State) (k : Code) (v : Value) (n : Nat) : (s.finish k v).ctx? n = s.ctx? n := by
  simp [State.ctx?]

@[simp] theorem State.ctx?_load (s : State) (e : Entry) (rest : List Entry) (n : Nat) :
    (s.load e rest).ctx? n = s.ctx? n := by
  simp [State.ctx?]

@[simp] theorem State.thr_setThr_self (s : State) (t : Nat) (th : Thread) : (s.setThr t th).thr t = th := by
  simp [State.thr]

theorem State.thr_setThr_ne (s : State) {t u : Nat} (th : Thread) (h : u ≠ t) : (s.setThr t th).thr u = s.thr u := by
  simp [State.thr, Table.lookup_put_ne _ _ h]

@[simp] theorem State.thr_setCtx (s : State) (n : Nat) (c : Ctx) (t : Nat) : (s.setCtx n c).thr t = s.thr t := rfl
@[simp] theorem State.thr_say (s : State) (d : Delivery) (t : Nat) : (s.say d).thr t = s.thr t := rfl
@[simp] theorem State.thr_hold (s : State) (t : Nat) : s.hold.thr t = s.thr t := rfl
@[simp] theorem State.thr_moved (s : State) (t : Nat) : s.moved.thr t = s.thr t := rfl
@[simp] theorem State.thr_raise (s : State) (tr : Trap) (t : Nat) : (s.raise tr).thr t = s.thr t := rfl
@[simp] theorem State.me_setCtx (s : State) (n : Nat) (c : Ctx) : (s.setCtx n c).me = s.me := rfl
@[simp] theorem State.me_setThr (s : State) (t : Nat) (th : Thread) : (s.setThr t th).me = s.me := rfl

/-- A result changes nothing of a thread but its `ret`. -/
theorem State.thr_finish (s : State) (k : Code) (v : Value) (t : Nat) :
    (s.finish k v).thr t = s.thr t ∨ (s.finish k v).thr t = { s.thr t with ret := ⟨k, v⟩ } := by
  unfold State.finish
  split
  · next u _ =>
    by_cases h : t = u
    · subst h; exact .inr (by simp)
    · exact .inl (by simp [State.thr_setThr_ne _ _ h])
  · exact .inl rfl

/-- The payload an idle thread is handed with the entry of its TAKE_WR or WRITE. -/
theorem State.thr_load (s : State) (e : Entry) (rest : List Entry) (u : Nat) :
    (s.load e rest).thr u
      = if takesPayload e.word = true ∧ e.agent = .thread u ∧ u ∈ s.cfg.threads ∧ (s.thr u).phase = .idle then
          { s.thr u with src := e.draws.src.getD (s.thr u).src }
        else s.thr u := by
  unfold State.load State.supplySrc
  have hth : ∀ t, ({ s with sched := rest, cur := e } : State).thr t = s.thr t := fun _ => rfl
  cases ha : e.agent with
  | thread t =>
    cases hs : e.draws.src with
    | none => simp [hth]
    | some bs =>
      simp only [hth]
      by_cases hc : takesPayload e.word = true ∧ t ∈ s.cfg.threads ∧ (s.thr t).phase = .idle
      · rw [if_pos (by simp [hc])]
        by_cases hu : u = t
        · subst hu; simp [hc]
        · rw [State.thr_setThr_ne _ _ hu, hth, if_neg (by simp; intro _ h; exact absurd h.symm hu)]
      · rw [if_neg (by simpa using hc), hth]
        by_cases hu : u = t
        · subst hu; rw [if_neg (by simpa using hc)]
        · rw [if_neg (by simp; intro _ h; exact absurd h.symm hu)]
  | _ => simp [hth]

/-- A word that takes no payload, an illegal one among them, hands the thread nothing. -/
theorem State.load_of_noPayload {s : State} {e : Entry} (rest : List Entry) (h : takesPayload e.word = false) :
    s.load e rest = { s with sched := rest, cur := e } := by
  unfold State.load State.supplySrc
  split
  · simp [h]
  · rfl

theorem takesPayload_of_error {w : Word} {x : DecodeError} (h : decode w = .error x) : takesPayload w = false := by
  simp [takesPayload, h]

end Sys2Proof.Machine
end

