-- ==== Sys2Proof/Laws/Ops.lean ====
section
/-! SUPPORT. Once per shared operation, what it can do: the routing checks, the descriptor and buffer accesses, the takes, the
layout of a ring and the end of a completion. -/

namespace Sys2Proof.Machine

/-! Starting an operation. -/

theorem State.issue_of_yes (s : State) (cls : OpClass) (k : Bool → Out) (h : s.mayIssue cls = .yes)
    (hb : s.busy = false) : s.issue cls k = k true := by
  simp [State.issue, h, hb]

theorem State.issue_of_wrongContext (s : State) (cls : OpClass) (k : Bool → Out)
    (h : s.mayIssue cls = .wrongContext) (hb : s.busy = false) : s.issue cls k = k false := by
  simp [State.issue, h, hb]

/-- A one-step operation that answers a next state was a hold or went on. -/
theorem State.issue_next {s t : State} {cls : OpClass} {k : Bool → Out} (h : s.issue cls k = .next t) :
    (s.busy = true ∧ t = s.hold) ∨ (s.busy = false ∧ s.mayIssue cls = .yes ∧ k true = .next t)
      ∨ (s.busy = false ∧ s.mayIssue cls = .wrongContext ∧ k false = .next t) := by
  unfold State.issue at h
  cases ha : s.mayIssue cls <;> cases hb : s.busy <;> simp_all

/-- A thread of `THREADS` that is idle may issue a call. -/
theorem State.admit_thread {s : State} {t : Nat} (ha : s.cur.agent = .thread t) (ht : t ∈ s.cfg.threads) :
    s.mayIssue .threadCall = .yes := by
  simp [State.mayIssue, State.agentExists, ha, ht, Agent.admission]

theorem State.me_of_thread {s : State} {t : Nat} (ha : s.cur.agent = .thread t) : s.me = t := by
  simp [State.me, ha, Agent.tid]

theorem State.not_busy_of_idle {s : State} {t : Nat} (ha : s.cur.agent = .thread t)
    (hp : (s.thr t).phase = .idle) : s.busy = false := by
  simp [State.busy, ha, hp]

theorem State.admit_host {s : State} (ha : s.cur.agent = .host) : s.mayIssue .hostOnly = .yes := by
  simp [State.mayIssue, State.agentExists, ha, Agent.admission]

/-- Every outcome of `orRaise`: the fault of the check, or what follows it. -/
theorem State.orRaise_next {α : Type} {s t : State} {x : Except Trap α} {k : α → Out}
    (h : s.orRaise x k = .next t) :
    (∃ tr, x = .error tr ∧ t = s.raise tr) ∨ ∃ a, x = .ok a ∧ k a = .next t := by
  cases x with
  | error tr => exact .inl ⟨tr, rfl, by simpa [State.orRaise] using h.symm⟩
  | ok a => exact .inr ⟨a, rfl, h⟩

@[simp] theorem State.orRaise_ok {α : Type} (s : State) (a : α) (k : α → Out) : s.orRaise (.ok a) k = k a := rfl
@[simp] theorem State.orRaise_error {α : Type} (s : State) (tr : Trap) (k : α → Out) :
    s.orRaise (.error tr) k = .next (s.raise tr) := rfl

/-! Routing. -/

theorem State.callCtx_ok {s : State} {n : Nat} {b : Bool} {c : Ctx} :
    s.callCtx n b = .ok c ↔ s.ctx? n = some c ∧ b = true ∧ c.life = .active := by
  unfold State.callCtx
  cases h : s.ctx? n with
  | none => simp
  | some c' =>
    cases b <;> by_cases hl : c'.life = .active <;> simp [hl]
    · rintro rfl; exact hl
    · rintro rfl; exact hl

theorem State.laidOutCtx_ok {s : State} {n : Nat} {c : Ctx} :
    s.laidOutCtx n = .ok c ↔ s.ctx? n = some c ∧ c.life.laidOut = true := by
  unfold State.laidOutCtx
  cases h : s.ctx? n with
  | none => simp
  | some c' =>
    cases hl : c'.life.laidOut <;> simp [hl]
    · rintro rfl; exact hl
    · rintro rfl; exact hl

theorem State.activeCtx_ok {s : State} {n : Nat} {c : Ctx} :
    s.activeCtx n = .ok c ↔ s.ctx? n = some c ∧ c.life = .active := by
  unfold State.activeCtx
  cases h : s.ctx? n with
  | none => simp
  | some c' =>
    by_cases hl : c'.life = .active <;> simp [hl]
    · rintro rfl; exact hl
    · rintro rfl; exact hl

/-! Descriptors and buffers. -/

/-- A descriptor is read exactly where its fields can be accessed and no reserved bit is set. -/
theorem State.readDesc_ok {s : State} {c : Ctx} {k : Nat} {d : Desc} :
    s.readDesc c k = .ok d ↔
      s.cfg.descReachable k = true ∧ c.desc[k]? = some d ∧ d.reservedSet = false := by
  unfold State.readDesc
  cases hr : s.cfg.descReachable k with
  | false => simp
  | true =>
    cases hd : c.desc[k]? with
    | none => simp
    | some d' =>
      cases hv : d'.reservedSet <;> simp [hv]
      · rintro rfl; exact hv
      · rintro rfl; exact hv

/-- A well-formed configuration reaches every descriptor. -/
theorem descReachable_of_wf {cfg : Config} (h : cfg.wf = true) {k : Nat} (hk : k < cfg.slots) :
    cfg.descReachable k = true := by
  simp only [Config.wf, Bool.and_eq_true, beq_iff_eq, decide_eq_true_eq] at h
  have hk' : k < cfg.rxCap + cfg.txCap := hk
  have h1 : cfg.descAddr k = cfg.descBase + 8 * k := rfl
  have h2 := h.1.2.1
  have h3 := h.1.2.2
  unfold Config.descReachable
  rw [Bool.and_eq_true, beq_iff_eq, decide_eq_true_iff, h1]
  omega

/-- The bytes of slot `d` are inside a buffer. -/
theorem Ctx.inBuffer_of_mem {c : Ctx} {cfg : Config} {d : Desc} {k a : Nat} (hd : c.desc[k]? = some d)
    (h1 : d.addr.toNat ≤ a) (h2 : a < d.addr.toNat + cfg.bufSize) (h3 : a < 2 ^ 32) :
    c.inBuffer cfg a = true := by
  have hm : d ∈ c.desc := List.mem_of_getElem? hd
  simp only [Ctx.inBuffer, Bool.and_eq_true, decide_eq_true_eq, List.any_eq_true]
  exact ⟨h3, d, hm, h1, h2⟩

/-- A copy out of addresses that are all in buffers is those bytes. -/
theorem State.copyOut_ok {s : State} {c : Ctx} {a n : Nat}
    (h : ∀ j, j < n → c.inBuffer s.cfg (a + j) = true) : s.copyOut c a n = .ok (s.mem.readBytes a n) := by
  induction n generalizing a with
  | zero => rfl
  | succ n ih =>
    have h0 := h 0 (by omega)
    rw [Nat.add_zero] at h0
    have := ih (a := a + 1) fun j hj => by
      have := h (j + 1) (by omega)
      rwa [show a + (j + 1) = a + 1 + j by omega] at this
    simp [State.copyOut, h0, this, Memory.readBytes]

/-- A copy out that succeeds gives the bytes of memory. -/
theorem State.copyOut_eq {s : State} {c : Ctx} {a n : Nat} {bs : List Byte} (h : s.copyOut c a n = .ok bs) :
    bs = s.mem.readBytes a n := by
  induction n generalizing a bs with
  | zero => simpa [State.copyOut, Memory.readBytes] using h.symm
  | succ n ih =>
    simp only [State.copyOut] at h
    split at h
    · split at h
      · cases h
      · next bs' hb => cases h; simp [Memory.readBytes, ih hb]
    · cases h

/-- A copy into addresses that are all in buffers writes those bytes. -/
theorem Ctx.copyIn_ok {c : Ctx} {cfg : Config} {m : Memory} {a : Nat} {bs : List Byte}
    (h : ∀ j, j < bs.length → c.inBuffer cfg (a + j) = true) : c.copyIn cfg m a bs = (m.writeBytes a bs, none) := by
  induction bs generalizing m a with
  | nil => rfl
  | cons b bs ih =>
    have h0 := h 0 (by simp)
    rw [Nat.add_zero] at h0
    have := ih (m := m.write a b) (a := a + 1) fun j hj => by
      have := h (j + 1) (by simpa using hj)
      rwa [show a + (j + 1) = a + 1 + j by omega] at this
    simp [Ctx.copyIn, h0, this, Memory.writeBytes]

/-- A copy in that succeeds wrote all the bytes. -/
theorem Ctx.copyIn_none {c : Ctx} {cfg : Config} {m m' : Memory} {a : Nat} {bs : List Byte}
    (h : c.copyIn cfg m a bs = (m', none)) : m' = m.writeBytes a bs := by
  induction bs generalizing m a with
  | nil => simpa [Ctx.copyIn, Memory.writeBytes] using h.symm
  | cons b bs ih =>
    simp only [Ctx.copyIn] at h
    split at h
    · exact ih h
    · cases h

/-- A copy in keeps the canonical form, wherever it stops. -/
theorem Ctx.copyIn_wf {c : Ctx} {cfg : Config} {m : Memory} (a : Nat) (bs : List Byte) (h : m.wf) :
    (c.copyIn cfg m a bs).1.wf := by
  induction bs generalizing m a with
  | nil => exact h
  | cons b bs ih =>
    simp only [Ctx.copyIn]
    split
    · exact ih (a + 1) (Memory.wf_write a b h)
    · exact h

/-- The drawn contents keep the canonical form. -/
theorem fillBuffers_wf {cfg : Config} {m : Memory} (as : List Addr) (bss : List (List Byte)) (h : m.wf) :
    (cfg.fillBuffers m as bss).wf := by
  induction as generalizing m bss with
  | nil => simpa [Config.fillBuffers] using h
  | cons a as ih =>
    cases bss with
    | nil => simpa [Config.fillBuffers] using h
    | cons b bss => exact ih bss (Memory.wf_writeBytes _ _ h)

/-! Registers. -/

/-- The two bytes of a register value hold it, in either order (20_memory.md R88). -/
@[simp] theorem regValue_regImage (e : Endian) (v : Half) : regValue e (regImage e v) = v := by
  apply BitVec.eq_of_toNat_eq
  have hv := v.isLt
  cases e <;>
    simp [regValue, regImage, bytesOf, bytesBig, numOf, numBig] <;> omega

/-- A register reads as its own value, whatever the byte order. -/
theorem State.regRead_ok {s : State} {c : Ctx} {off w : Nat} {v : Half} (h : s.regRead c off w = .ok v) :
    v = c.evt &&& evAll ∨ v = c.imask &&& evAll := by
  unfold State.regRead State.regBytes at h
  split at h
  · cases h
  · next bs hb =>
    split at hb
    · split at hb
      · cases hb; cases h; simp
      · split at hb
        · cases hb; cases h; simp
        · cases hb
    · cases hb

theorem State.regBytes_evt {s : State} (c : Ctx) (h : s.cfg.wf = true) :
    s.regBytes c s.cfg.regEvt 16 = .ok (regImage s.cfg.regEndian (c.evt &&& evAll)) := by
  simp only [Config.wf, Bool.and_eq_true, beq_iff_eq] at h
  simp [State.regBytes, regAccessOk, h.2.1.1]

theorem State.regRead_evt {s : State} (c : Ctx) (h : s.cfg.wf = true) :
    s.regRead c s.cfg.regEvt 16 = .ok (c.evt &&& evAll) := by
  simp [State.regRead, State.regBytes_evt c h]

theorem State.regWrite_evt {s : State} (c : Ctx) (v : Half) (h : s.cfg.wf = true) :
    s.regWrite c s.cfg.regEvt 16 v = .ok { c with evt := evAck c.evt v } := by
  simp only [Config.wf, Bool.and_eq_true, beq_iff_eq] at h
  simp [State.regWrite, State.regStore, regAccessOk, h.2.1.1]

theorem State.regWrite_mask {s : State} (c : Ctx) (v : Half) (h : s.cfg.wf = true) :
    s.regWrite c s.cfg.regMask 16 v = .ok { c with imask := v &&& evAll } := by
  simp only [Config.wf, Bool.and_eq_true, beq_iff_eq, bne_iff_ne, ne_eq] at h
  have hne : s.cfg.regMask ≠ s.cfg.regEvt := fun he => h.2.2 he.symm
  simp [State.regWrite, State.regStore, regAccessOk, h.2.1.2, hne]

/-- A register write changes the two registers only. -/
theorem State.regWrite_cases {s : State} {c c' : Ctx} {off w : Nat} {v : Half}
    (h : s.regWrite c off w v = .ok c') : c' = { c with evt := evAck c.evt v } ∨ c' = { c with imask := v &&& evAll } := by
  unfold State.regWrite State.regStore at h
  split at h
  · split at h
    · exact .inl (by cases h; simp)
    · split at h
      · exact .inr (by cases h; simp)
      · cases h
  · cases h

/-- A write at `REG_EVT` that goes through is an acknowledge, in every configuration. -/
theorem State.regWrite_evt_ok {s : State} {c c' : Ctx} {w : Nat} {v : Half}
    (h : s.regWrite c s.cfg.regEvt w v = .ok c') : c' = { c with evt := evAck c.evt v } := by
  unfold State.regWrite State.regStore at h
  rw [if_pos (rfl : s.cfg.regEvt = s.cfg.regEvt)] at h
  split at h
  · cases h; simp
  · cases h

/-! The two takes: every way they end. -/

/-- TAKE_WR is a fault, a `NotReady`, or the hand-off of the slot at the cursor. -/
theorem State.takeWrite_cases (s : State) (n maxLen : Nat) (b : Bool) :
    (∃ tr, s.takeWrite n maxLen b = .trapped (s.raise tr))
      ∨ (∃ c d m tr, s.callCtx n b = .ok c ∧ s.readDesc c (s.cfg.slot .tx c.cursor.tx) = .ok d ∧ d.hwOwned = false
          ∧ c.copyIn s.cfg s.mem d.addr.toNat
              ((s.thr s.me).src.take (writeLen s.cfg (s.thr s.me).src maxLen)) = (m, some tr)
          ∧ s.takeWrite n maxLen b = .trapped ({ s with mem := m }.raise tr))
      ∨ (∃ c d, s.callCtx n b = .ok c ∧ s.readDesc c (s.cfg.slot .tx c.cursor.tx) = .ok d ∧ d.hwOwned = true
          ∧ s.takeWrite n maxLen b = .notReady)
      ∨ (∃ c d m, s.callCtx n b = .ok c ∧ s.readDesc c (s.cfg.slot .tx c.cursor.tx) = .ok d ∧ d.hwOwned = false
          ∧ c.copyIn s.cfg s.mem d.addr.toNat
              ((s.thr s.me).src.take (writeLen s.cfg (s.thr s.me).src maxLen)) = (m, none)
          ∧ s.takeWrite n maxLen b = .took
              ({ s with mem := m }.setCtx n
                { c.setDesc (s.cfg.slot .tx c.cursor.tx)
                    { d with cs := csTakeWr d.cs, len := BitVec.ofNat 16 (writeLen s.cfg (s.thr s.me).src maxLen) } with
                  cursor := { c.cursor with tx := nextCursor s.cfg .tx c.cursor.tx } })
              (writeLen s.cfg (s.thr s.me).src maxLen)) := by
  unfold State.takeWrite
  cases hc : s.callCtx n b with
  | error tr => exact .inl ⟨tr, rfl⟩
  | ok c =>
    cases hd : s.readDesc c (s.cfg.slot .tx c.cursor.tx) with
    | error tr => exact .inl ⟨tr, by simp [hd]⟩
    | ok d =>
      cases ho : d.hwOwned with
      | true => exact .inr (.inr (.inl ⟨c, d, rfl, hd, ho, by simp [hd, ho]⟩))
      | false =>
        rcases hm : c.copyIn s.cfg s.mem d.addr.toNat
          ((s.thr s.me).src.take (writeLen s.cfg (s.thr s.me).src maxLen)) with ⟨m, tr⟩
        cases tr with
        | some tr => exact .inr (.inl ⟨c, d, m, tr, rfl, hd, ho, hm, by simp [hd, ho, hm]⟩)
        | none => exact .inr (.inr (.inr ⟨c, d, m, rfl, hd, ho, hm, by simp [hd, ho, hm]⟩))

/-- TAKE_RD is a fault, a `NotReady`, or the hand-back of the slot at the cursor. -/
theorem State.takeRead_cases (s : State) (n maxLen : Nat) (b : Bool) :
    (∃ tr, s.takeRead n maxLen b = .trapped (s.raise tr))
      ∨ (∃ c d, s.callCtx n b = .ok c ∧ s.readDesc c (s.cfg.slot .rx c.cursor.rx) = .ok d ∧ d.hwOwned = true
          ∧ s.takeRead n maxLen b = .notReady)
      ∨ (∃ c d bs, s.callCtx n b = .ok c ∧ s.readDesc c (s.cfg.slot .rx c.cursor.rx) = .ok d ∧ d.hwOwned = false
          ∧ s.copyOut c d.addr.toNat (readLen d maxLen) = .ok bs
          ∧ s.takeRead n maxLen b = .took
              ((s.setCtx n
                { c.setDesc (s.cfg.slot .rx c.cursor.rx) { d with cs := csTakeRd d.cs } with
                  cursor := { c.cursor with rx := nextCursor s.cfg .rx c.cursor.rx } }).setThr s.me
                { s.thr s.me with dst := bs })
              (readLen d maxLen)) := by
  unfold State.takeRead
  cases hc : s.callCtx n b with
  | error tr => exact .inl ⟨tr, rfl⟩
  | ok c =>
    cases hd : s.readDesc c (s.cfg.slot .rx c.cursor.rx) with
    | error tr => exact .inl ⟨tr, by simp [hd]⟩
    | ok d =>
      cases ho : d.hwOwned with
      | true => exact .inr (.inl ⟨c, d, rfl, hd, ho, by simp [hd, ho]⟩)
      | false =>
        cases hb : s.copyOut c d.addr.toNat (readLen d maxLen) with
        | error tr => exact .inl ⟨tr, by simp [hd, ho, hb]⟩
        | ok bs => exact .inr (.inr ⟨c, d, bs, rfl, hd, ho, hb, by simp [hd, ho, hb]⟩)

/-! Laying out a ring and walking on: every way they end. -/

/-- RING_INIT on an `Allocated` context: nothing written, a fault of an unreachable descriptor area, or the laid-out ring. -/
theorem State.layOut_cases (s : State) (n : Nat) (c : Ctx) :
    s.layOut n c = .failed
      ∨ (∃ k, s.cfg.firstUnreachable 0 s.cfg.slots = some k
          ∧ s.layOut n c = .trapped
              ({ s with liveBuffers := s.liveBuffers + s.cfg.slots }.raise ⟨.badAddress, s.cfg.descAddr k + 4⟩))
      ∨ (∃ addrs, s.cfg.obtain (s.otherBuffers n) s.cfg.slots s.cur.draws.alloc = some addrs
          ∧ s.layOut n c = .laid
              ({ s with liveBuffers := s.liveBuffers + s.cfg.slots,
                        mem := s.cfg.fillBuffers s.mem addrs s.cur.draws.fill }.setCtx n
                (c.laidOutWith s.cfg addrs))) := by
  unfold State.layOut
  cases s.cur.draws.descArea with
  | false => exact .inl rfl
  | true =>
    cases ho : s.cfg.obtain (s.otherBuffers n) s.cfg.slots s.cur.draws.alloc with
    | none => exact .inl (by simp)
    | some addrs =>
      cases hk : s.cfg.firstUnreachable 0 s.cfg.slots with
      | some k => exact .inr (.inl ⟨k, rfl, by simp⟩)
      | none => exact .inr (.inr ⟨addrs, rfl, by simp⟩)

/-- An engine step that answers a next state held, faulted on the context or the descriptor, or went on with an enabled engine. -/
theorem State.engine_next {s t : State} {cls : OpClass} {n : Nat} {d : Dir} {k : Ctx → Desc → Out}
    (h : s.engine cls n d k = .next t) :
    t = s.hold ∨ (∃ tr, t = s.raise tr)
      ∨ ∃ c x, s.ctx? n = some c ∧ c.dmaEn.get d = true ∧ s.readDesc c (s.cfg.slot d (c.hw.get d)) = .ok x
          ∧ k c x = .next t := by
  have hold {u : State} (hu : (Host.Outcome.next s.hold : Out) = .next u) : u = s.hold := by cases hu; rfl
  unfold State.engine at h
  rcases State.issue_next h with ⟨_, rfl⟩ | ⟨_, _, h⟩ | ⟨_, _, h⟩
  · exact .inl rfl
  all_goals
    revert h
    cases hc : s.ctx? n with
    | none => exact fun h => .inr (.inl ⟨trapOf .noSuchInstance, by cases h; rfl⟩)
    | some c =>
      cases he : c.dmaEn.get d with
      | false => exact fun h => .inl (hold (by simpa [he] using h))
      | true =>
        intro h
        simp only [he, if_true] at h
        rcases State.orRaise_next h with ⟨tr, _, rfl⟩ | ⟨x, hx, hk⟩
        · exact .inr (.inl ⟨tr, rfl⟩)
        · exact .inr (.inr ⟨c, x, rfl, he, hx, hk⟩)

end Sys2Proof.Machine
end

