-- ==== Sys2Proof/Laws/Claims.lean ====
section
/-! SUPPORT. The vocabulary of the claims against the named operations: when an operation is issued, what a fault, a hold, a
result and a next phase change, and descriptor, buffer and event accesses under the claims' hypotheses. -/

namespace Sys2Proof.Machine

/-! Issuing. -/

theorem State.issue_freeSoftware {s : State} (h : s.freeSoftware) (k : Bool → Out) : s.issue .either k = k true := by
  rcases h with ⟨t, ha, ht, hp⟩ | ⟨ha, hh⟩ | ha
  · simp [State.issue, State.mayIssue, State.agentExists, State.busy, Agent.admission, Agent.context, admitIf, ha, ht, hp]
  · simp [State.issue, State.mayIssue, State.agentExists, State.busy, Agent.admission, Agent.context, admitIf, ha, hh]
  · simp [State.issue, State.mayIssue, State.agentExists, State.busy, Agent.admission, Agent.context, admitIf, ha]

theorem State.issue_freeAgent {s : State} (h : s.freeAgent) (k : Bool → Out) : s.issue .anyone k = k true := by
  rcases h with (⟨t, ha, ht, hp⟩ | ⟨ha, hh⟩ | ha) | ha | ha | ha <;>
    simp [State.issue, State.mayIssue, State.agentExists, State.busy, Agent.admission, *]

theorem State.issue_idleThread {s : State} {u : Nat} (h : s.idleThread u) (k : Bool → Out) :
    s.issue .threadCall k = k true := by
  obtain ⟨ha, ht, hp⟩ := h
  simp [State.issue, State.mayIssue, State.agentExists, State.busy, Agent.admission, ha, ht, hp]

theorem State.issue_dispatcher {s : State} (h : s.cur.agent = .dispatcher) (k : Bool → Out) :
    s.issue .threadCall k = k false := by
  simp [State.issue, State.mayIssue, State.agentExists, State.busy, Agent.admission, h]

theorem State.issue_dispatch {s : State} (h : s.cur.agent = .dispatcher) (k : Bool → Out) :
    s.issue .dispatch k = k true := by
  simp [State.issue, State.mayIssue, State.agentExists, State.busy, Agent.admission, Agent.context, h]

theorem State.issue_env {s : State} (h : s.cur.agent = .env) (k : Bool → Out) : s.issue .envOnly k = k true := by
  simp [State.issue, State.mayIssue, State.agentExists, State.busy, Agent.admission, admitIf, h]

theorem State.issue_dmaRx {s : State} (h : s.cur.agent = .dmaRx) (k : Bool → Out) : s.issue .dmaRxOnly k = k true := by
  simp [State.issue, State.mayIssue, State.agentExists, State.busy, Agent.admission, admitIf, h]

theorem State.issue_dmaTx {s : State} (h : s.cur.agent = .dmaTx) (k : Bool → Out) : s.issue .dmaTxOnly k = k true := by
  simp [State.issue, State.mayIssue, State.agentExists, State.busy, Agent.admission, admitIf, h]

/-! Ends of a step. -/

theorem State.faults_raise (s : State) (tr : Trap) : s.faults (s.raise tr) tr.reason tr.addr := rfl

theorem State.waits_hold (s : State) : s.waits s.hold := rfl

theorem State.sameCore_of_eq {s t : State} (h1 : t.cfg = s.cfg) (h2 : t.nextId = s.nextId) (h3 : t.fault = s.fault)
    (h4 : t.liveBuffers = s.liveBuffers) (h5 : t.hostOp = s.hostOp) (h6 : t.sched = s.sched) (h7 : t.cur = s.cur) :
    s.sameCore t := ⟨h1, h2, h3, h4, h5, h6, h7⟩

/-- A result delivered in a state whose threads are those of `s`. -/
theorem State.returns_finish {s u : State} (code : Code) (v : Value) (h1 : u.cur = s.cur) (h2 : u.threads = s.threads) :
    s.returns (u.finish code v) code v := by
  refine ⟨by simp, fun w => ?_⟩
  have hth : ∀ w, u.thr w = s.thr w := fun w => by simp [State.thr, h2]
  unfold State.finish
  rw [h1]
  split
  · next t ht =>
    by_cases hw : w = t
    · subst hw; simp [ht, hth]
    · have : ¬ s.cur.agent = .thread w := by rw [ht]; intro h; cases h; exact hw rfl
      rw [if_neg this, State.thr_say, State.thr_setThr_ne _ _ hw, hth]
  · next hn =>
    rw [if_neg (hn w), State.thr_say, hth]

theorem State.onlyReturns_finish (s : State) (code : Code) (v : Value) : s.onlyReturns (s.finish code v) code v :=
  ⟨State.returns_finish code v rfl rfl, ⟨by simp, by simp, by simp, by simp, by simp, by simp, by simp⟩,
    ⟨by simp, by simp⟩, fun _ => by simp, fun _ => by simp⟩

theorem State.nowCtx_setCtx {s u : State} (n : Nat) (c : Ctx) (h : u.ctxs = s.ctxs) : s.nowCtx (u.setCtx n c) n c :=
  ⟨by simp, fun m hm => by rw [State.ctx?_setCtx_ne _ _ hm]; simp [State.ctx?, h]⟩

theorem State.onlyCtx_finish (s : State) (n : Nat) (c : Ctx) (code : Code) (v : Value) :
    s.onlyCtx ((s.setCtx n c).finish code v) n c :=
  ⟨⟨by simp, fun m hm => by simp [State.ctx?_setCtx_ne _ _ hm]⟩,
    ⟨by simp, by simp, by simp, by simp, by simp, by simp, by simp⟩, ⟨by simp, by simp⟩, fun _ => by simp⟩

theorem State.onlyCtx_moved (s : State) (n : Nat) (c : Ctx) : s.onlyCtx (s.setCtx n c).moved n c :=
  ⟨⟨State.ctx?_setCtx_self .., fun _ hm => State.ctx?_setCtx_ne _ _ hm⟩,
    ⟨rfl, rfl, rfl, rfl, rfl, rfl, rfl⟩, ⟨rfl, rfl⟩, fun _ => rfl⟩

theorem State.nowThread_setThr {s v : State} (u : Nat) (th : Thread) (h : v.threads = s.threads) :
    s.nowThread (v.setThr u th) u th :=
  ⟨by simp, fun w hw => by rw [State.thr_setThr_ne _ _ hw]; simp [State.thr, h]⟩

/-! Routing, descriptors and buffers under the claims' hypotheses. -/

theorem laidOut_of_mem {l : Life} (h : l ∈ [Life.initialized, .active, .stopped]) : l.laidOut = true := by
  cases l <;> simp_all [Life.laidOut]

theorem State.laidOutCtx_of {s : State} {n : Nat} {c : Ctx} (hc : s.ctx? n = some c)
    (hl : c.life ∈ [Life.initialized, .active, .stopped]) : s.laidOutCtx n = .ok c :=
  State.laidOutCtx_ok.mpr ⟨hc, laidOut_of_mem hl⟩

theorem State.laidOutCtx_error {s : State} {n : Nat}
    (h : ∀ c, s.ctx? n = some c → c.life ∉ [Life.initialized, .active, .stopped]) :
    s.laidOutCtx n = .error (trapOf .noSuchInstance) := by
  unfold State.laidOutCtx
  cases hc : s.ctx? n with
  | none => rfl
  | some c =>
    have := h c hc
    cases hl : c.life <;> simp_all [Life.laidOut]

theorem State.activeCtx_error {s : State} {n : Nat} (h : ∀ c, s.ctx? n = some c → c.life ≠ .active) :
    s.activeCtx n = .error (trapOf .noSuchInstance) := by
  unfold State.activeCtx
  cases hc : s.ctx? n with
  | none => rfl
  | some c => simp [h c hc]

theorem Desc.reservedSet_eq_false {d : Desc} (h : d.cs &&& 0x47FE = 0) : d.reservedSet = false :=
  anyBit_eq_false.mpr h

/-- A descriptor of the ring is read under a well-formed configuration. -/
theorem State.readDesc_of {s : State} {c : Ctx} {k : Nat} {d : Desc} (hwf : s.cfg.wf = true) (hk : k < s.cfg.slots)
    (hd : c.desc[k]? = some d) (hr : d.cs &&& 0x47FE = 0) : s.readDesc c k = .ok d :=
  State.readDesc_ok.mpr ⟨descReachable_of_wf hwf hk, hd, Desc.reservedSet_eq_false hr⟩

/-- The bytes of a slot's buffer are inside the buffer. -/
theorem Ctx.inBuffer_of_desc {c : Ctx} {cfg : Config} {k j : Nat} {d : Desc} (hd : c.desc[k]? = some d)
    (ha : d.addr.toNat + cfg.bufSize ≤ 2 ^ 32) (hj : j < cfg.bufSize) : c.inBuffer cfg (d.addr.toNat + j) = true :=
  Ctx.inBuffer_of_mem hd (by omega) (by omega) (by omega)

theorem readBytes_eq_map (m : Memory) (a n : Nat) : m.readBytes a n = (List.range n).map (fun j => m.read (a + j)) := by
  apply List.ext_getElem
  · simp
  · intro j h1 h2
    rw [Memory.getElem_readBytes]
    simp

/-- Copying out of a slot's buffer gives its bytes. -/
theorem State.copyOut_of {s : State} {c : Ctx} {k n : Nat} {d : Desc} (hd : c.desc[k]? = some d)
    (ha : d.addr.toNat + s.cfg.bufSize ≤ 2 ^ 32) (hn : n ≤ s.cfg.bufSize) :
    s.copyOut c d.addr.toNat n = .ok ((List.range n).map (fun j => s.mem.read (d.addr.toNat + j))) := by
  rw [State.copyOut_ok fun j hj => Ctx.inBuffer_of_desc hd ha (by omega), readBytes_eq_map]

/-- Copying into a slot's buffer writes the bytes. -/
theorem Ctx.copyIn_of {c : Ctx} {cfg : Config} {k : Nat} {d : Desc} {bs : List Byte} (m : Memory)
    (hd : c.desc[k]? = some d) (ha : d.addr.toNat + cfg.bufSize ≤ 2 ^ 32) (hn : bs.length ≤ cfg.bufSize) :
    c.copyIn cfg m d.addr.toNat bs = (m.writeBytes d.addr.toNat bs, none) :=
  Ctx.copyIn_ok fun j hj => Ctx.inBuffer_of_desc hd ha (by omega)

/-- What a copy wrote. -/
theorem read_writeBytes_getElem? {m : Memory} {a j : Nat} {bs : List Byte} {b : Byte} (h : bs[j]? = some b) :
    (m.writeBytes a bs).read (a + j) = b := by
  obtain ⟨hj, rfl⟩ := List.getElem?_eq_some_iff.mp h
  exact Memory.read_writeBytes_inside m a bs hj

/-- What a copy left. -/
theorem read_writeBytes_outside {m : Memory} {a x k : Nat} {bs : List Byte} (hk : bs.length = k)
    (h : x < a ∨ a + k ≤ x) : (m.writeBytes a bs).read x = m.read x :=
  Memory.read_writeBytes_outside m a bs (by omega)

theorem nextCursor_eq {cfg : Config} {d : Dir} {i : Nat} (h : i < cfg.cap d) :
    nextCursor cfg d i = if i = cfg.cap d - 1 then 0 else i + 1 := by
  unfold nextCursor advanceIdx
  simp [show ¬ cfg.cap d ≤ i by omega]

theorem nextHw_wrap {cfg : Config} {d : Dir} {i : Nat} {cs : Half} (h : anyBit cs csW = true ∨ i + 1 < cfg.cap d) :
    nextHw cfg d i cs = some (if anyBit cs csW then 0 else i + 1) := by
  unfold nextHw
  cases hw : anyBit cs csW with
  | true => simp
  | false =>
    have : i + 1 < cfg.cap d := h.resolve_left (by simp [hw])
    simp [this]

/-! The oldest entry of an instance's line. -/

theorem pendingHead_eq {before after : List (Nat × List Byte)} {n : Nat} {bs : List Byte}
    (h : ∀ x, x ∈ before → x.1 ≠ n) : pendingHead (before ++ (n, bs) :: after) n = some bs := by
  induction before with
  | nil => simp [pendingHead]
  | cons y r ih =>
    obtain ⟨j, v⟩ := y
    have hj : j ≠ n := h (j, v) (by simp)
    simp only [List.cons_append, pendingHead, if_neg hj]
    exact ih fun x hx => h x (by simp [hx])

theorem pendingTail_eq {before after : List (Nat × List Byte)} {n : Nat} {bs : List Byte}
    (h : ∀ x, x ∈ before → x.1 ≠ n) : pendingTail (before ++ (n, bs) :: after) n = before ++ after := by
  induction before with
  | nil => simp [pendingTail]
  | cons y r ih =>
    obtain ⟨j, v⟩ := y
    have hj : j ≠ n := h (j, v) (by simp)
    simp only [List.cons_append, pendingTail, if_neg hj]
    rw [ih fun x hx => h x (by simp [hx])]

theorem pendingHead_none {l : List (Nat × List Byte)} {n : Nat} (h : ∀ x, x ∈ l → x.1 ≠ n) : pendingHead l n = none := by
  induction l with
  | nil => rfl
  | cons y r ih =>
    obtain ⟨j, v⟩ := y
    have hj : j ≠ n := h (j, v) (by simp)
    simp only [pendingHead, if_neg hj]
    exact ih fun x hx => h x (by simp [hx])

/-! Positions of a sub-ring, as claims write them. -/

theorem slot_ite (cfg : Config) (d : Dir) (i : Nat) : (if d = .rx then i else cfg.rxCap + i) = cfg.slot d i := by
  cases d <;> rfl

theorem slot_ite_add (cfg : Config) (d : Dir) (i : Nat) : (if d = .rx then 0 else cfg.rxCap) + i = cfg.slot d i := by
  cases d <;> simp [Config.slot]

theorem slot_lt {cfg : Config} {d : Dir} {i : Nat} (h : i < cfg.cap d) : cfg.slot d i < cfg.slots := by
  cases d <;> simp [Config.slot, Config.cap, Config.slots] at * <;> omega

/-! The takes under the claims' hypotheses. -/

theorem State.atTake_idle {s : State} {u : Nat} (h : s.idleThread u) (k : CallKind) (n : Nat) (d : Dir) (len : Nat) :
    s.atTake k n d len = false := by
  obtain ⟨ha, _, hp⟩ := h
  simp [State.atTake, State.me_of_thread ha, hp]

theorem State.atTake_dispatcher {s : State} (h : s.cur.agent = .dispatcher) (k : CallKind) (n : Nat) (d : Dir) (len : Nat) :
    s.atTake k n d len = false := by
  simp [State.atTake, State.mayIssue, State.agentExists, Agent.admission, h]

theorem State.callCtx_none {s : State} {n : Nat} {b : Bool} (h : s.ctx? n = none) :
    s.callCtx n b = .error (trapOf .noSuchInstance) := by
  simp [State.callCtx, h]

/-- TAKE_WR on an EMPTY slot. -/
theorem State.takeWrite_ok {s : State} {n maxLen u k : Nat} {c : Ctx} {d : Desc} (hme : s.me = u)
    (hc : s.ctx? n = some c) (hl : c.life = .active) (hwf : s.cfg.wf = true) (hcur : c.cursor.tx < s.cfg.txCap)
    (hd : c.desc[s.cfg.rxCap + c.cursor.tx]? = some d) (hr : d.cs &&& 0x47FE = 0) (ho : d.hwOwned = false)
    (ha : d.addr.toNat + s.cfg.bufSize ≤ 2 ^ 32) (hk : k = min (min (s.thr u).src.length maxLen) s.cfg.bufSize) :
    s.takeWrite n maxLen true = .took
      ({ s with mem := s.mem.writeBytes d.addr.toNat ((s.thr u).src.take k) }.setCtx n
        { c with
          desc := c.desc.set (s.cfg.rxCap + c.cursor.tx)
            ⟨csO ||| csL ||| csI ||| (d.cs &&& csW), BitVec.ofNat 16 k, d.addr⟩
          cursor := ⟨c.cursor.rx, if c.cursor.tx = s.cfg.txCap - 1 then 0 else c.cursor.tx + 1⟩ }) k := by
  have hkk : writeLen s.cfg (s.thr u).src maxLen = k := by rw [hk]; rfl
  unfold State.takeWrite
  rw [State.callCtx_ok.mpr ⟨hc, rfl, hl⟩]
  simp only []
  rw [State.readDesc_of (d := d) hwf (slot_lt (d := .tx) hcur) hd hr]
  simp only [ho, hme, hkk]
  rw [Ctx.copyIn_of _ hd ha (by simp; omega)]
  simp only [nextCursor_eq (cfg := s.cfg) (d := .tx) hcur]
  rfl

/-- TAKE_WR on a READY slot. -/
theorem State.takeWrite_notReady {s : State} {n maxLen : Nat} {c : Ctx} {d : Desc} (hc : s.ctx? n = some c)
    (hl : c.life = .active) (hwf : s.cfg.wf = true) (hcur : c.cursor.tx < s.cfg.txCap)
    (hd : c.desc[s.cfg.rxCap + c.cursor.tx]? = some d) (hr : d.cs &&& 0x47FE = 0) (ho : d.hwOwned = true) :
    s.takeWrite n maxLen true = .notReady := by
  unfold State.takeWrite
  rw [State.callCtx_ok.mpr ⟨hc, rfl, hl⟩]
  simp only []
  rw [State.readDesc_of (d := d) hwf (slot_lt (d := .tx) hcur) hd hr]
  simp [ho]

/-- TAKE_RD on a slot that hardware owns. -/
theorem State.takeRead_notReady {s : State} {n maxLen : Nat} {c : Ctx} {d : Desc} (hc : s.ctx? n = some c)
    (hl : c.life = .active) (hwf : s.cfg.wf = true) (hcur : c.cursor.rx < s.cfg.rxCap)
    (hd : c.desc[c.cursor.rx]? = some d) (hr : d.cs &&& 0x47FE = 0) (ho : d.hwOwned = true) :
    s.takeRead n maxLen true = .notReady := by
  unfold State.takeRead
  rw [State.callCtx_ok.mpr ⟨hc, rfl, hl⟩]
  simp only []
  rw [State.readDesc_of (d := d) hwf (slot_lt (d := .rx) hcur) hd hr]
  simp [ho]

/-- TAKE_RD on a slot that software owns. -/
theorem State.takeRead_ok {s : State} {n maxLen u k : Nat} {c : Ctx} {d : Desc} (hme : s.me = u)
    (hc : s.ctx? n = some c) (hl : c.life = .active) (hwf : s.cfg.wf = true) (hcur : c.cursor.rx < s.cfg.rxCap)
    (hd : c.desc[c.cursor.rx]? = some d) (hr : d.cs &&& 0x47FE = 0) (ho : d.hwOwned = false)
    (ha : d.addr.toNat + s.cfg.bufSize ≤ 2 ^ 32) (hlen : d.len.toNat ≤ s.cfg.bufSize) (hk : k = min d.len.toNat maxLen) :
    s.takeRead n maxLen true = .took
      ((s.setCtx n
        { c with
          desc := c.desc.set c.cursor.rx ⟨csO ||| csI ||| (d.cs &&& csW), d.len, d.addr⟩
          cursor := ⟨if c.cursor.rx = s.cfg.rxCap - 1 then 0 else c.cursor.rx + 1, c.cursor.tx⟩ }).setThr u
        { s.thr u with dst := (List.range k).map (fun j => s.mem.read (d.addr.toNat + j)) }) k := by
  have hkk : readLen d maxLen = k := by rw [hk]; rfl
  unfold State.takeRead
  rw [State.callCtx_ok.mpr ⟨hc, rfl, hl⟩]
  simp only []
  rw [State.readDesc_of (d := d) hwf (slot_lt (d := .rx) hcur) hd hr]
  simp only [ho, hme, hkk]
  rw [State.copyOut_of hd ha (by omega)]
  simp only [nextCursor_eq (cfg := s.cfg) (d := .rx) hcur]
  rfl

/-! An engine step under the claims' hypotheses. -/

theorem State.engine_rx {s : State} {n : Nat} {c : Ctx} {d : Desc} (ha : s.cur.agent = .dmaRx) (hwf : s.cfg.wf = true)
    (hc : s.ctx? n = some c) (hen : c.dmaEn.rx = true) (hh : c.hw.rx < s.cfg.rxCap) (hd : c.desc[c.hw.rx]? = some d)
    (hr : d.cs &&& 0x47FE = 0) (k : Ctx → Desc → Out) : s.engine .dmaRxOnly n .rx k = k c d := by
  unfold State.engine
  rw [State.issue_dmaRx ha]
  have := State.readDesc_of (d := d) hwf (slot_lt (d := .rx) hh) hd hr
  simp [hc, hen, this]

theorem State.engine_tx {s : State} {n : Nat} {c : Ctx} {d : Desc} (ha : s.cur.agent = .dmaTx) (hwf : s.cfg.wf = true)
    (hc : s.ctx? n = some c) (hen : c.dmaEn.tx = true) (hh : c.hw.tx < s.cfg.txCap)
    (hd : c.desc[s.cfg.rxCap + c.hw.tx]? = some d) (hr : d.cs &&& 0x47FE = 0) (k : Ctx → Desc → Out) :
    s.engine .dmaTxOnly n .tx k = k c d := by
  unfold State.engine
  rw [State.issue_dmaTx ha]
  have := State.readDesc_of (d := d) hwf (slot_lt (d := .tx) hh) hd hr
  simp [hc, hen, this]

theorem State.engine_off_rx {s : State} {n : Nat} {c : Ctx} (ha : s.cur.agent = .dmaRx) (hc : s.ctx? n = some c)
    (h : c.dmaEn.rx = false) (k : Ctx → Desc → Out) : s.engine .dmaRxOnly n .rx k = .next s.hold := by
  unfold State.engine
  rw [State.issue_dmaRx ha]
  simp [hc, h]

theorem State.engine_absent_rx {s : State} {n : Nat} (ha : s.cur.agent = .dmaRx) (hc : s.ctx? n = none)
    (k : Ctx → Desc → Out) : s.engine .dmaRxOnly n .rx k = .next (s.raise (trapOf .noSuchInstance)) := by
  unfold State.engine
  rw [State.issue_dmaRx ha]
  simp [hc]

theorem State.engine_off_tx {s : State} {n : Nat} {c : Ctx} (ha : s.cur.agent = .dmaTx) (hc : s.ctx? n = some c)
    (h : c.dmaEn.tx = false) (k : Ctx → Desc → Out) : s.engine .dmaTxOnly n .tx k = .next s.hold := by
  unfold State.engine
  rw [State.issue_dmaTx ha]
  simp [hc, h]

theorem State.engine_absent_tx {s : State} {n : Nat} (ha : s.cur.agent = .dmaTx) (hc : s.ctx? n = none)
    (k : Ctx → Desc → Out) : s.engine .dmaTxOnly n .tx k = .next (s.raise (trapOf .noSuchInstance)) := by
  unfold State.engine
  rw [State.issue_dmaTx ha]
  simp [hc]

/-! An illegal word. -/

/-- A free agent that issues an illegal word faults (30_encoding.md R141). -/
theorem State.illegal_of_free {s : State} (h : s.freeAgent) : s.illegal = .next (s.raise (trapOf .illegalOperation)) := by
  unfold State.illegal
  rcases h with (⟨t, ha, ht, hp⟩ | ⟨ha, hh⟩ | ha) | ha | ha | ha <;> simp [State.agentExists, State.busy, *]

/-- The step of an entry whose word is illegal: no payload reaches the issuer's memory. -/
theorem step_illegal {s : State} {e : Entry} {rest : List Entry} {x : DecodeError} (hf : s.fault = none)
    (hs : s.sched = e :: rest) (hd : decode e.word = .error x) :
    step s = { s with sched := rest, cur := e }.illegal := by
  simp only [step, hf, hs, hd, State.load_of_noPayload rest (takesPayload_of_error hd)]

/-! The phases of a call. -/

/-- A call issued by an idle thread is at `Entry`. -/
theorem State.blockingCall_idle {s : State} {u n len : Nat} {k : CallKind} {d : Dir} (h : s.idleThread u) :
    s.blockingCall k n d len = s.callEntry k n d len true := by
  obtain ⟨ha, ht, hp⟩ := h
  simp [State.blockingCall, State.admit_thread ha ht, State.me_of_thread ha, hp]

/-- A call continued by the thread inside it is at its sub-phase. -/
theorem State.blockingCall_inside {s : State} {u n len : Nat} {k : CallKind} {d : Dir} {ph : SubPhase}
    (h : s.insideAt u k n d len ph) : s.blockingCall k n d len = s.callPhase k n d ph len := by
  obtain ⟨ha, ht, hp, hl⟩ := h
  simp [State.blockingCall, State.admit_thread ha ht, State.me_of_thread ha, hp, hl]

theorem exec_of_isCall {i : Instr} {s : State} {n len : Nat} {k : CallKind} {d : Dir} (h : isCall i k n d len) :
    exec i s = s.blockingCall k n d len := by
  rcases h with ⟨rfl, rfl, rfl⟩ | ⟨rfl, rfl, rfl⟩ | ⟨rfl, rfl, rfl⟩ <;> rfl

/-- The wait predicate under the claims' hypotheses. -/
theorem State.waitPred_of {s : State} {c : Ctx} {d : Dir} {x : Desc} (hwf : s.cfg.wf = true)
    (hcur : c.cursor.get d < s.cfg.cap d) (hx : c.desc[s.cfg.slot d (c.cursor.get d)]? = some x)
    (hr : x.cs &&& 0x47FE = 0) : s.waitPred c d = .ok (!x.hwOwned) := by
  unfold State.waitPred
  rw [State.readDesc_of hwf (slot_lt hcur) hx hr]

end Sys2Proof.Machine
end

