-- ==== Sys2Proof/Laws/Decode.lean ====
section
/-! SUPPORT. The word and its fields determine each other (30_encoding.md R130). -/

namespace Sys2Proof

/-- Packing and reading back loses no bit of a field. -/
theorem fieldsOf_packFields {f : Fields} (h1 : f.opc < 256) (h2 : f.inst < 16) (h3 : f.dir < 2) (h4 : f.rsv < 4)
    (h5 : f.lf < 2) (h6 : f.imm < 65536) : fieldsOf (packFields f) = f := by
  have hw : (packFields f).toNat
      = f.opc * 2 ^ 24 + f.inst * 2 ^ 20 + f.dir * 2 ^ 19 + f.rsv * 2 ^ 17 + f.lf * 2 ^ 16 + f.imm := by
    simp only [packFields, BitVec.toNat_ofNat]; omega
  cases f
  simp only [fieldsOf, hw, Fields.mk.injEq] at *
  refine ⟨?_, ?_, ?_, ?_, ?_, ?_⟩ <;> omega

/-- Every bit of a word belongs to a field. -/
theorem packFields_fieldsOf (w : Word) : packFields (fieldsOf w) = w := by
  apply BitVec.eq_of_toNat_eq
  simp only [packFields, fieldsOf, BitVec.toNat_ofNat]
  have := w.isLt
  omega

theorem dirOf_dirBit (d : Dir) : dirOf (dirBit d) = d := by cases d <;> rfl

theorem dirBit_lt (d : Dir) : dirBit d < 2 := by cases d <;> decide

/-- A word whose fields spell an operation decodes to it. -/
theorem decode_of_fields {w : Word} {f : Fields} {i : Instr} (h : fieldsOf w = f) (hd : decodeFields f = .ok i)
    (hr : f.rsv = 0) : decode w = .ok i := by
  unfold decode
  rw [h, hd]
  simp [hr]

/-! A row of the opcode map, field by field (30_encoding.md R136). -/

/-- `&` splits at a bit position. -/
theorem and_split {k a b c d : Nat} (hb : b < 2 ^ k) (hd : d < 2 ^ k) :
    (a * 2 ^ k + b) &&& (c * 2 ^ k + d) = (a &&& c) * 2 ^ k + (b &&& d) := by
  apply Nat.eq_of_testBit_eq
  intro i
  have hbd : b &&& d < 2 ^ k := Nat.and_lt_two_pow _ hd
  simp only [Nat.testBit_and, Nat.mul_comm _ (2 ^ k), Nat.testBit_two_pow_mul_add _ hb,
    Nat.testBit_two_pow_mul_add _ hd, Nat.testBit_two_pow_mul_add _ hbd]
  split <;> simp

/-- `&` of two words' fields. -/
def Fields.and (f g : Fields) : Fields where
  opc := f.opc &&& g.opc
  inst := f.inst &&& g.inst
  dir := f.dir &&& g.dir
  rsv := f.rsv &&& g.rsv
  lf := f.lf &&& g.lf
  imm := f.imm &&& g.imm

/-- Every field fits its width. -/
def Fields.Fit (f : Fields) : Prop := f.opc < 256 ∧ f.inst < 16 ∧ f.dir < 2 ∧ f.rsv < 4 ∧ f.lf < 2 ∧ f.imm < 65536

theorem fieldsOf_fit (w : Word) : (fieldsOf w).Fit := by
  have := w.isLt
  refine ⟨?_, ?_, ?_, ?_, ?_, ?_⟩ <;> simp only [fieldsOf] <;> omega

theorem Fields.and_fit {f g : Fields} (h : f.Fit) : (f.and g).Fit := by
  obtain ⟨h1, h2, h3, h4, h5, h6⟩ := h
  exact ⟨Nat.lt_of_le_of_lt Nat.and_le_left h1, Nat.lt_of_le_of_lt Nat.and_le_left h2,
    Nat.lt_of_le_of_lt Nat.and_le_left h3, Nat.lt_of_le_of_lt Nat.and_le_left h4,
    Nat.lt_of_le_of_lt Nat.and_le_left h5, Nat.lt_of_le_of_lt Nat.and_le_left h6⟩

theorem packFields_toNat {f : Fields} (h : f.Fit) :
    (packFields f).toNat
      = ((((f.opc * 2 ^ 4 + f.inst) * 2 ^ 1 + f.dir) * 2 ^ 2 + f.rsv) * 2 ^ 1 + f.lf) * 2 ^ 16 + f.imm := by
  obtain ⟨h1, h2, h3, h4, h5, h6⟩ := h
  simp only [packFields, BitVec.toNat_ofNat]; omega

theorem packFields_and {f g : Fields} (hf : f.Fit) (hg : g.Fit) : packFields f &&& packFields g = packFields (f.and g) := by
  apply BitVec.eq_of_toNat_eq
  rw [BitVec.toNat_and, packFields_toNat hf, packFields_toNat hg, packFields_toNat (Fields.and_fit hf)]
  obtain ⟨h1, h2, h3, h4, h5, h6⟩ := hf
  obtain ⟨g1, g2, g3, g4, g5, g6⟩ := hg
  rw [and_split (by omega) (by omega), and_split (by omega) (by omega), and_split (by omega) (by omega),
    and_split (by omega) (by omega), and_split (by omega) (by omega)]
  rfl

theorem packFields_inj {f g : Fields} (hf : f.Fit) (hg : g.Fit) : packFields f = packFields g ↔ f = g := by
  constructor
  · intro h
    obtain ⟨h1, h2, h3, h4, h5, h6⟩ := hf
    obtain ⟨g1, g2, g3, g4, g5, g6⟩ := hg
    rw [← fieldsOf_packFields h1 h2 h3 h4 h5 h6, h, fieldsOf_packFields g1 g2 g3 g4 g5 g6]
  · rintro rfl; rfl

/-- A word satisfies a row exactly when its fields, under the row's mask fields, are the row's. -/
theorem OpRow.fits_iff (r : OpRow) (w : Word) :
    r.fits w = true ↔ (fieldsOf w).and (fieldsOf r.mask) = fieldsOf r.pattern := by
  rw [← packFields_inj (Fields.and_fit (fieldsOf_fit w)) (fieldsOf_fit r.pattern),
    ← packFields_and (fieldsOf_fit w) (fieldsOf_fit r.mask), packFields_fieldsOf, packFields_fieldsOf,
    packFields_fieldsOf]
  simp [OpRow.fits]

end Sys2Proof
end

