-- ==== Sys2Proof/Laws/Effect.lean ====
section
/-! SUPPORT. Everything a step can do to the contexts, the memory and the accounting, said once: `exec_effect`. -/

namespace Sys2Proof.Machine

/-- The parameters, the ids, the contexts, the accounting and the memory are equal. -/
def State.Same (s t : State) : Prop :=
  t.cfg = s.cfg ∧ t.nextId = s.nextId ∧ t.ctxs = s.ctxs ∧ t.liveBuffers = s.liveBuffers ∧ t.mem = s.mem

/-- What signals, register accesses, dispatcher phases and events may change of a context: its gates, its registers, its
dispatcher phase and its counters. -/
def Ctx.controlTo (c c' : Ctx) : Prop :=
  ∃ gate evt imask disp handled rf tf,
    c' = { c with gate := gate, evt := evt, imask := imask, disp := disp, handled := handled, rxFaults := rf, txFaults := tf }
      ∧ (c.evt &&& ~~~evAll = 0 → evt &&& ~~~evAll = 0) ∧ (imask = c.imask ∨ imask &&& ~~~evAll = 0)
      ∧ (disp ≠ .idle → c.disp ≠ .idle ∨ c.handler = true)

/-- The parts of the machine a step writes. -/
inductive Part
  | control
  | send
  | drain
  | complete
  | life
  deriving DecidableEq, Repr

/-- What one step on instance `n` may do. -/
inductive Effect (s : State) (n : Nat) : Part → State → Prop
  | quiet {p t} (h : s.Same t) : Effect s n p t
  | control {p c c' t} (hc : s.ctx? n = some c) (hk : c.controlTo c') (h : (s.setCtx n c').Same t) : Effect s n p t
  /-- a copy that a bad address cuts -/
  | cut {p c d bs m tr t} (hc : s.ctx? n = some c) (hd : d ∈ c.desc)
      (hm : c.copyIn s.cfg s.mem d.addr.toNat bs = (m, some tr)) (h : ({ s with mem := m }).Same t) : Effect s n p t
  | send {c d bs m len t} (hc : s.ctx? n = some c) (hl : c.life = .active)
      (hd : s.readDesc c (s.cfg.slot .tx c.cursor.tx) = .ok d) (ho : d.hwOwned = false)
      (hm : c.copyIn s.cfg s.mem d.addr.toNat bs = (m, none)) (hlen : len ≤ s.cfg.bufSize) (hbs : bs.length = len)
      (h : (({ s with mem := m }).setCtx n
        { c.setDesc (s.cfg.slot .tx c.cursor.tx) { d with cs := csTakeWr d.cs, len := BitVec.ofNat 16 len } with
          cursor := { c.cursor with tx := nextCursor s.cfg .tx c.cursor.tx } }).Same t) : Effect s n .send t
  | drain {c d t} (hc : s.ctx? n = some c) (hl : c.life = .active)
      (hd : s.readDesc c (s.cfg.slot .rx c.cursor.rx) = .ok d) (ho : d.hwOwned = false)
      (h : (s.setCtx n
        { c.setDesc (s.cfg.slot .rx c.cursor.rx) { d with cs := csTakeRd d.cs } with
          cursor := { c.cursor with rx := nextCursor s.cfg .rx c.cursor.rx } }).Same t) : Effect s n .drain t
  /-- a receive completion; `w` is the index after it, or the fault of the walk -/
  | filled {c d bs m lf err ev w t} (hc : s.ctx? n = some c) (hen : c.dmaEn.rx = true)
      (hd : s.readDesc c (s.cfg.slot .rx c.hw.rx) = .ok d) (ho : d.hwOwned = true)
      (hm : c.copyIn s.cfg s.mem d.addr.toNat bs = (m, none)) (hlen : bs.length ≤ s.cfg.bufSize)
      (hev : ev &&& ~~~evAll = 0) (hw : nextHw s.cfg .rx c.hw.rx (csRxDone d.cs lf err) = w)
      (h : (({ s with mem := m }).setCtx n
        { c.setDesc (s.cfg.slot .rx c.hw.rx)
            { d with cs := csRxDone d.cs lf err, len := BitVec.ofNat 16 bs.length } with
          evt := evRaise c.evt ev, hw := c.hw.set .rx (w.getD c.hw.rx) }).Same t) : Effect s n .complete t
  /-- a transmit completion or failure -/
  | sent {c d cs ev w t} (hc : s.ctx? n = some c) (hen : c.dmaEn.tx = true)
      (hd : s.readDesc c (s.cfg.slot .tx c.hw.tx) = .ok d) (ho : d.hwOwned = true)
      (hcs : cs = csTxDone d.cs ∨ cs = csTxFail d.cs)
      (hev : ev &&& ~~~evAll = 0) (hw : nextHw s.cfg .tx c.hw.tx cs = w)
      (h : (s.setCtx n
        { c.setDesc (s.cfg.slot .tx c.hw.tx) { d with cs := cs } with
          evt := evRaise c.evt ev, hw := c.hw.set .tx (w.getD c.hw.tx) }).Same t) : Effect s n .complete t
  | born {evt t} (hn : n = s.nextId) (hcap : s.nextId ≠ s.cfg.nInst) (hev : evt &&& ~~~evAll = 0)
      (h : (({ s with nextId := s.nextId + 1 }).setCtx n (Ctx.fresh evt)).Same t) : Effect s n .life t
  | laid {c addrs fill t} (hc : s.ctx? n = some c) (hl : c.life = .allocated)
      (ha : s.cfg.obtain (s.otherBuffers n) s.cfg.slots s.cur.draws.alloc = some addrs)
      (h : (({ s with liveBuffers := s.liveBuffers + s.cfg.slots,
                      mem := s.cfg.fillBuffers s.mem addrs fill }).setCtx n (c.laidOutWith s.cfg addrs)).Same t) :
      Effect s n .life t
  /-- buffers obtained for descriptors that cannot be reached -/
  | stranded {k t} (hk : s.cfg.firstUnreachable 0 s.cfg.slots = some k)
      (h : ({ s with liveBuffers := s.liveBuffers + s.cfg.slots }).Same t) : Effect s n .life t
  | started {c evt t} (hc : s.ctx? n = some c) (hl : c.life = .initialized) (hev : evt &&& ~~~evAll = 0)
      (h : (s.setCtx n (c.activate evt)).Same t) : Effect s n .life t
  | dropped {c t} (hc : s.ctx? n = some c) (hl : c.life = .allocated) (h : (s.dropCtx n).Same t) : Effect s n .life t
  | released {c t} (hc : s.ctx? n = some c) (hl : c.life = .initialized ∨ c.life = .unregistered)
      (h : (s.release n).Same t) : Effect s n .life t
  | stopped {c t} (hc : s.ctx? n = some c) (hl : c.life = .active) (hd : c.disp = .idle)
      (h : (s.setCtx n c.stop).Same t) : Effect s n .life t
  | unregistered {c t} (hc : s.ctx? n = some c) (hl : c.life = .stopped)
      (h : (s.setCtx n { c with life := .unregistered }).Same t) : Effect s n .life t

end Sys2Proof.Machine

namespace Sys2Proof

/-- The parts an operation may write. -/
def Instr.part : Instr → Machine.Part
  | .ringInit _ => .life
  | .descAt _ _ _ => .control
  | .advance _ _ => .control
  | .takeWr _ _ => .send
  | .takeRd _ _ => .drain
  | .wait _ _ => .control
  | .signal _ _ => .control
  | .cancel _ => .control
  | .spuriousWake _ _ _ => .control
  | .read _ _ => .drain
  | .write _ _ => .send
  | .evtRead _ => .control
  | .evtAck _ _ => .control
  | .imaskWrite _ _ => .control
  | .irqDispatch _ => .control
  | .bringup => .life
  | .lookup _ => .control
  | .teardown _ => .life
  | .openInst _ => .control
  | .closeInst => .control
  | .hwRxComplete _ _ _ => .complete
  | .hwRxCompleteErr _ _ _ => .complete
  | .hwRxBusy _ => .control
  | .hwTxComplete _ => .complete
  | .hwTxError _ _ => .complete

/-- The context an operation may write: the one its `INST` names; for BRINGUP the next id, or the one it is bringing up. -/
def Instr.writes (s : Machine.State) (n : Nat) (i : Instr) : Prop :=
  i.namesInstance n = true ∨ (i = .bringup ∧ (n = s.nextId ∨ s.hostOp = .inBringup n))

end Sys2Proof

namespace Sys2Proof.Machine

/-! Steps that leave everything of `Same` alone. -/

theorem State.Same.rfl {s : State} : s.Same s := ⟨Eq.refl _, Eq.refl _, Eq.refl _, Eq.refl _, Eq.refl _⟩

theorem State.same_hold (s : State) : s.Same s.hold := ⟨rfl, rfl, rfl, rfl, rfl⟩
theorem State.same_moved (s : State) : s.Same s.moved := ⟨rfl, rfl, rfl, rfl, rfl⟩
theorem State.same_raise (s : State) (tr : Trap) : s.Same (s.raise tr) := ⟨rfl, rfl, rfl, rfl, rfl⟩
theorem State.same_finish (s : State) (k : Code) (v : Value) : s.Same (s.finish k v) :=
  ⟨by simp, by simp, by simp, by simp, by simp⟩
theorem State.same_setThr (s : State) (t : Nat) (th : Thread) : s.Same (s.setThr t th) := ⟨rfl, rfl, rfl, rfl, rfl⟩

theorem State.Same.trans {s t u : State} (h : s.Same t) (g : t.Same u) : s.Same u := by
  obtain ⟨h1, h2, h3, h4, h5⟩ := h
  obtain ⟨g1, g2, g3, g4, g5⟩ := g
  exact ⟨g1.trans h1, g2.trans h2, g3.trans h3, g4.trans h4, g5.trans h5⟩

theorem State.same_inPhase (s : State) (k : CallKind) (n : Nat) (d : Dir) (ph : SubPhase) (len : Nat) :
    s.Same (s.inPhase k n d ph len) := ⟨rfl, rfl, rfl, rfl, rfl⟩
theorem State.same_callReturn (s : State) (c : Code) (v : Nat) : s.Same (s.callReturn c v) :=
  (s.same_setThr _ _).trans (State.same_finish _ _ _)
theorem State.same_waitDone (s : State) (k : CallKind) (n : Nat) (d : Dir) (len : Nat) :
    s.Same (s.waitDone k n d len) := by
  cases k
  · exact s.same_inPhase ..
  · exact s.same_inPhase ..
  · exact s.same_callReturn ..

/-! One lemma per shared operation. -/

theorem State.issue_effect {s t : State} {cls : OpClass} {k : Bool → Out} {n : Nat} {p : Part}
    (hk : ∀ b, k b = .next t → Effect s n p t) (h : s.issue cls k = .next t) : Effect s n p t := by
  rcases State.issue_next h with ⟨_, rfl⟩ | ⟨_, _, h⟩ | ⟨_, _, h⟩
  · exact .quiet s.same_hold
  · exact hk _ h
  · exact hk _ h

theorem State.orRaise_effect {α : Type} {s t : State} {x : Except Trap α} {k : α → Out} {n : Nat} {p : Part}
    (hk : ∀ a, x = .ok a → k a = .next t → Effect s n p t) (h : s.orRaise x k = .next t) : Effect s n p t := by
  rcases State.orRaise_next h with ⟨tr, _, rfl⟩ | ⟨a, hx, h⟩
  · exact .quiet (s.same_raise tr)
  · exact hk a hx h

theorem next_inj {s t : State} (h : (Host.Outcome.next s : Out) = .next t) : s = t := by cases h; rfl

theorem Ctx.controlTo_gate (c : Ctx) (g : PerDir (List Nat)) : c.controlTo { c with gate := g } :=
  ⟨g, c.evt, c.imask, c.disp, c.handled, c.rxFaults, c.txFaults, rfl, id, .inl rfl, .inl⟩

theorem Ctx.controlTo_evt (c : Ctx) {e : Half} (h : c.evt &&& ~~~evAll = 0 → e &&& ~~~evAll = 0) :
    c.controlTo { c with evt := e } :=
  ⟨c.gate, e, c.imask, c.disp, c.handled, c.rxFaults, c.txFaults, rfl, h, .inl rfl, .inl⟩

theorem and_evAll_reserved (v : Half) : (v &&& evAll) &&& ~~~evAll = 0 := by
  rw [BitVec.and_assoc]
  simp

theorem State.regWrite_controlTo {s : State} {c c' : Ctx} {off w : Nat} {v : Half}
    (h : s.regWrite c off w v = .ok c') : c.controlTo c' := by
  rcases State.regWrite_cases h with rfl | rfl
  · exact c.controlTo_evt fun he => evAck_reserved v he
  · exact ⟨c.gate, c.evt, v &&& evAll, c.disp, c.handled, c.rxFaults, c.txFaults, rfl, id,
      .inr (and_evAll_reserved v), .inl⟩

theorem State.writeRegister_effect {s t : State} {n off : Nat} {v : Half} {p : Part}
    (h : s.writeRegister n off v = .next t) : Effect s n p t := by
  refine State.issue_effect (fun _ => State.orRaise_effect fun c hc => State.orRaise_effect fun c' hw h => ?_) h
  cases h
  exact .control (State.laidOutCtx_ok.mp hc).1 (State.regWrite_controlTo hw) (State.same_finish _ _ _)

theorem TakeEnd_trapped_inj {s t : State} (h : TakeEnd.trapped s = .trapped t) : s = t := by cases h; rfl

/-- What a TAKE_WR that ends in the state `t` has done. -/
theorem State.takeWrite_effect {s t : State} {n len : Nat} {b : Bool}
    (h : s.takeWrite n len b = .trapped t ∨ ∃ k, s.takeWrite n len b = .took t k) : Effect s n .send t := by
  rcases s.takeWrite_cases n len b with ⟨tr, he⟩ | ⟨c, d, m, tr, hc, hd, _, hm, he⟩ | ⟨c, d, _, _, _, he⟩
      | ⟨c, d, m, hc, hd, ho, hm, he⟩ <;> rw [he] at h
  · rcases h with h | ⟨k, h⟩ <;> cases h
    exact .quiet (s.same_raise tr)
  · rcases h with h | ⟨k, h⟩ <;> cases h
    exact .cut (State.callCtx_ok.mp hc).1 (List.mem_of_getElem? (State.readDesc_ok.mp hd).2.1) hm (State.same_raise _ _)
  · rcases h with h | ⟨k, h⟩ <;> cases h
  · rcases h with h | ⟨k, h⟩ <;> cases h
    obtain ⟨hc, _, hl⟩ := State.callCtx_ok.mp hc
    exact .send hc hl hd ho hm (by simp [writeLen]) (by simp [writeLen]) .rfl

/-- What a TAKE_RD that ends in the state `t` has done. -/
theorem State.takeRead_effect {s t : State} {n len : Nat} {b : Bool}
    (h : s.takeRead n len b = .trapped t ∨ ∃ k, s.takeRead n len b = .took t k) : Effect s n .drain t := by
  rcases s.takeRead_cases n len b with ⟨tr, he⟩ | ⟨c, d, _, _, _, he⟩ | ⟨c, d, bs, hc, hd, ho, _, he⟩ <;> rw [he] at h
  · rcases h with h | ⟨k, h⟩ <;> cases h
    exact .quiet (s.same_raise tr)
  · rcases h with h | ⟨k, h⟩ <;> cases h
  · rcases h with h | ⟨k, h⟩ <;> cases h
    obtain ⟨hc, _, hl⟩ := State.callCtx_ok.mp hc
    exact .drain hc hl hd ho (State.same_setThr _ _ _)

/-- An effect goes on through a step that leaves everything of `Same` alone. -/
theorem Effect.same {s t u : State} {n : Nat} {p : Part} (h : Effect s n p t) (g : t.Same u) : Effect s n p u := by
  cases h with
  | quiet h => exact .quiet (h.trans g)
  | control hc hk h => exact .control hc hk (h.trans g)
  | cut hc hd hm h => exact .cut hc hd hm (h.trans g)
  | send hc hl hd ho hm hlen hbs h => exact .send hc hl hd ho hm hlen hbs (h.trans g)
  | drain hc hl hd ho h => exact .drain hc hl hd ho (h.trans g)
  | filled hc hen hd ho hm hlen hev hw h => exact .filled hc hen hd ho hm hlen hev hw (h.trans g)
  | sent hc hen hd ho hcs hev hw h => exact .sent hc hen hd ho hcs hev hw (h.trans g)
  | born hn hcap hev h => exact .born hn hcap hev (h.trans g)
  | laid hc hl ha h => exact .laid hc hl ha (h.trans g)
  | stranded hk h => exact .stranded hk (h.trans g)
  | started hc hl hev h => exact .started hc hl hev (h.trans g)
  | dropped hc hl h => exact .dropped hc hl (h.trans g)
  | released hc hl h => exact .released hc hl (h.trans g)
  | stopped hc hl hd h => exact .stopped hc hl hd (h.trans g)
  | unregistered hc hl h => exact .unregistered hc hl (h.trans g)

/-- The part the take of a call writes. -/
def CallKind.part : CallKind → Part
  | .read => .drain
  | .write => .send
  | .wait => .control

theorem State.callEntry_effect {s t : State} {k : CallKind} {n : Nat} {d : Dir} {len : Nat} {b : Bool} {p : Part}
    (h : s.callEntry k n d len b = .next t) : Effect s n p t := by
  refine State.orRaise_effect (fun c _ => State.orRaise_effect fun q _ h => ?_) h
  cases q <;> cases h
  · exact .quiet (s.same_inPhase ..)
  · exact .quiet (s.same_waitDone ..)

theorem State.callPrep_effect {s t : State} {k : CallKind} {n : Nat} {d : Dir} {len : Nat} {p : Part}
    (h : s.callPrep k n d len = .next t) : Effect s n p t := by
  unfold State.callPrep at h
  cases hc : s.ctx? n with
  | none => simp only [hc] at h; cases h; exact .quiet (s.same_raise _)
  | some c =>
    simp only [hc] at h
    rcases State.orRaise_next h with ⟨tr, _, rfl⟩ | ⟨q, _, h⟩
    · exact .control hc (c.controlTo_gate _) (State.same_raise _ _)
    · split at h
      · cases h; exact .control hc (c.controlTo_gate _) (State.same_waitDone _ _ _ _ _)
      · split at h
        · cases h
          exact .control hc (c.controlTo_gate _) ((State.same_setThr _ _ _).trans (State.same_callReturn _ _ _))
        · cases h; exact .control hc (c.controlTo_gate _) (State.same_inPhase _ _ _ _ _ _)

theorem State.callTake_effect {s t : State} {k : CallKind} {n : Nat} {d : Dir} {len : Nat}
    (h : s.callTake k n d len = .next t) : Effect s n k.part t := by
  unfold State.callTake at h
  cases he : s.takeOf k n len with
  | notReady => simp only [he] at h; cases h; exact .quiet (s.same_inPhase ..)
  | trapped u =>
    simp only [he] at h; cases h
    cases k with
    | read => exact State.takeRead_effect (.inl he)
    | write => exact State.takeWrite_effect (.inl he)
    | wait => cases he
  | took u v =>
    simp only [he] at h
    have h := next_inj h
    subst h
    cases k with
    | read => exact (State.takeRead_effect (.inr ⟨v, he⟩)).same (State.same_callReturn _ _ _)
    | write => exact (State.takeWrite_effect (.inr ⟨v, he⟩)).same (State.same_callReturn _ _ _)
    | wait => cases he

theorem State.blockingCall_effect {s t : State} {k : CallKind} {n : Nat} {d : Dir} {len : Nat}
    (h : s.blockingCall k n d len = .next t) : Effect s n k.part t := by
  unfold State.blockingCall at h
  split at h
  · cases h
  · exact State.callEntry_effect h
  · split at h
    · exact State.callEntry_effect h
    · split at h
      · unfold State.callPhase at h
        split at h
        · exact State.callEntry_effect h
        · exact State.callPrep_effect h
        · unfold State.callSleep at h
          split at h <;> cases h
          · exact .quiet s.same_hold
          · exact .quiet (s.same_inPhase ..)
        · exact State.callTake_effect h
      · cases h; exact .quiet s.same_hold

theorem State.takeAlone_effect {s t : State} {n : Nat} {p : Part} {e : TakeEnd}
    (he : ∀ u, (e = .trapped u ∨ ∃ k, e = .took u k) → Effect s n p u) (h : s.takeAlone e = .next t) :
    Effect s n p t := by
  cases e with
  | notReady => cases h; exact .quiet (s.same_finish _ _)
  | took u k => cases h; exact (he u (.inr ⟨k, rfl⟩)).same (State.same_finish _ _ _)
  | trapped u => cases h; exact he _ (.inl rfl)

/-- A receive completion. -/
theorem State.rxComplete_effect {s t : State} {n : Nat} {lf err : Bool} {count : Nat}
    (h : s.rxComplete n lf err count = .next t) : Effect s n .complete t := by
  rcases State.engine_next h with rfl | ⟨tr, rfl⟩ | ⟨c, d, hc, hen, hd, h⟩
  · exact .quiet s.same_hold
  · exact .quiet (s.same_raise tr)
  · split at h
    · next ho =>
      cases hx : s.rxData n lf err count with
      | none => simp only [hx] at h; cases h; exact .quiet s.same_hold
      | some p =>
        obtain ⟨bs, s1⟩ := p
        have hs : bs.length = count ∧ ∃ lp, s1 = { s with linePending := lp } := by
          unfold State.rxData at hx
          split at hx
          · split at hx
            · cases hx
            · split at hx
              · next hb => cases hx; exact ⟨hb.1, _, rfl⟩
              · cases hx
          · split at hx
            · next hb => cases hx; exact ⟨hb, s.linePending, rfl⟩
            · cases hx
        obtain ⟨hlen, lp, rfl⟩ := hs
        simp only [hx] at h
        rcases hm : c.copyIn s.cfg s.mem d.addr.toNat bs with ⟨m, tr⟩
        cases tr with
        | some tr =>
          simp only [hm] at h; cases h
          exact .cut hc (List.mem_of_getElem? (State.readDesc_ok.mp hd).2.1) hm ⟨rfl, rfl, rfl, rfl, rfl⟩
        | none =>
          simp only [hm, State.walkOn] at h
          subst hlen
          cases hw : nextHw s.cfg .rx c.hw.rx (csRxDone d.cs lf err) with
          | none =>
            simp only [hw] at h; cases h
            exact .filled (lf := lf) (err := err) hc hen hd ho.1 hm ho.2 (evRxDone_reserved d.irq lf) hw
              ⟨rfl, rfl, rfl, rfl, rfl⟩
          | some w =>
            simp only [hw] at h; cases h
            exact .filled (lf := lf) (err := err) hc hen hd ho.1 hm ho.2 (evRxDone_reserved d.irq lf) hw
              ⟨rfl, rfl, rfl, rfl, rfl⟩
    · cases h; exact .quiet s.same_hold

/-- The end of a transmit step. -/
theorem walkOn_effect {s u t : State} {n : Nat} {c : Ctx} {d : Desc} {cs ev : Half} (hc : s.ctx? n = some c)
    (hen : c.dmaEn.tx = true) (hd : s.readDesc c (s.cfg.slot .tx c.hw.tx) = .ok d) (ho : d.hwOwned = true)
    (hcs : cs = csTxDone d.cs ∨ cs = csTxFail d.cs) (hev : ev &&& ~~~evAll = 0) (hu : s.Same u)
    (h : u.walkOn n { c.setDesc (s.cfg.slot .tx c.hw.tx) { d with cs := cs } with evt := evRaise c.evt ev } .tx
      c.hw.tx cs = .next t) : Effect s n .complete t := by
  obtain ⟨h1, h2, h3, h4, h5⟩ := hu
  unfold State.walkOn at h
  rw [h1] at h
  cases hw : nextHw s.cfg .tx c.hw.tx cs with
  | none =>
    simp only [hw] at h; cases h
    exact .sent hc hen hd ho hcs hev hw ⟨h1, h2, by simp [State.raise, State.setCtx, h3]; rfl, h4, h5⟩
  | some w =>
    simp only [hw] at h; cases h
    exact .sent hc hen hd ho hcs hev hw ⟨h1, h2, by simp [State.moved, State.say, State.setCtx, h3]; rfl, h4, h5⟩

theorem execHwTxComplete_effect {s t : State} {n : Nat} (h : execHwTxComplete n s = .next t) :
    Effect s n .complete t := by
  rcases State.engine_next h with rfl | ⟨tr, rfl⟩ | ⟨c, d, hc, hen, hd, h⟩
  · exact .quiet s.same_hold
  · exact .quiet (s.same_raise tr)
  · split at h
    · next ho =>
      refine State.orRaise_effect (fun bs _ h => ?_) h
      exact walkOn_effect (u := { s with
        lineOut := s.lineOut ++ [TxRecord.mk n bs false]
        linePending := if s.cfg.loopback then s.linePending ++ [(n, bs)] else s.linePending })
        hc hen hd ho (.inl rfl) (evTxDone_reserved d.irq) ⟨rfl, rfl, rfl, rfl, rfl⟩ h
    · cases h; exact .quiet s.same_hold

theorem execHwTxError_effect {s t : State} {n sent : Nat} (h : execHwTxError n sent s = .next t) :
    Effect s n .complete t := by
  rcases State.engine_next h with rfl | ⟨tr, rfl⟩ | ⟨c, d, hc, hen, hd, h⟩
  · exact .quiet s.same_hold
  · exact .quiet (s.same_raise tr)
  · split at h
    · next ho =>
      refine State.orRaise_effect (fun bs _ h => ?_) h
      exact walkOn_effect (u := { s with lineOut := s.lineOut ++ [TxRecord.mk n bs true] }) (ev := evTxe)
        hc hen hd ho.1 (.inr rfl) (by decide) ⟨rfl, rfl, rfl, rfl, rfl⟩ h
    · cases h; exact .quiet s.same_hold

theorem execHwRxBusy_effect {s t : State} {n : Nat} {p : Part} (h : execHwRxBusy n s = .next t) : Effect s n p t := by
  rcases State.engine_next h with rfl | ⟨tr, rfl⟩ | ⟨c, d, hc, hen, hd, h⟩
  · exact .quiet s.same_hold
  · exact .quiet (s.same_raise tr)
  · have hk : c.controlTo { c with evt := evRaise c.evt evBsy } :=
      c.controlTo_evt fun he => evRaise_reserved he (by decide)
    split at h
    · cases h; exact .quiet s.same_hold
    · split at h
      · split at h
        · cases h; exact .quiet s.same_hold
        · cases h; exact .control hc hk ⟨rfl, rfl, rfl, rfl, rfl⟩
      · cases h; exact .control hc hk ⟨rfl, rfl, rfl, rfl, rfl⟩

/-- Phase `Reading`, from the context `c` or from its start. -/
theorem State.dispatchRead_effect {s t : State} {n : Nat} {c c1 : Ctx} {p : Part} (hc : s.ctx? n = some c)
    (h1 : c1 = c ∧ c.disp ≠ .idle ∨ c1 = { c with handled := false, disp := .reading } ∧ c.handler = true)
    (h : s.dispatchRead n c1 = .next t) : Effect s n p t := by
  rcases State.orRaise_next h with ⟨tr, _, rfl⟩ | ⟨m, _, h⟩
  · refine .control hc ?_ (State.same_raise _ _)
    rcases h1 with ⟨rfl, hd⟩ | ⟨rfl, hh⟩
    · exact ⟨c1.gate, c1.evt, c1.imask, c1.disp, c1.handled, c1.rxFaults, c1.txFaults, rfl, id, .inl rfl, .inl⟩
    · exact ⟨c.gate, c.evt, c.imask, .reading, false, c.rxFaults, c.txFaults, rfl, id, .inl rfl, fun _ => .inr hh⟩
  split at h
  · cases h
    refine .control hc ?_ (State.same_finish _ _ _)
    rcases h1 with ⟨rfl, _⟩ | ⟨rfl, _⟩
    · exact ⟨c1.gate, c1.evt, c1.imask, .idle, c1.handled, c1.rxFaults, c1.txFaults, rfl, id, .inl rfl,
        fun h => absurd rfl h⟩
    · exact ⟨c.gate, c.evt, c.imask, .idle, false, c.rxFaults, c.txFaults, rfl, id, .inl rfl, fun h => absurd rfl h⟩
  · cases h
    refine .control hc ?_ (State.same_moved _)
    rcases h1 with ⟨rfl, hd⟩ | ⟨rfl, hh⟩
    · exact ⟨c1.gate, c1.evt, c1.imask, .acking m, true, c1.rxFaults, c1.txFaults, rfl, id, .inl rfl,
        fun _ => .inl hd⟩
    · exact ⟨c.gate, c.evt, c.imask, .acking m, true, c.rxFaults, c.txFaults, rfl, id, .inl rfl, fun _ => .inr hh⟩

theorem Ctx.signalHits_eq (c : Ctx) (m : Half) : ∃ g, c.signalHits m = { c with gate := g } := by
  unfold Ctx.signalHits Ctx.wakeAll
  cases rxHit m <;> cases txHit m
  · exact ⟨c.gate, rfl⟩
  · exact ⟨_, rfl⟩
  · exact ⟨_, rfl⟩
  · exact ⟨_, rfl⟩

theorem execIrqDispatch_effect {s t : State} {n : Nat} {p : Part} (h : execIrqDispatch n s = .next t) :
    Effect s n p t := by
  refine State.issue_effect (fun ok h => ?_) h
  cases hc : s.ctx? n with
  | none => simp only [hc] at h; cases h; exact .quiet (s.same_raise _)
  | some c =>
    simp only [hc] at h
    cases ok with
    | false => cases h; exact .quiet (s.same_raise _)
    | true =>
      simp only [if_true] at h
      cases hd : c.disp with
      | idle =>
        simp only [hd] at h
        split at h
        · next hh => exact State.dispatchRead_effect hc (.inr ⟨rfl, hh⟩) h
        · cases h; exact .quiet s.same_hold
      | reading =>
        simp only [hd] at h
        exact State.dispatchRead_effect hc (.inl ⟨rfl, by simp [hd]⟩) h
      | acking m =>
        simp only [hd] at h
        refine State.orRaise_effect (fun c' hw h => ?_) h
        cases h
        refine .control hc ?_ (State.same_moved _)
        obtain ⟨g, e, i, d, hd', rf, tf, rfl, h1, h2, _⟩ := State.regWrite_controlTo hw
        exact ⟨g, e, i, .signalling m, hd', rf, tf, rfl, h1, h2, fun _ => .inl (by simp [hd])⟩
      | signalling m =>
        simp only [hd] at h
        cases h
        refine .control hc ?_ (State.same_moved _)
        obtain ⟨g, hg⟩ := Ctx.signalHits_eq (c.countFaults m) m
        rw [hg]
        exact ⟨g, c.evt, c.imask, .reading, c.handled, _, _, rfl, id, .inl rfl, fun _ => .inl (by simp [hd])⟩

theorem State.evtDraw_reserved (s : State) : s.cur.draws.evtDraw &&& ~~~evAll = 0 := and_evAll_reserved _

theorem State.bringupLayOut_effect {s t : State} {id : Nat} {c : Ctx} (hc : s.ctx? id = some c)
    (hl : c.life = .allocated) (h : s.bringupLayOut id c = .next t) : Effect s id .life t := by
  unfold State.bringupLayOut at h
  rcases s.layOut_cases id c with he | ⟨k, hk, he⟩ | ⟨addrs, ha, he⟩ <;> rw [he] at h <;> cases h
  · exact .dropped hc hl ((show State.Same _ _ from ⟨rfl, rfl, rfl, rfl, rfl⟩).trans (State.same_finish _ _ _))
  · exact .stranded hk (State.same_raise _ _)
  · exact .laid hc hl ha (State.same_moved _)

theorem execRingInit_effect {s t : State} {n : Nat} (h : execRingInit n s = .next t) : Effect s n .life t := by
  unfold execRingInit at h
  split at h
  · cases h
  · cases h; exact .quiet (s.same_raise _)
  · split at h
    · unfold State.ringInitAlone at h
      cases hc : s.ctx? n with
      | none => simp only [hc] at h; cases h; exact .quiet (s.same_raise _)
      | some c =>
        simp only [hc] at h
        split at h
        · next hl =>
          rcases s.layOut_cases n c with he | ⟨k, hk, he⟩ | ⟨addrs, ha, he⟩ <;> rw [he] at h <;> cases h
          · exact .quiet (s.same_finish _ _)
          · exact .stranded hk (State.same_raise _ _)
          · exact .laid hc hl ha (State.same_finish _ _ _)
        · cases h; exact .quiet (s.same_raise _)
    · next id _ =>
      cases hc : s.ctx? id with
      | none => simp only [hc] at h; cases h; exact .quiet s.same_hold
      | some c =>
        simp only [hc] at h
        split at h
        · next hi => obtain ⟨rfl, hl⟩ := hi; exact State.bringupLayOut_effect hc hl h
        · cases h; exact .quiet s.same_hold
    · cases h; exact .quiet s.same_hold

theorem execBringup_effect {s t : State} (h : execBringup s = .next t) :
    ∃ n, (n = s.nextId ∨ s.hostOp = .inBringup n) ∧ Effect s n .life t := by
  unfold execBringup at h
  split at h
  · cases h
  · cases h; exact ⟨_, .inl rfl, .quiet (s.same_raise _)⟩
  · split at h
    · refine ⟨_, .inl rfl, ?_⟩
      unfold State.bringupAllocate at h
      split at h
      · cases h; exact .quiet (s.same_finish _ _)
      · next hcap => cases h; exact .born rfl hcap s.evtDraw_reserved ⟨rfl, rfl, rfl, rfl, rfl⟩
    · next id hid =>
      refine ⟨id, .inr hid, ?_⟩
      cases hc : s.ctx? id with
      | none => simp only [hc] at h; cases h; exact .quiet s.same_hold
      | some c =>
        simp only [hc] at h
        cases hl : c.life with
        | allocated => simp only [hl] at h; exact State.bringupLayOut_effect hc hl h
        | initialized =>
          simp only [hl, State.bringupActivate] at h
          split at h <;> cases h
          · exact .started hc hl s.evtDraw_reserved
              ((show State.Same _ _ from ⟨rfl, rfl, rfl, rfl, rfl⟩).trans (State.same_finish _ _ _))
          · exact .released hc (.inl hl)
              ((show State.Same _ _ from ⟨rfl, rfl, rfl, rfl, rfl⟩).trans (State.same_finish _ _ _))
        | active => simp only [hl] at h; cases h; exact .quiet s.same_hold
        | stopped => simp only [hl] at h; cases h; exact .quiet s.same_hold
        | unregistered => simp only [hl] at h; cases h; exact .quiet s.same_hold
        | released => simp only [hl] at h; cases h; exact .quiet s.same_hold
    · cases h; exact ⟨_, .inl rfl, .quiet s.same_hold⟩

theorem execTeardown_effect {s t : State} {n : Nat} (h : execTeardown n s = .next t) : Effect s n .life t := by
  unfold execTeardown at h
  split at h
  · cases h
  · refine State.orRaise_effect (fun c _ h => ?_) h
    cases h; exact .quiet (s.same_raise _)
  · split at h
    · refine State.orRaise_effect (fun c hc h => ?_) h
      obtain ⟨hc, hl⟩ := State.activeCtx_ok.mp hc
      split at h
      · next hd =>
        split at h <;> cases h
        · exact .quiet (s.same_raise _)
        · exact .stopped hc hl hd ⟨rfl, rfl, rfl, rfl, rfl⟩
      · cases h; exact .quiet s.same_hold
    · cases h; exact .quiet s.same_hold
    · split at h
      · next id err _ hid =>
        subst hid
        cases hc : s.ctx? id with
        | none => simp only [hc] at h; cases h; exact .quiet s.same_hold
        | some c =>
          simp only [hc] at h
          cases hl : c.life with
          | stopped => simp only [hl] at h; cases h; exact .unregistered hc hl ⟨rfl, rfl, rfl, rfl, rfl⟩
          | unregistered =>
            simp only [hl] at h; cases h
            exact .released hc (.inr hl)
              ((show State.Same _ _ from ⟨rfl, rfl, rfl, rfl, rfl⟩).trans (State.same_finish _ _ _))
          | active => simp only [hl] at h; cases h; exact .quiet s.same_hold
          | initialized => simp only [hl] at h; cases h; exact .quiet s.same_hold
          | allocated => simp only [hl] at h; cases h; exact .quiet s.same_hold
          | released => simp only [hl] at h; cases h; exact .quiet s.same_hold
      · cases h; exact .quiet s.same_hold

/-- Everything a step can do: every operation that answers a next state has one of the effects, in its own part, on the
context it may write. -/
theorem exec_effect {i : Instr} {s t : State} (h : exec i s = .next t) :
    s.Same t ∨ ∃ n, i.writes s n ∧ Effect s n i.part t := by
  cases i with
  | ringInit n => exact .inr ⟨n, .inl (by simp [Instr.namesInstance]), execRingInit_effect h⟩
  | descAt n d k =>
    refine .inr ⟨n, .inl (by simp [Instr.namesInstance]), State.issue_effect (fun _ => State.orRaise_effect fun c _ h => ?_) h⟩
    split at h
    · cases h; exact .quiet (s.same_raise _)
    · refine State.orRaise_effect (fun x _ h => ?_) h
      cases h; exact .quiet (s.same_finish _ _)
  | advance d k =>
    left
    simp only [exec, execAdvance] at h
    rcases State.issue_next h with ⟨_, rfl⟩ | ⟨_, _, h⟩ | ⟨_, _, h⟩
    · exact s.same_hold
    all_goals
      split at h <;> cases h
      · exact s.same_raise _
      · exact s.same_finish _ _
  | takeWr n m =>
    refine .inr ⟨n, .inl (by simp [Instr.namesInstance]), ?_⟩
    simp only [exec, execTakeWr] at h
    split at h
    · exact State.callTake_effect h
    · exact State.issue_effect (fun b h => State.takeAlone_effect (fun u hu => State.takeWrite_effect hu) h) h
  | takeRd n m =>
    refine .inr ⟨n, .inl (by simp [Instr.namesInstance]), ?_⟩
    simp only [exec, execTakeRd] at h
    split at h
    · exact State.callTake_effect h
    · exact State.issue_effect (fun b h => State.takeAlone_effect (fun u hu => State.takeRead_effect hu) h) h
  | wait n d => exact .inr ⟨n, .inl (by simp [Instr.namesInstance]), State.blockingCall_effect h⟩
  | signal n d =>
    refine .inr ⟨n, .inl (by simp [Instr.namesInstance]), State.issue_effect (fun _ => State.orRaise_effect fun c hc h => ?_) h⟩
    cases h
    exact .control (State.laidOutCtx_ok.mp hc).1 (c.controlTo_gate _) (State.same_finish _ _ _)
  | cancel u =>
    left
    simp only [exec, execCancel] at h
    rcases State.issue_next h with ⟨_, rfl⟩ | ⟨_, _, h⟩ | ⟨_, _, h⟩
    · exact s.same_hold
    all_goals
      split at h <;> cases h
      · exact (s.same_setThr _ _).trans (State.same_finish _ _ _)
      · exact s.same_raise _
  | spuriousWake n d u =>
    simp only [exec, execSpuriousWake] at h
    refine .inr ⟨n, .inl (by simp [Instr.namesInstance]), State.issue_effect (fun _ h => ?_) h⟩
    cases hc : s.ctx? n with
    | none => simp only [hc] at h; cases h; exact .quiet (s.same_raise _)
    | some c =>
      simp only [hc] at h
      split at h <;> cases h
      · exact .control hc (c.controlTo_gate _) (State.same_moved _)
      · exact .quiet s.same_hold
  | read n m => exact .inr ⟨n, .inl (by simp [Instr.namesInstance]), State.blockingCall_effect h⟩
  | write n m => exact .inr ⟨n, .inl (by simp [Instr.namesInstance]), State.blockingCall_effect h⟩
  | evtRead n =>
    simp only [exec, execEvtRead] at h
    refine .inr ⟨n, .inl (by simp [Instr.namesInstance]), State.issue_effect (fun _ => State.orRaise_effect fun c _ => State.orRaise_effect
      fun v _ h => ?_) h⟩
    cases h; exact .quiet (s.same_finish _ _)
  | evtAck n m => exact .inr ⟨n, .inl (by simp [Instr.namesInstance]), State.writeRegister_effect h⟩
  | imaskWrite n v => exact .inr ⟨n, .inl (by simp [Instr.namesInstance]), State.writeRegister_effect h⟩
  | irqDispatch n => exact .inr ⟨n, .inl (by simp [Instr.namesInstance]), execIrqDispatch_effect h⟩
  | bringup =>
    obtain ⟨n, hn, he⟩ := execBringup_effect h
    exact .inr ⟨n, .inr ⟨rfl, hn⟩, he⟩
  | lookup n =>
    refine .inr ⟨n, .inl (by simp [Instr.namesInstance]), State.issue_effect (fun _ => State.orRaise_effect fun c _ h => ?_) h⟩
    cases h; exact .quiet (s.same_finish _ _)
  | teardown n => exact .inr ⟨n, .inl (by simp [Instr.namesInstance]), execTeardown_effect h⟩
  | openInst n =>
    simp only [exec, execOpenInst] at h
    refine .inr ⟨n, .inl (by simp [Instr.namesInstance]), State.issue_effect (fun _ => State.orRaise_effect fun c _ => State.orRaise_effect
      fun _ _ h => ?_) h⟩
    cases h; exact .quiet ((s.same_setThr _ _).trans (State.same_finish _ _ _))
  | closeInst =>
    left
    simp only [exec, execCloseInst] at h
    rcases State.issue_next h with ⟨_, rfl⟩ | ⟨_, _, h⟩ | ⟨_, _, h⟩
    · exact s.same_hold
    all_goals
      rcases State.orRaise_next h with ⟨tr, _, rfl⟩ | ⟨_, _, h⟩
      · exact s.same_raise _
      · cases h; exact (s.same_setThr _ _).trans (State.same_finish _ _ _)
  | hwRxComplete n lf k => exact .inr ⟨n, .inl (by simp [Instr.namesInstance]), State.rxComplete_effect h⟩
  | hwRxCompleteErr n lf k => exact .inr ⟨n, .inl (by simp [Instr.namesInstance]), State.rxComplete_effect h⟩
  | hwRxBusy n => exact .inr ⟨n, .inl (by simp [Instr.namesInstance]), execHwRxBusy_effect h⟩
  | hwTxComplete n => exact .inr ⟨n, .inl (by simp [Instr.namesInstance]), execHwTxComplete_effect h⟩
  | hwTxError n k => exact .inr ⟨n, .inl (by simp [Instr.namesInstance]), execHwTxError_effect h⟩

end Sys2Proof.Machine
end

