-- ==== Sys2Proof/Laws/Fair.lean ====
section
/-! SUPPORT. The fairness assumptions can be met: a fair run from reset. -/

namespace Sys2Proof.Machine

/-- Thread 0 issues `ADVANCE rx, 0`. -/
def advancing : Entry := ⟨.thread 0, 0x03000000, Draws.plain⟩

/-- The state after that, from reset on. -/
def advanced : State :=
  { State.reset with
    threads := State.reset.threads.put 0 { Thread.initial with ret := ⟨.ok, .num 1⟩ }
    cur := advancing
    out := .result ⟨.ok, .num 1⟩ }

/-- Reset, then that state for ever. -/
def advancingRun (k : Nat) : State := if k = 0 then State.reset else advanced

theorem advancingRun_all {P : State → Prop} (h0 : P State.reset) (h1 : P advanced) (k : Nat) : P (advancingRun k) := by
  unfold advancingRun; split <;> assumption

theorem driverLoad_idle (cfg : Config) (t : Nat) : ((State.driverLoad cfg).thr t).phase = .idle := by
  simp only [State.thr, State.driverLoad]
  induction cfg.threads with
  | nil => rfl
  | cons u us ih =>
    simp only [List.map_cons, Table.lookup]
    split
    · rfl
    · exact ih

theorem advanced_idle (t : Nat) : (advanced.thr t).phase = .idle := by
  by_cases h : t = 0
  · subst h; rfl
  · exact (congrArg Thread.phase (State.thr_setThr_ne State.reset { Thread.initial with ret := ⟨.ok, .num 1⟩ } h)).trans
      (driverLoad_idle _ _)

/-- 70_reset_and_hazards.md R520: the fairness assumptions are met by some run from reset, so a claim that has them as its
premise is about something. No instance exists on it, so no engine is owed a step (42_dma_engine.md R240). -/
theorem fairRun_exists : FairRun advancingRun (fun _ => advancing) ∧ advancingRun 0 = State.reset := by
  have noCtx (k n : Nat) : (advancingRun k).ctx? n = none :=
    advancingRun_all (P := fun s => s.ctx? n = none) rfl rfl k
  have host (k : Nat) : (advancingRun k).hostOp = .idle := advancingRun_all (P := fun s => s.hostOp = .idle) rfl rfl k
  have idle (k t : Nat) : ((advancingRun k).thr t).phase = .idle :=
    advancingRun_all (P := fun s => (s.thr t).phase = .idle) (driverLoad_idle _ t) (advanced_idle t) k
  have off {cond cls} (h : ∀ k, ¬ cond (advancingRun k)) : WeaklyFairWhile advancingRun (fun _ => advancing) cond cls :=
    fun k hk => absurd (hk k le_rfl).1 (h k)
  refine ⟨⟨fun k => ?_, fun n => off fun k => ?_, fun n => off fun k => ?_, fun n => off fun k => ?_, off fun k => ?_,
    fun n k hw => ?_, fun t => off fun k => ?_⟩, rfl⟩
  · exact advancingRun_all (P := fun s => s.perform advancing = .next advanced) rfl rfl k
  · simp [State.engineOn, noCtx]
  · simp [State.engineOn, noCtx]
  · simp [State.dispatchDue, noCtx]
  · simp [host]
  · obtain ⟨c, hc, _⟩ := hw.2 k le_rfl
    simp [noCtx] at hc
  · simp [idle]

end Sys2Proof.Machine
end

