-- ==== Sys2Proof/Laws/PerInstr.lean ====
section
/-! SUPPORT. Per operation, as a word: every operand fits its field, the reserved bits 18:17 are 0, and bits 31:24 are the
operation code of the row that has the operation's mnemonic (30_encoding.md R130, R135). One lemma per constructor. -/

namespace Sys2Proof.Laws.OpcodeField

/-- The operation code of the row with this mnemonic. -/
def codeOf (mnemonic : String) : Option Nat :=
  (opRows.find? (fun r => r.mnemonic == mnemonic)).map (fun r => (fieldsOf r.pattern).opc)

/-- The word of a well-formed operation: fields that fit, no reserved bit, the code of its own row on top. -/
def Statement (i : Instr) : Prop :=
  i.wf = true → (encodeFields i).Fit ∧ (encodeFields i).rsv = 0 ∧ codeOf i.mnemonic = some ((encode i).toNat / 2 ^ 24)

/-- The operation code of a word is its top byte. -/
theorem opc_of_fit {i : Instr} (h : (encodeFields i).Fit) : (encode i).toNat / 2 ^ 24 = (encodeFields i).opc := by
  unfold encode
  rw [packFields_toNat h]
  obtain ⟨h1, h2, h3, h4, h5, h6⟩ := h
  omega

theorem of_fit {i : Instr} (h : (encodeFields i).Fit) (hr : (encodeFields i).rsv = 0)
    (hc : codeOf i.mnemonic = some (encodeFields i).opc) :
    (encodeFields i).Fit ∧ (encodeFields i).rsv = 0 ∧ codeOf i.mnemonic = some ((encode i).toNat / 2 ^ 24) :=
  ⟨h, hr, by rw [opc_of_fit h]; exact hc⟩

theorem lf_lt (b : Bool) : b.toNat < 2 := by cases b <;> decide

theorem ringInit (n : Nat) : Statement (.ringInit n) := fun h =>
  of_fit (by
    simp only [Instr.wf, instOk, decide_eq_true_eq] at h
    simp only [Fields.Fit, encodeFields]
    omega) rfl rfl

theorem descAt (n : Nat) (d : Dir) (idx : Nat) : Statement (.descAt n d idx) := fun h =>
  of_fit (by
    have hd := dirBit_lt d
    simp only [Instr.wf, instOk, immOk, Bool.and_eq_true, decide_eq_true_eq] at h
    simp only [Fields.Fit, encodeFields]
    omega) rfl rfl

theorem advance (d : Dir) (idx : Nat) : Statement (.advance d idx) := fun h =>
  of_fit (by
    have hd := dirBit_lt d
    simp only [Instr.wf, immOk, decide_eq_true_eq] at h
    simp only [Fields.Fit, encodeFields]
    omega) rfl rfl

theorem takeWr (n maxLen : Nat) : Statement (.takeWr n maxLen) := fun h =>
  of_fit (by
    simp only [Instr.wf, instOk, immOk, Bool.and_eq_true, decide_eq_true_eq] at h
    simp only [Fields.Fit, encodeFields]
    omega) rfl rfl

theorem takeRd (n maxLen : Nat) : Statement (.takeRd n maxLen) := fun h =>
  of_fit (by
    simp only [Instr.wf, instOk, immOk, Bool.and_eq_true, decide_eq_true_eq] at h
    simp only [Fields.Fit, encodeFields]
    omega) rfl rfl

theorem wait (n : Nat) (d : Dir) : Statement (.wait n d) := fun h =>
  of_fit (by
    have hd := dirBit_lt d
    simp only [Instr.wf, instOk, decide_eq_true_eq] at h
    simp only [Fields.Fit, encodeFields]
    omega) rfl rfl

theorem signal (n : Nat) (d : Dir) : Statement (.signal n d) := fun h =>
  of_fit (by
    have hd := dirBit_lt d
    simp only [Instr.wf, instOk, decide_eq_true_eq] at h
    simp only [Fields.Fit, encodeFields]
    omega) rfl rfl

theorem cancel (t : Nat) : Statement (.cancel t) := fun h =>
  of_fit (by
    simp only [Instr.wf, immOk, decide_eq_true_eq] at h
    simp only [Fields.Fit, encodeFields]
    omega) rfl rfl

theorem spuriousWake (n : Nat) (d : Dir) (t : Nat) : Statement (.spuriousWake n d t) := fun h =>
  of_fit (by
    have hd := dirBit_lt d
    simp only [Instr.wf, instOk, immOk, Bool.and_eq_true, decide_eq_true_eq] at h
    simp only [Fields.Fit, encodeFields]
    omega) rfl rfl

theorem read (n maxLen : Nat) : Statement (.read n maxLen) := fun h =>
  of_fit (by
    simp only [Instr.wf, instOk, immOk, Bool.and_eq_true, decide_eq_true_eq] at h
    simp only [Fields.Fit, encodeFields]
    omega) rfl rfl

theorem write (n len : Nat) : Statement (.write n len) := fun h =>
  of_fit (by
    simp only [Instr.wf, instOk, immOk, Bool.and_eq_true, decide_eq_true_eq] at h
    simp only [Fields.Fit, encodeFields]
    omega) rfl rfl

theorem evtRead (n : Nat) : Statement (.evtRead n) := fun h =>
  of_fit (by
    simp only [Instr.wf, instOk, decide_eq_true_eq] at h
    simp only [Fields.Fit, encodeFields]
    omega) rfl rfl

theorem evtAck (n : Nat) (m : Half) : Statement (.evtAck n m) := fun h =>
  of_fit (by
    have hm := m.isLt
    simp only [Instr.wf, instOk, decide_eq_true_eq] at h
    simp only [Fields.Fit, encodeFields]
    omega) rfl rfl

theorem imaskWrite (n : Nat) (v : Half) : Statement (.imaskWrite n v) := fun h =>
  of_fit (by
    have hm := v.isLt
    simp only [Instr.wf, instOk, decide_eq_true_eq] at h
    simp only [Fields.Fit, encodeFields]
    omega) rfl rfl

theorem irqDispatch (n : Nat) : Statement (.irqDispatch n) := fun h =>
  of_fit (by
    simp only [Instr.wf, instOk, decide_eq_true_eq] at h
    simp only [Fields.Fit, encodeFields]
    omega) rfl rfl

theorem bringup : Statement (.bringup) := fun _ =>
  of_fit (by
    simp [Fields.Fit, encodeFields]) rfl rfl

theorem lookup (n : Nat) : Statement (.lookup n) := fun h =>
  of_fit (by
    simp only [Instr.wf, instOk, decide_eq_true_eq] at h
    simp only [Fields.Fit, encodeFields]
    omega) rfl rfl

theorem teardown (n : Nat) : Statement (.teardown n) := fun h =>
  of_fit (by
    simp only [Instr.wf, instOk, decide_eq_true_eq] at h
    simp only [Fields.Fit, encodeFields]
    omega) rfl rfl

theorem openInst (n : Nat) : Statement (.openInst n) := fun h =>
  of_fit (by
    simp only [Instr.wf, instOk, decide_eq_true_eq] at h
    simp only [Fields.Fit, encodeFields]
    omega) rfl rfl

theorem closeInst : Statement (.closeInst) := fun _ =>
  of_fit (by
    simp [Fields.Fit, encodeFields]) rfl rfl

theorem hwRxComplete (n : Nat) (lf : Bool) (count : Nat) : Statement (.hwRxComplete n lf count) := fun h =>
  of_fit (by
    have hl := lf_lt lf
    simp only [Instr.wf, instOk, immOk, Bool.and_eq_true, decide_eq_true_eq] at h
    simp only [Fields.Fit, encodeFields]
    omega) rfl rfl

theorem hwRxCompleteErr (n : Nat) (lf : Bool) (count : Nat) : Statement (.hwRxCompleteErr n lf count) := fun h =>
  of_fit (by
    have hl := lf_lt lf
    simp only [Instr.wf, instOk, immOk, Bool.and_eq_true, decide_eq_true_eq] at h
    simp only [Fields.Fit, encodeFields]
    omega) rfl rfl

theorem hwRxBusy (n : Nat) : Statement (.hwRxBusy n) := fun h =>
  of_fit (by
    simp only [Instr.wf, instOk, decide_eq_true_eq] at h
    simp only [Fields.Fit, encodeFields]
    omega) rfl rfl

theorem hwTxComplete (n : Nat) : Statement (.hwTxComplete n) := fun h =>
  of_fit (by
    simp only [Instr.wf, instOk, decide_eq_true_eq] at h
    simp only [Fields.Fit, encodeFields]
    omega) rfl rfl

theorem hwTxError (n sent : Nat) : Statement (.hwTxError n sent) := fun h =>
  of_fit (by
    simp only [Instr.wf, instOk, immOk, Bool.and_eq_true, decide_eq_true_eq] at h
    simp only [Fields.Fit, encodeFields]
    omega) rfl rfl

end Sys2Proof.Laws.OpcodeField
end

