-- ==== Sys2Proof/Tests/Slice0.lean ====
section
/-! SUPPORT. Tests on fixed values, one step each, with the expected values of spec/95_test_vectors.md or worked out by hand from the
rules named, and a witness for the hypotheses of every statement. -/

namespace Sys2Proof.Tests

open Sys2Proof.Machine

/-! ## Words (30_encoding.md R130 to R141) -/

/-- Every row of R135, its word spelled from the field positions of R130, with a variable field at its top value where it has
one. -/
theorem test_decode_rows_ring :
    decode 0x01F00000 = .ok (.ringInit 15) ∧ decode 0x02180003 = .ok (.descAt 1 .tx 3)
      ∧ decode 0x0308FFFF = .ok (.advance .tx 65535) ∧ decode 0x10080001 = .ok (.takeWr 0 1)
      ∧ decode 0x11F0FFFF = .ok (.takeRd 15 65535) := by decide

theorem test_decode_rows_gate :
    decode 0x20080000 = .ok (.wait 0 .tx) ∧ decode 0x21F80000 = .ok (.signal 15 .tx)
      ∧ decode 0x22000002 = .ok (.cancel 2) ∧ decode 0x23080001 = .ok (.spuriousWake 0 .tx 1)
      ∧ decode 0x30F00100 = .ok (.read 15 256) ∧ decode 0x31080100 = .ok (.write 0 256) := by decide

theorem test_decode_rows_dispatcher :
    decode 0x40100000 = .ok (.evtRead 1) ∧ decode 0x41000003 = .ok (.evtAck 0 0x0003)
      ∧ decode 0x42001234 = .ok (.imaskWrite 0 0x1234) ∧ decode 0x43100000 = .ok (.irqDispatch 1) := by decide

theorem test_decode_rows_registry :
    decode 0x50000000 = .ok .bringup ∧ decode 0x51100000 = .ok (.lookup 1) ∧ decode 0x52F00000 = .ok (.teardown 15)
      ∧ decode 0x53000000 = .ok (.openInst 0) ∧ decode 0x54000000 = .ok .closeInst := by decide

theorem test_decode_rows_dma :
    decode 0x70110005 = .ok (.hwRxComplete 1 true 5) ∧ decode 0x71000000 = .ok (.hwRxCompleteErr 0 false 0)
      ∧ decode 0x72F00000 = .ok (.hwRxBusy 15) ∧ decode 0x73080000 = .ok (.hwTxComplete 0)
      ∧ decode 0x74080002 = .ok (.hwTxError 0 2) := by decide

/-- E3 to E23 of L2.1: every kind of illegal word. -/
theorem test_decode_illegal :
    [0x31000100, 0x10000005, 0x11080005, 0x20000001, 0x03180003, 0x22080001, 0x54100000, 0x50000001, 0x73090000].all
        (fun w => decide (decode w = .error .fixedFields)) = true
      ∧ decode 0x02060000 = .error .reservedBits ∧ decode 0x30060000 = .error .reservedBits
      ∧ decode 0x04000000 = .error (.unassignedOpc 4) ∧ decode 0x80000000 = .error (.unassignedOpc 128) := by decide

/-- R145: the two lines of the rule's example. -/
theorem test_assembler :
    Entry.asm ⟨.thread 0, 0x31080100, Draws.plain⟩ = some "T0: WRITE i0, 256"
      ∧ Entry.asm ⟨.dmaRx, 0x70010100, Draws.plain⟩ = some "RXDMA: HW_RX_COMPLETE i0, last, 256" := by
  decide

/-! ## Well-formedness -/

/-- An ill-formed term for every check of `Instr.wf`: `INST` of 16. -/
theorem test_wf_inst :
    [Instr.ringInit 16, .descAt 16 .rx 0, .takeWr 16 0, .takeRd 16 0, .wait 16 .rx, .signal 16 .tx, .spuriousWake 16 .rx 0,
      .read 16 0, .write 16 0, .evtRead 16, .evtAck 16 0, .imaskWrite 16 0, .irqDispatch 16, .lookup 16, .teardown 16,
      .openInst 16, .hwRxComplete 16 true 0, .hwRxCompleteErr 16 true 0, .hwRxBusy 16, .hwTxComplete 16,
      .hwTxError 16 0].all (fun i => !i.wf) = true := by decide

/-- An ill-formed term for every check of `Instr.wf`: `IMM16` of 65536. -/
theorem test_wf_imm :
    [Instr.descAt 0 .rx 65536, .advance .rx 65536, .takeWr 0 65536, .takeRd 0 65536, .cancel 65536,
      .spuriousWake 0 .rx 65536, .read 0 65536, .write 0 65536, .hwRxComplete 0 true 65536, .hwRxCompleteErr 0 true 65536,
      .hwTxError 0 65536].all (fun i => !i.wf) = true := by decide

/-- The same at the top legal values. -/
theorem test_wf_top :
    [Instr.descAt 15 .tx 65535, .takeWr 15 65535, .cancel 65535, .evtAck 15 0xFFFF, .bringup, .closeInst,
      .hwTxError 15 65535].all Instr.wf = true := by decide

/-- One configuration for each constraint of 00_scope.md R10 and R11 that it breaks. -/
theorem test_wf_config :
    [{ Config.c0 with rxCap := 0 }, { Config.c0 with txCap := 0 }, { Config.c0 with bufSize := 0 },
      { Config.c0 with bufSize := 65536 }, { Config.c0 with nInst := 0 }, { Config.c0 with nInst := 17 },
      { Config.c0 with profile := .single }, { Config.c0 with threads := [0, 65536] },
      { Config.c0 with threads := [1, 1] }].all (fun c => !c.wf) = true
      ∧ [{ Config.c0 with rxCap := 65536 }, { Config.c0 with descBase := 0x1004 },
      { Config.c0 with descBase := 0xFFFFFFF8 }, { Config.c0 with regEvt := 1 }, { Config.c0 with regMask := 3 },
      { Config.c0 with regMask := 0 }].all (fun c => !c.wf) = true := by decide

theorem test_wf_configs : Config.c0.wf = true ∧ Config.c1.wf = true := by decide

/-! ## Small states -/

/-- `C0` with two transmit slots and buffers of four bytes. -/
def small : Config := { Config.c0 with txCap := 2, bufSize := 4 }

/-- The descriptors after RING_INIT on `small`: R201 with `RX_INIT_IRQ`, buffers at `0x10000 + 0x100 * k`. -/
def ring : List Desc :=
  [⟨0x9000, 0, 0x10000⟩, ⟨0xB000, 0, 0x10100⟩, ⟨0x0000, 0, 0x10200⟩, ⟨0x2000, 0, 0x10300⟩]

/-- `ctx[0]` of `S0(small)` (95_test_vectors.md section 0). -/
def live : Ctx where
  life := .active
  desc := ring
  cursor := ⟨0, 0⟩
  hw := ⟨0, 0⟩
  dmaEn := ⟨true, true⟩
  evt := 0
  imask := 0x001F
  handler := true
  disp := .idle
  handled := false
  gate := ⟨[], []⟩
  rxFaults := 0
  txFaults := 0

/-- `live` with another descriptor at array position `k`. -/
def live.at (k : Nat) (d : Desc) : Ctx := { live with desc := ring.set k d }

/-- A context after step 1 of BRINGUP. -/
def newCtx : Ctx :=
  { live with life := .allocated, desc := [], dmaEn := ⟨false, false⟩, imask := 0, handler := false }

/-- A context after step 2 of BRINGUP. -/
def laidCtx : Ctx := { live with life := .initialized, dmaEn := ⟨false, false⟩, imask := 0, handler := false }

/-- A context after step 1 of TEARDOWN. -/
def stopCtx : Ctx := { laidCtx with life := .stopped }

/-- Agent `a` is about to take a step while `ctx[0]` is `c`. -/
def board (a : Agent) (c : Ctx) : State :=
  { State.driverLoad small with nextId := 1, liveBuffers := 4, ctxs := [(0, c)], cur := ⟨a, 0, Draws.plain⟩ }

/-- Agent `a` is about to take a step at driver load. -/
def bare (a : Agent) : State := { State.driverLoad small with cur := ⟨a, 0, Draws.plain⟩ }

/-- Thread `t` of `s` is `th`. -/
def withThr (s : State) (t : Nat) (th : Thread) : State := { s with threads := s.threads.put t th }

/-- Thread 0 inside a call. -/
def inCall (s : State) (k : CallKind) (d : Dir) (ph : SubPhase) (len : Nat) : State :=
  withThr s 0 { Thread.initial with phase := .inCall k 0 d ph, callLen := len, src := [1, 2, 3, 4, 5, 6] }

/-- The state after one operation. -/
def after (i : Instr) (s : State) : Option State :=
  match exec i s with
  | .next t => some t
  | _ => none

/-- The record of a fault without an address. -/
def faulted (i : Instr) (s : State) : Option Reason := ((after i s).bind State.fault).map FaultRec.reason

/-- The draws of a layout over buffers at `0x10000 + 0x100 * k`. -/
def fourBuffers : List Addr := [0x10000, 0x10100, 0x10200, 0x10300]

def drawing (s : State) : State :=
  { s with cur := { s.cur with draws := { Draws.plain with alloc := fourBuffers.map some } } }

/-! ## One step of each operation -/

/-- G3 on `small`: `O`, `I` on every receive slot, `W` on the two last slots. -/
theorem test_ringInit_lays_out :
    (after (.ringInit 0) (drawing (board .host newCtx))).map
        (fun t => (t.out, t.liveBuffers, (t.ctx? 0).map (fun c => (c.life, c.desc))))
      = some (.result ⟨.ok, .num 0⟩, 8, some (.initialized, ring)) := by decide

/-- G5: the allocator fails at buffer 0. -/
theorem test_ringInit_fails :
    (after (.ringInit 0) (board .host newCtx)).map (fun t => (t.out, t.liveBuffers, t.ctx? 0))
      = some (.result ⟨.allocationError, .num 0⟩, 4, some newCtx) := by decide

/-- G8, G9. -/
theorem test_descAt :
    (after (.descAt 0 .tx 1) (board (.thread 0) live)).map (fun t => t.out)
        = some (.result ⟨.ok, .desc ⟨0x2000, 0, 0x10300⟩⟩)
      ∧ faulted (.descAt 0 .rx 2) (board (.thread 0) live) = some .contractViolation := by decide

/-- G11, G13 on `small`, and G14. -/
theorem test_advance :
    (after (.advance .rx 1) (board .dmaTx live)).map (fun t => t.out) = some (.result ⟨.ok, .num 0⟩)
      ∧ faulted (.advance .tx 2) (board .env live) = some .contractViolation
      ∧ (after (.advance .rx 0) (State.driverLoad Config.c1)).map (fun t => t.out) = some (.result ⟨.ok, .num 0⟩) := by
  decide

/-- A WRITE of six bytes at the last slot, which a failed transmit left. -/
def lastSlot : State :=
  withThr (board (.thread 0) { live.at 3 ⟨0x3801, 1, 0x10300⟩ with cursor := ⟨0, 1⟩ }) 0
    { Thread.initial with src := [1, 2, 3, 4, 5, 6] }

/-- W2 and W8: six bytes are cut to four, `E` is cleared, the cursor goes round. -/
theorem test_takeWr_truncates :
    (after (.takeWr 0 6) lastSlot).map (fun t => (t.out, t.mem))
        = some (.result ⟨.ok, .num 4⟩, [(0x10300, 1), (0x10301, 2), (0x10302, 3), (0x10303, 4)])
      ∧ (after (.takeWr 0 6) lastSlot).bind (fun t => t.ctx? 0)
        = some { live.at 3 ⟨0xB800, 4, 0x10300⟩ with cursor := ⟨0, 0⟩ } := by decide

/-- W6. -/
theorem test_takeWr_notReady :
    (after (.takeWr 0 4) (board (.thread 0) (live.at 2 ⟨0x9800, 4, 0x10200⟩))).map (fun t => (t.out, t.ctx? 0))
      = some (.result ⟨.notReady, .num 0⟩, some (live.at 2 ⟨0x9800, 4, 0x10200⟩)) := by decide

/-- W9 and W13: the length field keeps its value, `L` and `E` are cleared. -/
theorem test_takeRd_drains :
    (after (.takeRd 0 3) { board (.thread 0) (live.at 0 ⟨0x1801, 4, 0x10000⟩) with
        mem := [(0x10000, 0x41), (0x10002, 0x43), (0x10003, 0x44)] }).map
        (fun t => (t.out, (t.thr 0).dst, (t.ctx? 0).map (fun c => (c.desc[0]?, c.cursor))))
      = some (.result ⟨.ok, .num 3⟩, [0x41, 0, 0x43], some (some ⟨0x9000, 4, 0x10000⟩, ⟨1, 0⟩)) := by decide

/-- W17: the instance is checked before the context. -/
theorem test_takeRd_order :
    faulted (.takeRd 1 1) (board .dispatcher live) = some .noSuchInstance
      ∧ faulted (.takeRd 0 1) (board .dispatcher live) = some .contextViolation := by decide

/-- Q2: Entry with an EMPTY slot, then Prep. -/
theorem test_wait_enqueues :
    (after (.wait 0 .rx) (board (.thread 0) live)).map (fun t => (t.thr 0).phase) = some (.inCall .wait 0 .rx .prep)
      ∧ (after (.wait 0 .rx) (inCall (board (.thread 0) live) .wait .rx .prep 0)).map
          (fun t => ((t.thr 0).phase, (t.ctx? 0).map (fun c => c.gate)))
        = some (.inCall .wait 0 .rx .sleep, some ⟨[0], []⟩) := by decide

/-- Q7: a cancellation at Prep. -/
theorem test_wait_canceled :
    (after (.wait 0 .rx) (withThr (board (.thread 0) live) 0
        { Thread.initial with phase := .inCall .wait 0 .rx .prep, cancel := true })).map
        (fun t => (t.out, (t.thr 0).cancel, (t.ctx? 0).map (fun c => c.gate)))
      = some (.result ⟨.canceled, .num 0⟩, false, some ⟨[], []⟩) := by decide

/-- R297: one direction only. -/
theorem test_signal :
    (after (.signal 0 .rx) (board .dispatcher { live with gate := ⟨[0, 1], [2]⟩ })).map
        (fun t => (t.ctx? 0).map (fun c => c.gate))
      = some (some ⟨[], [2]⟩) := by decide

/-- Q12, and a thread that exists. -/
theorem test_cancel :
    faulted (.cancel 7) (bare .env) = some .contractViolation
      ∧ (after (.cancel 1) (bare .env)).map (fun t => ((t.thr 0).cancel, (t.thr 1).cancel)) = some (false, true) := by
  decide

/-- Q5. -/
theorem test_spuriousWake :
    (after (.spuriousWake 0 .rx 0) (board .env { live with gate := ⟨[0, 1], []⟩ })).map
        (fun t => (t.ctx? 0).map (fun c => c.gate)) = some (some ⟨[1], []⟩)
      ∧ (after (.spuriousWake 0 .tx 0) (board .env { live with gate := ⟨[0, 1], []⟩ })).map (fun t => t.out) = some .held := by
  decide

/-- P2 line 9: the Take of a READ returns to its caller. -/
theorem test_read_takes :
    (after (.read 0 2) (inCall { board (.thread 0) (live.at 0 ⟨0x1000, 3, 0x10000⟩) with
        mem := [(0x10000, 0x41), (0x10001, 0x42), (0x10002, 0x43)] } .read .rx .take 2)).map
        (fun t => ((t.thr 0).phase, (t.thr 0).ret, (t.thr 0).dst))
      = some (.idle, ⟨.ok, .num 2⟩, [0x41, 0x42]) := by decide

/-- P3 lines 6 and 7: a lost race goes back to Entry, and the next Entry to Prep. -/
theorem test_write_retries :
    (after (.write 0 2) (inCall (board (.thread 0) (live.at 2 ⟨0x9800, 4, 0x10200⟩)) .write .tx .take 2)).map
        (fun t => (t.thr 0).phase) = some (.inCall .write 0 .tx .entry)
      ∧ (after (.write 0 2) (inCall (board (.thread 0) (live.at 2 ⟨0x9800, 4, 0x10200⟩)) .write .tx .entry 2)).map
        (fun t => (t.thr 0).phase) = some (.inCall .write 0 .tx .prep) := by decide

/-- I1. -/
theorem test_evtRead :
    (after (.evtRead 0) (board .dispatcher { live with evt := 0x000A })).map (fun t => t.out)
      = some (.result ⟨.ok, .num 0x000A⟩) := by decide

/-- I2, I4. -/
theorem test_evtAck :
    (after (.evtAck 0 0x0003) (board .dispatcher { live with evt := 0x000B })).map (fun t => (t.ctx? 0).map (fun c => c.evt))
        = some (some 0x0008)
      ∧ (after (.evtAck 0 0xFFFF) (board .host { live with evt := 0x0015 })).map (fun t => (t.ctx? 0).map (fun c => c.evt))
        = some (some 0) := by decide

/-- I5. -/
theorem test_imaskWrite :
    (after (.imaskWrite 0 0xFFFF) (board .host live)).map (fun t => (t.ctx? 0).map (fun c => c.imask)) = some (some 0x001F) := by
  decide

/-- I10 phase 1, I13: a masked bit is read all the same. -/
theorem test_irqDispatch_reads :
    (after (.irqDispatch 0) (board .dispatcher { live with evt := 0x0008, imask := 0 })).map
        (fun t => (t.ctx? 0).map (fun c => (c.disp, c.handled))) = some (some (.acking 0x0008, true)) := by decide

/-- I11, I14: the counters wrap, both gates are emptied. -/
theorem test_irqDispatch_signals :
    (after (.irqDispatch 0)
        (board .dispatcher { live with disp := .signalling 0x0014, rxFaults := 0xFFFFFFFF, gate := ⟨[1], [2]⟩ })).bind
        (fun t => t.ctx? 0)
      = some { live with disp := .reading, rxFaults := 0, txFaults := 1 } := by decide

/-- B1 step 1, B2. -/
theorem test_bringup_allocates :
    (after .bringup (bare .host)).map (fun t => (t.nextId, t.hostOp, (t.ctx? 0).map (fun c => c.life)))
        = some (1, .inBringup 0, some .allocated)
      ∧ (after .bringup { bare .host with nextId := 2 }).map (fun t => t.out)
        = some (.result ⟨.capacityExceeded, .num 0⟩) := by decide

/-- B1 step 3: the context of `S0`. -/
theorem test_bringup_activates :
    (after .bringup { board .host laidCtx with hostOp := .inBringup 0 }).map (fun t => (t.out, t.hostOp, t.ctx? 0))
      = some (.result ⟨.ok, .num 0⟩, .idle, some live) := by decide

/-- B5. -/
theorem test_lookup :
    (after (.lookup 0) (board (.thread 0) live)).map (fun t => t.out) = some (.result ⟨.ok, .num 0⟩)
      ∧ faulted (.lookup 1) (board (.thread 0) live) = some .noSuchInstance := by decide

/-- B8, B9. -/
theorem test_teardown_waits :
    (after (.teardown 0) (board .host { live with disp := .signalling 0x0008 })).map (fun t => t.out) = some .held
      ∧ faulted (.teardown 0) (inCall (board .host live) .read .rx .sleep 1) = some .contractViolation := by decide

/-- B7 step 3: a busy engine at step 1 is reported, the release is complete. -/
theorem test_teardown_releases :
    (after (.teardown 0) { board .host { stopCtx with life := .unregistered } with hostOp := .inTeardown 0 true }).map
        (fun t => (t.out, t.hostOp, t.liveBuffers, t.ctx? 0))
      = some (.result ⟨.teardownError, .num 0⟩, .idle, 0, none) := by decide

/-- B13, B14. -/
theorem test_open :
    (after (.openInst 0) (board (.thread 0) live)).map (fun t => (t.thr 0).bound) = some (some 0)
      ∧ faulted (.openInst 1) (board (.thread 0) live) = some .noSuchInstance := by decide

theorem test_close :
    (after .closeInst (withThr (board (.thread 0) live) 0 { Thread.initial with bound := some 0 })).map
        (fun t => (t.thr 0).bound) = some none := by decide

/-- An engine's entry with two drawn bytes. -/
def receiving (s : State) : State := { s with cur := { s.cur with draws := { Draws.plain with data := [0x41, 0x42] } } }

/-- D2: the last receive slot ends a unit, the index goes round. -/
theorem test_hwRxComplete :
    (after (.hwRxComplete 0 true 2) (receiving (board .dmaRx { live with hw := ⟨1, 0⟩ }))).map
        (fun t => (t.mem, (t.ctx? 0).map (fun c => (c.desc[1]?, c.evt, c.hw))))
      = some ([(0x10100, 0x41), (0x10101, 0x42)], some (some ⟨0x3800, 2, 0x10100⟩, 0x0008, ⟨0, 0⟩)) := by decide

/-- D3: without `I` there is no event. -/
theorem test_hwRxComplete_quiet :
    (after (.hwRxComplete 0 true 2) (receiving (board .dmaRx (live.at 0 ⟨0x8000, 0, 0x10000⟩)))).map
        (fun t => (t.ctx? 0).map (fun c => (c.desc[0]?, c.evt)))
      = some (some (some ⟨0x0800, 2, 0x10000⟩, 0)) := by decide

/-- D5, and a count above `BUF_SIZE`. -/
theorem test_hwRxCompleteErr :
    (after (.hwRxCompleteErr 0 false 2) (receiving (board .dmaRx live))).map
        (fun t => (t.ctx? 0).map (fun c => (c.desc[0]?, c.evt)))
        = some (some (some ⟨0x1001, 2, 0x10000⟩, 0x0001))
      ∧ (after (.hwRxCompleteErr 0 false 5) (receiving (board .dmaRx live))).map (fun t => t.out) = some .held := by decide

/-- D6, D7. -/
theorem test_hwRxBusy :
    (after (.hwRxBusy 0) (board .dmaRx (live.at 0 ⟨0x1000, 1, 0x10000⟩))).map (fun t => (t.ctx? 0).map (fun c => c.evt))
        = some (some 0x0004)
      ∧ (after (.hwRxBusy 0) (board .dmaRx live)).map (fun t => t.out) = some .held := by decide

/-- D9 on `small`. -/
theorem test_hwTxComplete :
    (after (.hwTxComplete 0) { board .dmaTx { live.at 3 ⟨0xB800, 2, 0x10300⟩ with hw := ⟨0, 1⟩ } with
        mem := [(0x10301, 7)] }).map (fun t => (t.lineOut, (t.ctx? 0).map (fun c => (c.desc[3]?, c.evt, c.hw))))
      = some ([⟨0, [0, 7], false⟩], some (some ⟨0x3800, 2, 0x10300⟩, 0x0002, ⟨0, 0⟩)) := by decide

/-- D11, D12. -/
theorem test_hwTxError :
    (after (.hwTxError 0 1) (board .dmaTx (live.at 2 ⟨0x9800, 2, 0x10200⟩))).map
        (fun t => (t.lineOut, (t.ctx? 0).map (fun c => (c.desc[2]?, c.evt, c.hw))))
        = some ([⟨0, [0], true⟩], some (some ⟨0x1801, 2, 0x10200⟩, 0x0010, ⟨0, 1⟩))
      ∧ (after (.hwTxError 0 3) (board .dmaTx (live.at 2 ⟨0x9800, 2, 0x10200⟩))).map (fun t => t.out) = some .held := by
  decide

/-! ## Memory, registers and the step -/

/-- M1 to M4: the byte images of a descriptor. -/
theorem test_images :
    (Desc.mk 0xB800 0x0100 0x00011100).image .big = [0xB8, 0, 1, 0, 0, 1, 0x11, 0]
      ∧ (Desc.mk 0xB800 0x0100 0x00011100).image .little = [0, 0xB8, 0, 1, 0, 0x11, 1, 0]
      ∧ (Desc.mk 0x9000 0 0x00010000).image .big = [0x90, 0, 0, 0, 0, 1, 0, 0] := by decide

/-- R83, R90: a field of a descriptor, and an access that is no field. -/
theorem test_memRead :
    (board .host live).memRead live 0x1018 2 = .ok [0x20, 0]
      ∧ (board .host live).memRead live 0x1019 1 = .error ⟨.badAddress, 0x1019⟩
      ∧ (board .host live).memRead live 0x10304 1 = .error ⟨.badAddress, 0x10304⟩ := by decide

/-- R92: an offset that is no register, and a width of 8. -/
theorem test_registers :
    (board .host live).regRead live 4 16 = .error (trapOf .badRegister)
      ∧ (board .host live).regRead live 0 8 = .error (trapOf .badRegister)
      ∧ (board .host live).regRead live 2 16 = .ok 0x001F := by decide

/-- M5, and the other byte order: the two bytes of `EVT`; a read gives the same value in both. -/
theorem test_registerBytes :
    let c := { live with evt := 0x000A }
    let little := { board .host c with cfg := { small with regEndian := .little } }
    (board .host c).regBytes c 0 16 = .ok [0x00, 0x0A] ∧ little.regBytes c 0 16 = .ok [0x0A, 0x00]
      ∧ little.regRead c 0 16 = .ok 0x000A ∧ little.regWrite c 2 16 0x1234 = .ok { c with imask := 0x0014 } := by decide

/-- I6 to I8. -/
theorem test_line :
    (board .host { live with evt := 0x0008 }).line 0 = true
      ∧ (board .host { live with evt := 0x0008, imask := 0x0002 }).line 0 = false
      ∧ (board .host { live with evt := 0x0008, handler := false }).line 0 = false := by decide

/-- F3 through the step: an illegal word issued by thread 0. -/
theorem test_step_illegal :
    (match step { board .host live with sched := [⟨.thread 0, 0x30060000, Draws.plain⟩] } with
      | .next t => some (t.fault, t.ctx? 0, t.sched)
      | _ => none)
      = some (some ⟨.illegalOperation, .thread 0, 0x30060000, 0⟩, some live, []) := by decide

/-- R141: a payload that comes with an illegal word reaches no caller memory; with a WRITE it does (R132). -/
theorem test_step_payload :
    let with41 (w : Word) : Entry := ⟨.thread 0, w, { Draws.plain with src := some [0x41] }⟩
    (match step { board .host live with sched := [with41 0x31000001] } with
      | .next t => some (t.fault.map FaultRec.reason, (t.thr 0).src)
      | _ => none) = some (some .illegalOperation, [])
      ∧ (match step { board .host live with sched := [with41 0x31080001] } with
        | .next t => some (t.fault.map FaultRec.reason, (t.thr 0).src)
        | _ => none) = some (none, [0x41]) := by decide

/-- R133, R404: an engine step and a spurious wake-up on an instance that does not exist. -/
theorem test_absent_instance :
    faulted (.hwRxBusy 1) (board .dmaRx live) = some .noSuchInstance
      ∧ faulted (.hwTxComplete 1) (board .dmaTx live) = some .noSuchInstance
      ∧ faulted (.spuriousWake 1 .rx 0) (board .env live) = some .noSuchInstance := by decide

/-- R277: a start step whose register read faults keeps what the start wrote. -/
theorem test_start_fault :
    let s := { board .dispatcher { live with handled := true } with cfg := { small with regEvt := 1 } }
    ((after (.irqDispatch 0) s).bind (fun t => (t.ctx? 0).map (fun c => (t.fault.map FaultRec.reason, c.disp, c.handled))))
      = some (some .badRegister, .reading, false) := by decide

/-- The host's question about a table word, as the first step after reset. -/
theorem test_withFetchWord :
    decodeTableWord 32 0x03080003 = some (.advance .tx 3)
      ∧ (match step (State.reset.withFetchWord 32 0x03080003) with
          | .next t => some t.out
          | _ => none) = some (.result ⟨.ok, .num 4⟩) := by decide

/-! ## Witnesses: concrete values for the hypotheses of the statements of Certificates/Slice0/Obligations.lean -/

theorem board_ctx {a : Agent} {c e : Ctx} {n : Nat} (h : (board a c).ctx? n = some e) : n = 0 ∧ e = c := by
  simp only [State.ctx?, board, Table.lookup] at h
  split at h
  · next h0 => exact ⟨h0.symm, by cases h; rfl⟩
  · cases h

/-- A property of the one context of a board. -/
theorem board_all {a : Agent} {c : Ctx} {P : Ctx → Prop} (h : P c) {n : Nat} :
    ∀ e, (board a c).ctx? n = some e → P e := fun _ he => (board_ctx he).2 ▸ h

theorem idle_thread (c : Ctx) : (board (.thread 0) c).idleThread 0 :=
  ⟨rfl, (by decide : 0 ∈ [0, 1, 2]), rfl⟩

theorem idle_host (c : Ctx) : (board .host c).idleHost := ⟨rfl, rfl⟩

theorem inside_call (c : Ctx) (k : CallKind) (d : Dir) (ph : SubPhase) (len : Nat) :
    (inCall (board (.thread 0) c) k d ph len).insideAt 0 k 0 d len ph :=
  ⟨rfl, (by decide : 0 ∈ [0, 1, 2]), rfl, rfl⟩

/-- An entry of the schedule. -/
def entry (a : Agent) (w : Word) : Entry := ⟨a, w, Draws.plain⟩

theorem witness_StepRunsDecodedInstruction :
    (bare .host).fault = none ∧ (bare .host).sched = []
      ∧ { bare .host with sched := [entry (.thread 2) 0x51F00000] }.sched = entry (.thread 2) 0x51F00000 :: []
      ∧ decode (entry (.thread 2) 0x51F00000).word = .ok (.lookup 15) := by decide

theorem witness_encoding :
    (Instr.hwTxError 15 65535).wf = true ∧ decode 0x74F8FFFF = .ok (.hwTxError 15 65535)
      ∧ decode 0xFFFFFFFF = .error (.unassignedOpc 255) := by decide

theorem witness_IllegalWordFaults :
    let s := { bare .host with sched := [entry (.thread 0) 0x31000100] }
    s.fault = none ∧ s.sched = entry (.thread 0) 0x31000100 :: [] ∧ decode 0x31000100 = .error .fixedFields
      ∧ { s with sched := [], cur := entry (.thread 0) 0x31000100 }.freeAgent :=
  ⟨rfl, rfl, by decide, .inl (.inl ⟨0, rfl, by decide, rfl⟩)⟩

theorem witness_FaultIsSticky :
    { bare .host with fault := some ⟨.badAddress, .dmaRx, 0, 4⟩ }.fault = some ⟨.badAddress, .dmaRx, 0, 4⟩ := rfl

/-- Every kind of agent that may be free, for the statements about free agents. -/
theorem witness_freeAgent :
    (board (.thread 0) live).freeAgent ∧ (board .host live).freeAgent ∧ (board .dispatcher live).freeAgent
      ∧ (board .dmaRx live).freeAgent ∧ (board .dmaTx live).freeAgent ∧ (board .env live).freeAgent :=
  ⟨.inl (.inl ⟨0, idle_thread _⟩), .inl (.inr (.inl (idle_host _))), .inl (.inr (.inr rfl)), .inr (.inl rfl),
    .inr (.inr (.inl rfl)), .inr (.inr (.inr rfl))⟩

theorem witness_freeSoftware :
    (board (.thread 0) live).freeSoftware ∧ (board .host live).freeSoftware ∧ (board .dispatcher live).freeSoftware :=
  ⟨.inl ⟨0, idle_thread _⟩, .inr (.inl (idle_host _)), .inr (.inr rfl)⟩

/-- The two sides of the capacity. -/
theorem witness_AdvanceResult : small.cap .rx ≤ 2 ∧ 1 < small.cap .rx ∧ small.cap .tx ≤ 65535 := by decide

/-- No instance, an instance that is not laid out, and the three laid-out lifecycle states: the clauses of DESC_AT, SIGNAL and the
register operations. -/
theorem witness_laidOut :
    (∀ c, (board .host live).ctx? 1 = some c → c.life ∉ [Life.initialized, .active, .stopped])
      ∧ (∀ c, (board .host newCtx).ctx? 0 = some c → c.life ∉ [Life.initialized, .active, .stopped])
      ∧ (board .host live).ctx? 0 = some live ∧ live.life ∈ [Life.initialized, .active, .stopped]
      ∧ laidCtx.life ∈ [Life.initialized, .active, .stopped] ∧ stopCtx.life ∈ [Life.initialized, .active, .stopped] :=
  ⟨fun _ h => absurd (board_ctx h).1 (by decide), board_all (by decide), rfl, by decide, by decide, by decide⟩

theorem witness_DescAtSnapshot :
    small.wf = true ∧ 1 < small.cap .tx ∧ live.desc[if Dir.tx = .rx then 1 else small.rxCap + 1]? = some ⟨0x2000, 0, 0x10300⟩
      ∧ (0x2000 : Half) &&& 0x47FE = 0
      ∧ (live.at 0 ⟨0x4000, 0, 0x10000⟩).desc[if Dir.rx = .rx then 0 else small.rxCap + 0]? = some ⟨0x4000, 0, 0x10000⟩
      ∧ (0x4000 : Half) &&& 0x47FE ≠ 0 := by decide

/-- Buffers that end at the top of the address space, next to one another. -/
def topBuffers : List Addr := [0xFFFFFFF0, 0xFFFFFFF4, 0xFFFFFFF8, 0xFFFFFFFC]

/-- Context 0 is about to be laid out over `topBuffers` while context 1 holds a ring. -/
def laying : State :=
  { board .host newCtx with
    nextId := 2
    ctxs := [(0, newCtx), (1, live)]
    cur := ⟨.host, 0, { Draws.plain with alloc := topBuffers.map some, fill := [[1, 2]] }⟩ }

theorem laying_other {m : Nat} {c : Ctx} (hm : m ≠ 0) (h : laying.ctx? m = some c) : c = live := by
  simp only [State.ctx?, laying, Table.lookup, if_neg hm.symm] at h
  split at h <;> cases h
  rfl

theorem witness_legalBuffers : laying.legalBuffers 0 topBuffers := by
  refine ⟨by decide, by decide, fun a ha => ?_⟩
  have key : a.toNat + 4 ≤ 2 ^ 32 ∧ apart a.toNat 4 0x1000 32 = true
      ∧ ∀ d ∈ ring, apart a.toNat 4 d.addr.toNat 4 = true := by
    simp only [topBuffers, List.mem_cons, List.not_mem_nil, or_false] at ha
    rcases ha with rfl | rfl | rfl | rfl <;> decide
  refine ⟨key.1, key.2.1, fun m c k d hm hc hd => ?_⟩
  rw [laying_other hm hc] at hd
  exact key.2.2 d (List.mem_of_getElem? hd)

theorem witness_RingInitLaysOut :
    (board .host live).idleHost ∧ (∀ c, (board .host live).ctx? 0 = some c → c.life ≠ .allocated)
      ∧ (∀ c, (board .host live).ctx? 1 = some c → c.life ≠ .allocated)
      ∧ laying.idleHost ∧ laying.ctx? 0 = some newCtx ∧ newCtx.life = .allocated ∧ laying.cfg.wf = true
      ∧ Table.rising laying.ctxs ∧ laying.cur.draws.descArea = true ∧ laying.cur.draws.alloc = topBuffers.map some
      ∧ laying.legalBuffers 0 topBuffers :=
  ⟨idle_host _, board_all (by decide), fun _ h => absurd (board_ctx h).1 (by decide), ⟨rfl, rfl⟩, rfl, rfl, by decide,
    by decide, rfl, rfl, witness_legalBuffers⟩

/-- The descriptor area fails, the last buffer fails, no buffer is offered. -/
theorem witness_layoutDrawFails :
    { board .host newCtx with cur := ⟨.host, 0, { Draws.plain with descArea := false }⟩ }.layoutDrawFails
      ∧ { board .host newCtx with
          cur := ⟨.host, 0, { Draws.plain with alloc := [some 0x10000, some 0x10100, some 0x10200, none] }⟩ }.layoutDrawFails
      ∧ (board .host newCtx).layoutDrawFails ∧ (board .host newCtx).idleHost ∧ (board .host newCtx).ctx? 0 = some newCtx :=
  ⟨.inl rfl, .inr ⟨3, by decide, .inr rfl⟩, .inr ⟨0, by decide, .inl rfl⟩, idle_host _, rfl⟩

/-- The clauses of both takes before the ownership check: no instance, an instance that is not active, the dispatcher. -/
theorem witness_take_checks :
    (board (.thread 0) live).idleThread 0 ∧ (board (.thread 0) live).ctx? 1 = none
      ∧ (board (.thread 0) laidCtx).ctx? 0 = some laidCtx ∧ laidCtx.life ≠ .active
      ∧ (board .dispatcher live).cur.agent = .dispatcher :=
  ⟨idle_thread _, rfl, rfl, by decide, rfl⟩

/-- A transmit slot that is READY, and an AVAILABLE one at the last index whose buffer ends at the top of memory. -/
theorem witness_TakeWrHandsSlotOver :
    let ready := live.at 2 ⟨0x9800, 4, 0x10200⟩
    let free := { live.at 3 ⟨0x3801, 4, 0xFFFFFFFC⟩ with cursor := ⟨0, 1⟩ }
    (board (.thread 0) ready).ctx? 0 = some ready ∧ ready.life = .active ∧ small.wf = true ∧ ready.cursor.tx < small.txCap
      ∧ ready.desc[small.rxCap + ready.cursor.tx]? = some ⟨0x9800, 4, 0x10200⟩ ∧ (0x9800 : Half) &&& 0x47FE = 0
      ∧ (Desc.mk 0x9800 4 0x10200).hwOwned = true
      ∧ (board (.thread 0) free).ctx? 0 = some free ∧ free.cursor.tx < small.txCap
      ∧ free.desc[small.rxCap + free.cursor.tx]? = some ⟨0x3801, 4, 0xFFFFFFFC⟩ ∧ (0x3801 : Half) &&& 0x47FE = 0
      ∧ (Desc.mk 0x3801 4 0xFFFFFFFC).hwOwned = false ∧ (0xFFFFFFFC : Addr).toNat + small.bufSize ≤ 2 ^ 32 := by decide

theorem witness_TakeRdDrainsSlot :
    let full := { live.at 1 ⟨0x3800, 4, 0xFFFFFFFC⟩ with cursor := ⟨1, 0⟩ }
    (board (.thread 0) live).ctx? 0 = some live ∧ live.life = .active ∧ live.cursor.rx < small.rxCap
      ∧ live.desc[live.cursor.rx]? = some ⟨0x9000, 0, 0x10000⟩ ∧ (0x9000 : Half) &&& 0x47FE = 0
      ∧ (Desc.mk 0x9000 0 0x10000).hwOwned = true
      ∧ (board (.thread 0) full).ctx? 0 = some full ∧ full.cursor.rx < small.rxCap
      ∧ full.desc[full.cursor.rx]? = some ⟨0x3800, 4, 0xFFFFFFFC⟩ ∧ (Desc.mk 0x3800 4 0xFFFFFFFC).hwOwned = false
      ∧ (0x3800 : Half) &&& 0x47FE = 0 ∧ (0xFFFFFFFC : Addr).toNat + small.bufSize ≤ 2 ^ 32
      ∧ (4 : Half).toNat ≤ small.bufSize := by decide

theorem witness_NotReadyWritesNoState :
    (∃ t, exec (.takeRd 0 4) (board (.thread 0) live) = .next t ∧ ∃ v, t.out = .result ⟨.notReady, v⟩)
      ∧ ∃ t, exec (.takeWr 0 4) (board (.thread 0) (live.at 2 ⟨0x9800, 4, 0x10200⟩)) = .next t
          ∧ ∃ v, t.out = .result ⟨.notReady, v⟩ :=
  ⟨⟨_, rfl, _, rfl⟩, ⟨_, rfl, _, rfl⟩⟩

/-- A source of `BUF_SIZE + 1` bytes. -/
theorem witness_LongWriteIsTruncated :
    let s := withThr (board (.thread 0) live) 0 { Thread.initial with src := [1, 2, 3, 4, 5] }
    s.idleThread 0 ∧ s.cfg.wf = true ∧ s.ctx? 0 = some live ∧ live.life = .active ∧ live.cursor.tx < s.cfg.txCap
      ∧ live.desc[s.cfg.rxCap + live.cursor.tx]? = some ⟨0, 0, 0x10200⟩ ∧ (0 : Half) &&& 0x47FE = 0
      ∧ (Desc.mk 0 0 0x10200).hwOwned = false ∧ (0x10200 : Addr).toNat + s.cfg.bufSize ≤ 2 ^ 32
      ∧ s.cfg.bufSize < (s.thr 0).src.length ∧ s.cfg.bufSize < 5 :=
  ⟨⟨rfl, by decide, rfl⟩, by decide⟩

theorem witness_CursorReturnsAfterCapacityTakes :
    small.wf = true ∧ 0 ≤ small.cap .rx ∧ 2 ≤ small.cap .rx ∧ Config.c1.wf = true ∧ 1 ≤ Config.c1.cap .rx := by decide

/-! Engines. -/

/-- `small` with a loopback line. -/
def looped (s : State) (q : List (Nat × List Byte)) : State :=
  { s with cfg := { small with loopback := true }, linePending := q }

/-- An EMPTY receive slot at the last index with `W`, two drawn bytes; and `BUF_SIZE` bytes into the first slot, without `W`. -/
theorem witness_RxCompletionFillsSlot :
    let c := { live.at 1 ⟨0xB000, 0, 0xFFFFFFFC⟩ with hw := ⟨1, 0⟩ }
    let s := receiving (board .dmaRx c)
    s.cur.agent = .dmaRx ∧ s.cfg.loopback = false ∧ s.cur.draws.data.length = 2 ∧ 2 ≤ s.cfg.bufSize ∧ s.cfg.wf = true
      ∧ s.ctx? 0 = some c ∧ c.dmaEn.rx = true ∧ c.hw.rx < s.cfg.rxCap ∧ c.desc[c.hw.rx]? = some ⟨0xB000, 0, 0xFFFFFFFC⟩
      ∧ (0xB000 : Half) &&& 0x47FE = 0 ∧ (Desc.mk 0xB000 0 0xFFFFFFFC).hwOwned = true
      ∧ (0xFFFFFFFC : Addr).toNat + s.cfg.bufSize ≤ 2 ^ 32 ∧ (Desc.mk 0xB000 0 0xFFFFFFFC).wrap = true := by decide

theorem witness_RxCompletionFillsSlot_first :
    let s := board .dmaRx live
    { s with cur := { s.cur with draws := { Draws.plain with data := [1, 2, 3, 4] } } }.cur.draws.data.length = 4
      ∧ 4 ≤ s.cfg.bufSize ∧ s.ctx? 0 = some live ∧ live.desc[live.hw.rx]? = some ⟨0x9000, 0, 0x10000⟩
      ∧ (Desc.mk 0x9000 0 0x10000).hwOwned = true ∧ (0x10000 : Addr).toNat + s.cfg.bufSize ≤ 2 ^ 32
      ∧ live.hw.rx + 1 < s.cfg.rxCap := by decide

/-- A FULL receive slot, with and without LOOPBACK, the line holding bytes of this instance behind another's, or none of it. -/
theorem witness_RxBusyDropsData :
    let c := live.at 0 ⟨0x1800, 2, 0x10000⟩
    (board .dmaRx c).cur.agent = .dmaRx ∧ small.wf = true ∧ (board .dmaRx c).ctx? 0 = some c ∧ c.dmaEn.rx = true
      ∧ c.hw.rx < small.rxCap ∧ c.desc[c.hw.rx]? = some ⟨0x1800, 2, 0x10000⟩ ∧ (0x1800 : Half) &&& 0x47FE = 0
      ∧ (Desc.mk 0x1800 2 0x10000).hwOwned = false ∧ (board .dmaRx c).cfg.loopback = false
      ∧ (looped (board .dmaRx c) []).cfg.loopback = true
      ∧ (looped (board .dmaRx c) [(1, [7]), (0, [8])]).linePending = [(1, [7])] ++ (0, [8]) :: []
      ∧ (∀ x, x ∈ [(1, ([7] : List Byte))] → x.1 ≠ 0)
      ∧ ∀ x, x ∈ (looped (board .dmaRx c) [(1, [7])]).linePending → x.1 ≠ 0 := by decide

/-- A READY transmit slot at the last index with `W`, and at the first. -/
theorem witness_TxCompletionSendsSlot :
    let c := { live.at 3 ⟨0xB800, 4, 0xFFFFFFFC⟩ with hw := ⟨0, 1⟩ }
    let s := board .dmaTx c
    s.cur.agent = .dmaTx ∧ s.cfg.wf = true ∧ s.ctx? 0 = some c ∧ c.dmaEn.tx = true ∧ c.hw.tx < s.cfg.txCap
      ∧ c.desc[s.cfg.rxCap + c.hw.tx]? = some ⟨0xB800, 4, 0xFFFFFFFC⟩ ∧ (0xB800 : Half) &&& 0x47FE = 0
      ∧ (Desc.mk 0xB800 4 0xFFFFFFFC).hwOwned = true ∧ (0xFFFFFFFC : Addr).toNat + s.cfg.bufSize ≤ 2 ^ 32
      ∧ (4 : Half).toNat ≤ s.cfg.bufSize ∧ (Desc.mk 0xB800 4 0xFFFFFFFC).wrap = true
      ∧ live.hw.tx + 1 < s.cfg.txCap := by decide

/-- The same slot for HW_TX_ERROR, with everything sent and with nothing sent. -/
theorem witness_TxFailureHandsSlotBack : 4 ≤ (4 : Half).toNat ∧ 0 ≤ (4 : Half).toNat := by decide

/-- No context, a stopped context, slots of the other owner, and operands just past their bounds. -/
theorem witness_DisabledEnginesHold :
    (board .dmaRx stopCtx).ctx? 0 = some stopCtx ∧ stopCtx.dmaEn.rx = false
      ∧ (board .dmaTx stopCtx).ctx? 0 = some stopCtx ∧ stopCtx.dmaEn.tx = false
      ∧ live.desc[live.hw.rx]? = some ⟨0x9000, 0, 0x10000⟩ ∧ (Desc.mk 0x9000 0 0x10000).hwOwned = true
      ∧ (live.at 0 ⟨0x1000, 0, 0x10000⟩).desc[live.hw.rx]? = some ⟨0x1000, 0, 0x10000⟩
      ∧ (Desc.mk 0x1000 0 0x10000).hwOwned = false ∧ small.bufSize < 5
      ∧ live.desc[small.rxCap + live.hw.tx]? = some ⟨0, 0, 0x10200⟩ ∧ (Desc.mk 0 0 0x10200).hwOwned = false
      ∧ (4 : Half).toNat < 5 := by decide

/-- A last slot without `W`, which no run reaches. -/
theorem witness_WalkPastEndFaults :
    let c := { live.at 3 ⟨0x9800, 4, 0x10300⟩ with hw := ⟨0, 1⟩ }
    (board .dmaTx c).cur.agent = .dmaTx ∧ small.wf = true ∧ (board .dmaTx c).ctx? 0 = some c ∧ c.dmaEn.tx = true
      ∧ c.hw.tx + 1 = small.txCap ∧ c.desc[small.rxCap + c.hw.tx]? = some ⟨0x9800, 4, 0x10300⟩
      ∧ (0x9800 : Half) &&& 0x47FE = 0 ∧ (Desc.mk 0x9800 4 0x10300).hwOwned = true
      ∧ (0x10300 : Addr).toNat + small.bufSize ≤ 2 ^ 32 ∧ (4 : Half).toNat ≤ small.bufSize
      ∧ (Desc.mk 0x9800 4 0x10300).wrap = false := by decide

theorem witness_LoopbackFeedsReceiver :
    let s := looped (board .dmaRx live) [(1, [7]), (0, [1, 2, 3, 4])]
    s.cur.agent = .dmaRx ∧ s.cfg.loopback = true ∧ s.cfg.wf = true ∧ s.ctx? 0 = some live ∧ live.dmaEn.rx = true
      ∧ live.hw.rx < s.cfg.rxCap ∧ live.desc[live.hw.rx]? = some ⟨0x9000, 0, 0x10000⟩ ∧ (0x9000 : Half) &&& 0x47FE = 0
      ∧ (Desc.mk 0x9000 0 0x10000).hwOwned = true ∧ (0x10000 : Addr).toNat + s.cfg.bufSize ≤ 2 ^ 32
      ∧ live.hw.rx + 1 < s.cfg.rxCap ∧ 4 ≤ s.cfg.bufSize
      ∧ s.linePending = [(1, [7])] ++ (0, [1, 2, 3, 4]) :: [] ∧ (∀ x, x ∈ [(1, ([7] : List Byte))] → x.1 ≠ 0)
      ∧ ([1, 2, 3, 4] : List Byte).length = 4 ∧ ([1, 2, 3, 4] : List Byte).length ≠ 3
      ∧ ∀ x, x ∈ (looped (board .dmaRx live) []).linePending → x.1 ≠ 0 := by decide

/-! Dispatcher. -/

/-- Each phase of an invocation, and the two ends of phase 1. -/
theorem witness_IrqDispatchPhases :
    (board .dispatcher live).cur.agent = .dispatcher ∧ small.wf = true ∧ (board .dispatcher live).ctx? 1 = none
      ∧ (board .dispatcher live).ctx? 0 = some live ∧ live.disp = .idle ∧ live.handler = true
      ∧ stopCtx.disp = .idle ∧ stopCtx.handler = false ∧ live.evt &&& evAll = 0
      ∧ { live with evt := 0x0010 }.evt &&& evAll ≠ 0
      ∧ { live with disp := .reading, handled := true }.disp = .reading
      ∧ { live with disp := .acking 0x0010 }.disp = .acking 0x0010
      ∧ { live with disp := .signalling 0x001F }.disp = .signalling 0x001F := by decide

theorem witness_DispatcherTouchesOnlyItsOwn : ∃ t, exec (.irqDispatch 0) (board .dispatcher live) = .next t := ⟨_, rfl⟩

/-! Calls. -/

theorem witness_isCall (n len : Nat) (d : Dir) :
    isCall (.wait n d) .wait n d 0 ∧ isCall (.read n len) .read n .rx len ∧ isCall (.write n len) .write n .tx len :=
  ⟨.inl ⟨rfl, rfl, rfl⟩, .inr (.inl ⟨rfl, rfl, rfl⟩), .inr (.inr ⟨rfl, rfl, rfl⟩)⟩

/-- Entry: no instance, an instance that is not active, and the slot at the cursor owned by either side. -/
theorem witness_CallEntryChecksPredicate :
    (board (.thread 0) live).idleThread 0 ∧ (inCall (board (.thread 0) live) .read .rx .entry 65535).insideAt 0 .read 0 .rx 65535 .entry
      ∧ (board (.thread 0) live).ctx? 1 = none ∧ (board (.thread 0) stopCtx).ctx? 0 = some stopCtx ∧ stopCtx.life ≠ .active
      ∧ live.life = .active ∧ small.wf = true ∧ live.cursor.get .rx < small.cap .rx
      ∧ live.desc[(if Dir.rx = .rx then 0 else small.rxCap) + live.cursor.get .rx]? = some ⟨0x9000, 0, 0x10000⟩
      ∧ (0x9000 : Half) &&& 0x47FE = 0 ∧ (Desc.mk 0x9000 0 0x10000).hwOwned = true
      ∧ live.desc[(if Dir.tx = .rx then 0 else small.rxCap) + live.cursor.get .tx]? = some ⟨0, 0, 0x10200⟩
      ∧ (Desc.mk 0 0 0x10200).hwOwned = false :=
  ⟨idle_thread _, inside_call _ _ _ _ _, by decide⟩

/-- Prep, with and without a cancellation; the slots are those of Entry. -/
theorem witness_PrepEnqueuesAndRechecks :
    (inCall (board (.thread 0) live) .read .rx .prep 4).insideAt 0 .read 0 .rx 4 .prep
      ∧ (inCall (board (.thread 0) live) .write .tx .prep 4).insideAt 0 .write 0 .tx 4 .prep
      ∧ (inCall (board (.thread 0) live) .read .rx .prep 4).ctx? 0 = some live
      ∧ ((inCall (board (.thread 0) live) .read .rx .prep 4).thr 0).cancel = false
      ∧ ((withThr (board (.thread 0) live) 0
          { Thread.initial with phase := .inCall .wait 0 .rx .prep, cancel := true }).thr 0).cancel = true :=
  ⟨inside_call _ _ _ _ _, inside_call _ _ _ _ _, by decide⟩

/-- Sleep: in the gate with no cancellation, out of the gate, and in the gate with a cancellation. -/
theorem witness_SleepHoldsUntilWoken :
    let asleep := { live with gate := ⟨[0], []⟩ }
    (inCall (board (.thread 0) asleep) .wait .rx .sleep 0).insideAt 0 .wait 0 .rx 0 .sleep
      ∧ (inCall (board (.thread 0) asleep) .wait .rx .sleep 0).ctx? 0 = some asleep ∧ 0 ∈ asleep.gate.get .rx
      ∧ ((inCall (board (.thread 0) asleep) .wait .rx .sleep 0).thr 0).cancel = false ∧ 0 ∉ live.gate.get .rx
      ∧ { Thread.initial with phase := .inCall .wait 0 .rx .sleep, cancel := true }.cancel = true :=
  ⟨inside_call _ _ _ _ _, by decide⟩

/-- Take, of each direction, on slots of each owner. -/
theorem witness_TakePhaseTakesOrRetries :
    let full := live.at 0 ⟨0x1800, 4, 0x10000⟩
    let ready := live.at 2 ⟨0x9800, 4, 0x10200⟩
    (inCall (board (.thread 0) full) .read .rx .take 4).insideAt 0 .read 0 .rx 4 .take
      ∧ (inCall (board (.thread 0) ready) .write .tx .take 4).insideAt 0 .write 0 .tx 4 .take
      ∧ full.life = .active ∧ small.wf = true ∧ (0x1800 : Half) &&& 0x47FE = 0 ∧ (0x9800 : Half) &&& 0x47FE = 0
      ∧ (0x10000 : Addr).toNat + small.bufSize ≤ 2 ^ 32 ∧ (4 : Half).toNat ≤ small.bufSize
      ∧ full.cursor.rx < small.rxCap ∧ full.desc[full.cursor.rx]? = some ⟨0x1800, 4, 0x10000⟩
      ∧ (Desc.mk 0x1800 4 0x10000).hwOwned = false ∧ ready.cursor.tx < small.txCap
      ∧ ready.desc[small.rxCap + ready.cursor.tx]? = some ⟨0x9800, 4, 0x10200⟩
      ∧ (Desc.mk 0x9800 4 0x10200).hwOwned = true ∧ live.desc[live.cursor.rx]? = some ⟨0x9000, 0, 0x10000⟩
      ∧ live.desc[small.rxCap + live.cursor.tx]? = some ⟨0, 0, 0x10200⟩ :=
  ⟨inside_call _ _ _ _ _, inside_call _ _ _ _ _, by decide⟩

theorem witness_CancelSetsFlag : (bare .env).cur.agent = .env ∧ 3 ∉ small.threads ∧ 2 ∈ small.threads := by decide

/-- A state without the instance, for every kind of agent. -/
theorem witness_AbsentInstanceFaults :
    (board (.thread 0) live).idleThread 0 ∧ (board (.thread 0) live).ctx? 1 = none ∧ (board .host live).idleHost
      ∧ (board .host live).ctx? 1 = none ∧ (board .dispatcher live).ctx? 1 = none ∧ (board .dmaRx live).ctx? 1 = none
      ∧ (board .dmaTx live).ctx? 1 = none ∧ (board .env live).ctx? 1 = none :=
  ⟨idle_thread _, by decide, idle_host _, by decide⟩

theorem witness_SpuriousWakeRemovesOneWaiter :
    (board .env live).cur.agent = .env ∧ (board .env live).ctx? 0 = some live ∧ 0 ∉ live.gate.get .rx
      ∧ 0 ∈ { live with gate := ⟨[0, 1], []⟩ }.gate.get .rx := by decide

theorem witness_WaitingChangesNoRing :
    (∃ t, exec (.read 0 4) (board (.thread 0) live) = .next t
        ∧ ((board (.thread 0) live).thr (board (.thread 0) live).me).phase ≠ .inCall .read 0 .rx .take)
      ∧ ∃ t, exec (.wait 0 .rx) (withThr (board (.thread 0) live) 0
            { Thread.initial with phase := .inCall .wait 0 .rx .prep, cancel := true }) = .next t
          ∧ t.out = .result ⟨.canceled, .num 0⟩ :=
  ⟨⟨_, rfl, by decide⟩, ⟨_, rfl, rfl⟩⟩

/-! Registry. -/

/-- Room for an id, and the full registry. -/
theorem witness_BringupHandsOutNextId :
    (bare .host).idleHost ∧ (bare .host).nextId ≠ (bare .host).cfg.nInst
      ∧ { bare .host with nextId := 1 }.nextId ≠ small.nInst
      ∧ { bare .host with nextId := 2 }.idleHost ∧ { bare .host with nextId := 2 }.nextId = small.nInst :=
  ⟨⟨rfl, rfl⟩, by decide, by decide, ⟨rfl, rfl⟩, rfl⟩

theorem witness_BringupLaysOutRing :
    let s := { laying with hostOp := .inBringup 0 }
    s.cur.agent = .host ∧ s.hostOp = .inBringup 0 ∧ s.ctx? 0 = some newCtx ∧ newCtx.life = .allocated ∧ s.cfg.wf = true
      ∧ Table.rising s.ctxs ∧ s.cur.draws.descArea = true ∧ s.cur.draws.alloc = topBuffers.map some
      ∧ s.legalBuffers 0 topBuffers ∧ { board .host newCtx with hostOp := .inBringup 0 }.layoutDrawFails :=
  ⟨rfl, rfl, rfl, rfl, by decide, by decide, rfl, rfl, witness_legalBuffers, .inr ⟨0, by decide, .inl rfl⟩⟩

theorem witness_BringupActivates :
    let s := { board .host laidCtx with hostOp := .inBringup 0 }
    s.cur.agent = .host ∧ s.hostOp = .inBringup 0 ∧ s.ctx? 0 = some laidCtx ∧ laidCtx.life = .initialized
      ∧ s.cur.draws.bringup = true ∧ { s.cur.draws with bringup := false }.bringup = false := by decide

/-- An id that is not routed: no context, or one that is not active; and one that is. -/
theorem witness_active :
    (∀ c, (board .host live).ctx? 1 = some c → c.life ≠ .active)
      ∧ (∀ c, (board .host laidCtx).ctx? 0 = some c → c.life ≠ .active)
      ∧ (board .host live).ctx? 0 = some live ∧ live.life = .active :=
  ⟨fun _ h => absurd (board_ctx h).1 (by decide), board_all (by decide), rfl, rfl⟩

/-- Step 1 of TEARDOWN: an invocation in progress, a caller inside, nobody inside. -/
theorem witness_TeardownStopsInterruptsFirst :
    (board .host live).idleHost ∧ { live with disp := .acking 1 }.disp ≠ .idle ∧ live.disp = .idle
      ∧ (∃ u k d ph, u ∈ small.threads
          ∧ ((inCall (board .host live) .read .rx .sleep 1).thr u).phase = .inCall k 0 d ph)
      ∧ ∀ u k d ph, u ∈ small.threads → ((board .host live).thr u).phase ≠ .inCall k 0 d ph := by
  refine ⟨idle_host _, by decide, rfl, ⟨0, .read, .rx, .sleep, by decide, rfl⟩, fun u k d ph hu => ?_⟩
  have : u = 0 ∨ u = 1 ∨ u = 2 := by simpa [small, Config.c0] using hu
  rcases this with rfl | rfl | rfl <;> exact Phase.noConfusion

theorem witness_TeardownUnregistersThenReleases :
    let s := { board .host stopCtx with hostOp := .inTeardown 0 true }
    s.cur.agent = .host ∧ s.hostOp = .inTeardown 0 true ∧ s.ctx? 0 = some stopCtx ∧ stopCtx.life = .stopped
      ∧ { stopCtx with life := .unregistered }.life = .unregistered := by decide

/-! The whole machine. -/

/-- Every agent of the clauses on agents, and a thread outside `THREADS`. -/
theorem witness_agents :
    (bare .dispatcher).cur.agent = .dispatcher ∧ (bare .env).cur.agent ≠ .dmaRx ∧ (bare .env).cur.agent ≠ .dmaTx
      ∧ (bare .dmaRx).cur.agent ≠ .env ∧ (bare .dmaRx).cur.agent = .dmaRx
      ∧ (bare (.thread 0)).cur.agent ≠ .host ∧ (bare (.thread 0)).cur.agent ≠ .dispatcher
      ∧ (∀ u, (bare .host).cur.agent ≠ .thread u) ∧ (bare .host).cur.agent ≠ .dispatcher
      ∧ (bare (.thread 3)).cur.agent = .thread 3 ∧ 3 ∉ small.threads :=
  ⟨rfl, by decide, by decide, by decide, rfl, by decide, by decide, fun _ => Agent.noConfusion, by decide, rfl, by decide⟩

theorem witness_InstancesAreIsolated :
    (∃ t, exec (.takeWr 0 4) (board (.thread 0) live) = .next t) ∧ (Instr.takeWr 0 4).namesInstance 1 = false
      ∧ (∃ t, exec .bringup (bare .host) = .next t) ∧ Instr.bringup.namesInstance 1 = false
      ∧ 1 ≠ (bare .host).nextId ∧ (bare .host).hostOp ≠ .inBringup 1 :=
  ⟨⟨_, rfl⟩, rfl, ⟨_, rfl⟩, rfl, by decide, by decide⟩

/-- A take sets `O` and a completion clears it. -/
theorem witness_OwnershipHasTwoWriters :
    (∃ t e x, exec (.takeWr 0 4) (board (.thread 0) live) = .next t ∧ t.ctx? 0 = some e ∧ e.desc[2]? = some x
        ∧ x.hwOwned = true ∧ live.desc[2]? = some ⟨0, 0, 0x10200⟩ ∧ (Desc.mk 0 0 0x10200).hwOwned = false)
      ∧ (∃ t e x, exec (.hwRxComplete 0 true 2) (receiving (board .dmaRx live)) = .next t ∧ t.ctx? 0 = some e
        ∧ e.desc[0]? = some x ∧ x.hwOwned = false ∧ live.desc[0]? = some ⟨0x9000, 0, 0x10000⟩
        ∧ (Desc.mk 0x9000 0 0x10000).hwOwned = true)
      ∧ live.life ≠ .allocated :=
  ⟨⟨_, _, _, rfl, rfl, rfl, by decide⟩, ⟨_, _, _, rfl, rfl, rfl, by decide⟩, by decide⟩

/-- One transmit slot is READY, and the cursor is past it. -/
def sending : Ctx := { live.at 2 ⟨0x9800, 4, 0x10200⟩ with cursor := ⟨0, 1⟩ }

/-- A live machine about to take an engine step: it meets every invariant, and it steps. -/
def running : State := { board .host sending with sched := [entry .dmaTx 0x73080000] }

theorem running_ctx {n : Nat} {c : Ctx} (h : running.ctx? n = some c) : n = 0 ∧ c = sending :=
  board_ctx (a := .host) h

theorem witness_running_steps : ∃ t, step running = .next t ∧ t.out = .moved := ⟨_, rfl, rfl⟩

theorem witness_ContextsStayWellFormed : running.cfg.wf = true ∧ running.mem.wf ∧ running.ctxsOk := by
  refine ⟨by decide, by decide, fun n c h => ?_⟩
  rw [(running_ctx h).2]
  decide

/-- The transmit ring holds one READY slot, so software owns the run from the cursor 1 up to the index 0. -/
theorem witness_RingsKeepTheirShape : running.ringsShaped := by
  intro n c h _
  rw [(running_ctx h).2]
  decide

theorem witness_BufferAccountingIsExact : running.idsOk ∧ running.accounted :=
  ⟨⟨by decide, fun n c h => by rw [(running_ctx h).1]; decide⟩, by decide, by decide⟩

theorem witness_BuffersStayApart : running.buffersApart := by
  have addrs : ∀ {k : Nat} {d : Desc}, sending.desc[k]? = some d →
      k < 4 ∧ d.addr.toNat = 0x10000 + 0x100 * k := by
    intro k d h
    have hk := (List.getElem?_eq_some_iff.mp h).1
    have hk : k < 4 := hk
    interval_cases k <;> cases h <;> decide
  intro n c k d hc hd
  rw [(running_ctx hc).2] at hd
  obtain ⟨hk, ha⟩ := addrs hd
  have h1 : running.cfg.bufSize = 4 := rfl
  have h2 : running.cfg.descBase = 0x1000 := rfl
  have h3 : running.cfg.slots = 4 := rfl
  rw [h1, h2, h3, ha]
  refine ⟨by omega, by simp [apart]; omega, fun m e j x he hx hne => ?_⟩
  rw [(running_ctx he).2] at hx
  obtain ⟨_, hb⟩ := addrs hx
  have := hne ((running_ctx he).1.trans (running_ctx hc).1.symm)
  rw [hb]
  simp [apart]
  omega

/-- An id that was handed out and is empty. -/
theorem witness_IdsAreNeverReused :
    let s := { State.driverLoad small with nextId := 1, sched := [entry .host 0x50000000] }
    s.idsOk ∧ (∃ t, step s = .next t) ∧ 0 < s.nextId ∧ s.ctx? 0 = none :=
  ⟨⟨by decide, fun _ _ h => by cases h⟩, ⟨_, rfl⟩, by decide, rfl⟩

/-- Step 3 of TEARDOWN removes a context. -/
theorem witness_BuffersReleasedAfterDmaOff :
    let c := { stopCtx with life := .unregistered }
    let s := { board .host c with hostOp := .inTeardown 0 false, sched := [entry .host 0x52000000] }
    s.ctxsOk ∧ (∃ t, step s = .next t ∧ t.ctx? 0 = none) ∧ s.ctx? 0 = some c := by
  refine ⟨fun n c h => ?_, ⟨_, rfl, rfl⟩, rfl⟩
  rw [(board_ctx (a := .host) h).2]
  decide

/-- Ring shapes with a software run that is empty, and one that is the whole sub-ring. -/
theorem witness_PredicateMeansSomeSlot :
    small.wf = true ∧ live.ringOk small ∧ live.shaped small .rx ∧ live.shaped small .tx := by decide

end Sys2Proof.Tests
end

section
/-! Proofs of the scope family: one step of the machine, by what the schedule holds (00_scope.md R14, R15). -/

namespace Sys2Proof.Machine

/-- With no entry to perform, the machine waits for the outside world. -/
theorem step_of_sched_nil {s : State} (hf : s.fault = none) (hs : s.sched = []) : step s = .next s := by
  simp only [step, hf, hs]

/-- A legal word is performed at the state that has its entry in progress; `step_illegal` is the other case. -/
theorem step_of_decode_ok {s : State} {e : Entry} {rest : List Entry} {i : Instr} (hf : s.fault = none)
    (hs : s.sched = e :: rest) (hd : decode e.word = .ok i) : step s = exec i (s.load e rest) := by
  simp only [step, hf, hs, hd]

/-- Settles O1: the two cases of the schedule, the frame of `State.load` component by component, and its one exception, the
payload of an idle thread (`State.thr_load`). -/
theorem stepRunsDecodedInstruction : Obligations.StepRunsDecodedInstruction := by
  intro s e rest i hf
  refine ⟨step_of_sched_nil hf, fun hs hd => ⟨step_of_decode_ok hf hs hd, ?_⟩⟩
  exact ⟨s.load_cur e rest, s.load_sched e rest, s.load_cfg e rest, s.load_nextId e rest, s.load_ctxs e rest,
    s.load_fault e rest, s.load_liveBuffers e rest, s.load_lineOut e rest, s.load_linePending e rest,
    s.load_hostOp e rest, s.load_mem e rest, s.load_out e rest, s.thr_load e rest⟩

end Sys2Proof.Machine
end

section
/-! Proofs of the state family: a step as the registry and the allocator's account see it, every effect of a step in one of
four forms, and what it makes of one context in one form for both directions. -/

namespace Sys2Proof

/-- What a table lists after `put` is the new value or an old one. -/
theorem Table.eq_or_of_lookup_put {α : Type} {tb : Table α} {k m : Nat} {v w : α} (h : (tb.put k v).lookup m = some w) :
    (m = k ∧ w = v) ∨ tb.lookup m = some w := by
  by_cases hm : m = k
  · subst hm
    rw [Table.lookup_put_self] at h
    exact .inl ⟨rfl, (Option.some.inj h).symm⟩
  · rw [Table.lookup_put_ne _ _ hm] at h
    exact .inr h

theorem Table.lookup_of_erase {α : Type} {tb : Table α} {k m : Nat} {w : α} (h : (tb.erase k).lookup m = some w) :
    tb.lookup m = some w := by
  by_cases hm : m = k
  · subst hm
    rw [Table.lookup_erase_self] at h
    cases h
  · rwa [Table.lookup_erase_ne _ hm] at h

end Sys2Proof

namespace Sys2Proof.Machine

theorem State.same_load (s : State) (e : Entry) (rest : List Entry) : s.Same (s.load e rest) :=
  ⟨s.load_cfg e rest, s.load_nextId e rest, s.load_ctxs e rest, s.load_liveBuffers e rest, s.load_mem e rest⟩

theorem State.illegal_same {s t : State} (h : s.illegal = .next t) : s.Same t := by
  unfold State.illegal at h
  split at h
  · split at h <;> cases h
    · exact s.same_hold
    · exact s.same_raise _
  · cases h

/-- Every step loads an entry, which leaves everything of `Same` alone, and then has one of the effects. -/
theorem step_effect {s t : State} (h : step s = .next t) : ∃ u n p, s.Same u ∧ Effect u n p t := by
  unfold step at h
  split at h
  · cases h
  · split at h
    · cases h
      exact ⟨s, 0, .control, .rfl, .quiet .rfl⟩
    · next e rest _ =>
      split at h
      · exact ⟨_, 0, .control, s.same_load e rest, .quiet (State.illegal_same h)⟩
      · rcases exec_effect h with hq | ⟨n, _, he⟩
        · exact ⟨_, 0, .control, s.same_load e rest, .quiet hq⟩
        · exact ⟨_, n, _, s.same_load e rest, he⟩

/-- A descriptor handed over: `O` is now `hw`, the buffer and WRAP stay, and the slot stays as 30_encoding.md R122 and
10_state.md R59 ask. -/
structure Desc.Handed (cfg : Config) (hw : Bool) (d x : Desc) : Prop where
  addr : x.addr = d.addr
  wrap : x.wrap = d.wrap
  owner : x.hwOwned = hw
  clean : x.reservedSet = false
  len : x.len = d.len ∨ x.len.toNat ≤ cfg.bufSize

/-- What one step can make of one context that exists, in one form for both directions: a take hands the slot at the cursor
to hardware and advances the cursor, a completion hands the slot at the hardware index to software and walks on. -/
inductive Ctx.Becomes (cfg : Config) (c : Ctx) : Part → Ctx → Prop
  | control {p e} (hk : c.controlTo e) : Becomes cfg c p e
  | taken {p dir d x} (hp : p = .send ∨ p = .drain) (hl : c.life = .active)
      (hd : c.desc[cfg.slot dir (c.cursor.get dir)]? = some d) (ho : d.hwOwned = false) (hx : d.Handed cfg true x) :
      Becomes cfg c p
        { c.setDesc (cfg.slot dir (c.cursor.get dir)) x with
          cursor := c.cursor.set dir (nextCursor cfg dir (c.cursor.get dir)) }
  | completed {dir d x ev} (hen : c.dmaEn.get dir = true) (hd : c.desc[cfg.slot dir (c.hw.get dir)]? = some d)
      (ho : d.hwOwned = true) (hx : d.Handed cfg false x) (hev : ev &&& ~~~evAll = 0) :
      Becomes cfg c .complete
        { c.setDesc (cfg.slot dir (c.hw.get dir)) x with
          evt := evRaise c.evt ev
          hw := c.hw.set dir ((nextHw cfg dir (c.hw.get dir) x.cs).getD (c.hw.get dir)) }
  | laid {addrs} (hl : c.life = .allocated) (ha : addrs.length = cfg.slots) :
      Becomes cfg c .life (c.laidOutWith cfg addrs)
  | started {evt} (hl : c.life = .initialized) (hev : evt &&& ~~~evAll = 0) : Becomes cfg c .life (c.activate evt)
  | stopped (hl : c.life = .active) (hd : c.disp = .idle) : Becomes cfg c .life c.stop
  | unregistered (hl : c.life = .stopped) : Becomes cfg c .life { c with life := .unregistered }

theorem Ctx.controlTo.life {c e : Ctx} (h : c.controlTo e) : e.life = c.life := by
  obtain ⟨_, _, _, _, _, _, _, rfl, _⟩ := h
  rfl

theorem Ctx.becomes_self (cfg : Config) (c : Ctx) (p : Part) : c.Becomes cfg p c := .control (c.controlTo_gate c.gate)

theorem toNat_ofNat_half_le {len k : Nat} (h : len ≤ k) : (BitVec.ofNat 16 len).toNat ≤ k :=
  (BitVec.toNat_ofNat len 16).trans_le ((Nat.mod_le _ _).trans h)

theorem Desc.handed_takeWr {cfg : Config} {d : Desc} {len : Nat} (h : len ≤ cfg.bufSize) :
    d.Handed cfg true { d with cs := csTakeWr d.cs, len := BitVec.ofNat 16 len } :=
  have ⟨ho, _, _, _, hw⟩ := csTakeWr_flags d.cs
  ⟨rfl, hw, ho, csTakeWr_reserved _, .inr (toNat_ofNat_half_le h)⟩

theorem Desc.handed_takeRd {cfg : Config} {d : Desc} : d.Handed cfg true { d with cs := csTakeRd d.cs } :=
  have ⟨ho, _, _, _, hw⟩ := csTakeRd_flags d.cs
  ⟨rfl, hw, ho, csTakeRd_reserved _, .inl rfl⟩

theorem Desc.handed_rxDone {cfg : Config} {d : Desc} {lf err : Bool} {len : Nat} (h : len ≤ cfg.bufSize) :
    d.Handed cfg false { d with cs := csRxDone d.cs lf err, len := BitVec.ofNat 16 len } :=
  have ⟨ho, _, _, _, hw⟩ := csRxDone_flags d.cs lf err
  ⟨rfl, hw, ho, csRxDone_reserved _ _ _, .inr (toNat_ofNat_half_le h)⟩

theorem Desc.handed_txEnd {cfg : Config} {d : Desc} {cs : Half} (hr : d.reservedSet = false)
    (hcs : cs = csTxDone d.cs ∨ cs = csTxFail d.cs) : d.Handed cfg false { d with cs := cs } := by
  rcases hcs with rfl | rfl
  · obtain ⟨ho, _, _, _, hw⟩ := csTxDone_flags d.cs
    exact ⟨rfl, hw, ho, csTxDone_reserved _ hr, .inl rfl⟩
  · obtain ⟨ho, _, _, _, hw⟩ := csTxFail_flags d.cs
    exact ⟨rfl, hw, ho, csTxFail_reserved _ hr, .inl rfl⟩

theorem obtain_length {cfg : Config} {taken : List Nat} {k : Nat} {draws : List (Option Addr)} {addrs : List Addr}
    (h : cfg.obtain taken k draws = some addrs) : addrs.length = k := by
  induction k generalizing taken draws addrs with
  | zero => cases h; rfl
  | succ k ih =>
    match draws, h with
    | some a :: rest, h =>
      simp only [Config.obtain, Option.ite_none_right_eq_some, Option.map_eq_some_iff] at h
      obtain ⟨_, as, has, rfl⟩ := h
      rw [List.length_cons, ih has]

theorem State.Same.ctx? {s t : State} (h : s.Same t) (m : Nat) : t.ctx? m = s.ctx? m := by
  obtain ⟨_, _, hctxs, _, _⟩ := h
  rw [State.ctx?, State.ctx?, hctxs]

/-- The buffers a context holds (10_state.md R55). -/
def Ctx.held (c : Ctx) (cfg : Config) : Nat := if c.life.holdsBuffers then cfg.slots else 0

/-- What one step writes into the registry and the allocator's account: nothing, or the context at one slot of the registry
becomes another one, is new, or is gone. -/
inductive Ledger (s : State) (n : Nat) (p : Part) (t : State) : Prop
  /-- the second case of `hlive` is a layout over descriptors out of reach -/
  | kept (hctxs : t.ctxs = s.ctxs) (hid : t.nextId = s.nextId)
      (hlive : t.liveBuffers = s.liveBuffers ∨ ∃ k, s.cfg.firstUnreachable 0 s.cfg.slots = some k)
  | becomes {c e} (hc : s.ctx? n = some c) (hb : c.Becomes s.cfg p e) (hctxs : t.ctxs = s.ctxs.put n e)
      (hid : t.nextId = s.nextId) (hlive : t.liveBuffers + c.held s.cfg = s.liveBuffers + e.held s.cfg)
  | born {evt} (hn : n = s.nextId) (hcap : s.nextId ≠ s.cfg.nInst) (hev : evt &&& ~~~evAll = 0)
      (hctxs : t.ctxs = s.ctxs.put n (Ctx.fresh evt)) (hid : t.nextId = s.nextId + 1)
      (hlive : t.liveBuffers = s.liveBuffers)
  | gone {c} (hc : s.ctx? n = some c) (hctxs : t.ctxs = s.ctxs.erase n) (hid : t.nextId = s.nextId)
      (hlive : t.liveBuffers = s.liveBuffers - c.held s.cfg)

theorem Ledger.of_same {s t : State} {n : Nat} {p : Part} (h : s.Same t) : Ledger s n p t :=
  have ⟨_, hid, hctxs, hlive, _⟩ := h
  .kept hctxs hid (.inl hlive)

/-- An effect that writes a context and hands out no id. -/
theorem Ledger.of_setCtx {s u t : State} {n : Nat} {p : Part} {c e : Ctx} (hc : s.ctx? n = some c)
    (hb : c.Becomes s.cfg p e) (h : (u.setCtx n e).Same t) (hctxs : u.ctxs = s.ctxs) (hid : u.nextId = s.nextId)
    (hlive : u.liveBuffers + c.held s.cfg = s.liveBuffers + e.held s.cfg) : Ledger s n p t := by
  obtain ⟨_, tid, tctxs, tlive, _⟩ := h
  refine .becomes hc hb ?_ (tid.trans hid) ?_
  · rw [tctxs, State.setCtx_ctxs, hctxs]
  · rw [tlive, State.setCtx_liveBuffers, hlive]

/-- Each effect ends in `State.Same` of a state with the parameters of `s`. -/
theorem Effect.cfg_eq {s t : State} {n : Nat} {p : Part} (h : Effect s n p t) : t.cfg = s.cfg := by
  cases h <;> rename_i h <;> exact h.1

/-- Every effect, as the registry and the account see it. -/
theorem Effect.ledger {s t : State} {n : Nat} {p : Part} (h : Effect s n p t) : Ledger s n p t := by
  cases h with
  | quiet h => exact .of_same h
  | control hc hk h =>
    have hlife := hk.life
    exact .of_setCtx hc (.control hk) h rfl rfl (by rw [Ctx.held, Ctx.held, hlife])
  | cut hc hd hm h =>
    obtain ⟨_, hid, hctxs, hlive, _⟩ := h
    exact .kept hctxs hid (.inl hlive)
  | send hc hl hd ho hm hlen hbs h =>
    obtain ⟨_, hd, _⟩ := State.readDesc_ok.mp hd
    exact .of_setCtx hc (.taken (dir := .tx) (.inl rfl) hl hd ho (Desc.handed_takeWr hlen)) h rfl rfl rfl
  | drain hc hl hd ho h =>
    obtain ⟨_, hd, _⟩ := State.readDesc_ok.mp hd
    exact .of_setCtx hc (.taken (dir := .rx) (.inr rfl) hl hd ho Desc.handed_takeRd) h rfl rfl rfl
  | filled hc hen hd ho hm hlen hev hw h =>
    obtain ⟨_, hd, _⟩ := State.readDesc_ok.mp hd
    subst hw
    exact .of_setCtx hc (.completed (dir := .rx) hen hd ho (Desc.handed_rxDone hlen) hev) h rfl rfl rfl
  | sent hc hen hd ho hcs hev hw h =>
    obtain ⟨_, hd, hr⟩ := State.readDesc_ok.mp hd
    subst hw
    exact .of_setCtx hc (.completed (dir := .tx) hen hd ho (Desc.handed_txEnd hr hcs) hev) h rfl rfl rfl
  | born hn hcap hev h =>
    obtain ⟨_, hid, hctxs, hlive, _⟩ := h
    exact .born hn hcap hev hctxs hid hlive
  | laid hc hl ha h =>
    exact .of_setCtx hc (.laid hl (obtain_length ha)) h rfl rfl
      (by simp [Ctx.held, hl, Ctx.laidOutWith, Life.holdsBuffers])
  | @stranded k t hk h =>
    obtain ⟨_, hid, hctxs, _, _⟩ := h
    exact .kept hctxs hid (.inr ⟨k, hk⟩)
  | started hc hl hev h =>
    exact .of_setCtx hc (.started hl hev) h rfl rfl (by simp [Ctx.held, hl, Ctx.activate, Life.holdsBuffers])
  | dropped hc hl h =>
    obtain ⟨_, hid, hctxs, hlive, _⟩ := h
    exact .gone hc hctxs hid (by simp [Ctx.held, hlive, hl, Life.holdsBuffers])
  | released hc hl h =>
    obtain ⟨_, hid, hctxs, hlive, _⟩ := h
    exact .gone hc hctxs hid (by rcases hl with hl | hl <;> simp [Ctx.held, hlive, hl, Life.holdsBuffers])
  | stopped hc hl hd h =>
    exact .of_setCtx hc (.stopped hl hd) h rfl rfl (by simp [Ctx.held, hl, Ctx.stop, Life.holdsBuffers])
  | unregistered hc hl h =>
    exact .of_setCtx hc (.unregistered hl) h rfl rfl (by simp [Ctx.held, hl, Life.holdsBuffers])

/-- The registry and the account read nothing that `Same` leaves open. -/
theorem Ledger.of_same_before {s u t : State} {n : Nat} {p : Part} (hu : s.Same u) (h : Ledger u n p t) :
    Ledger s n p t := by
  obtain ⟨hcfg, hnext, hctxs, hlive, _⟩ := hu
  cases h with
  | kept h1 h2 h3 => exact .kept (hctxs ▸ h1) (hnext ▸ h2) (hcfg ▸ hlive ▸ h3)
  | becomes hc hb h1 h2 h3 =>
    rw [State.ctx?, hctxs] at hc
    exact .becomes hc (hcfg ▸ hb) (hctxs ▸ h1) (hnext ▸ h2) (hcfg ▸ hlive ▸ h3)
  | born hn hcap hev h1 h2 h3 =>
    exact .born (hnext ▸ hn) (hnext ▸ hcfg ▸ hcap) hev (hctxs ▸ h1) (hnext ▸ h2) (hlive ▸ h3)
  | gone hc h1 h2 h3 =>
    rw [State.ctx?, hctxs] at hc
    exact .gone hc (hctxs ▸ h1) (hnext ▸ h2) (hcfg ▸ hlive ▸ h3)

/-- Every step, as the registry and the account see it; the parameters stay. -/
theorem step_ledger {s t : State} (h : step s = .next t) : t.cfg = s.cfg ∧ ∃ n p, Ledger s n p t := by
  obtain ⟨u, n, p, hu, he⟩ := step_effect h
  exact ⟨he.cfg_eq.trans hu.1, n, p, he.ledger.of_same_before hu⟩

/-- A context after a step is new, under the next id, or what the step made of a context that was there. -/
theorem Ledger.ctx?_cases {s t : State} {n m : Nat} {p : Part} {e : Ctx} (h : Ledger s n p t) (he : t.ctx? m = some e) :
    (m = s.nextId ∧ t.nextId = s.nextId + 1 ∧ ∃ evt, evt &&& ~~~evAll = 0 ∧ e = Ctx.fresh evt)
      ∨ ∃ c, s.ctx? m = some c ∧ c.Becomes s.cfg p e := by
  have kept (he : s.ctx? m = some e) : ∃ c, s.ctx? m = some c ∧ c.Becomes s.cfg p e := ⟨e, he, e.becomes_self ..⟩
  unfold State.ctx? at he
  cases h with
  | kept hctxs _ _ =>
    rw [hctxs] at he
    exact .inr (kept he)
  | becomes hc hb hctxs _ _ =>
    rcases Table.eq_or_of_lookup_put (hctxs ▸ he) with ⟨rfl, rfl⟩ | he
    · exact .inr ⟨_, hc, hb⟩
    · exact .inr (kept he)
  | born hn _ hev hctxs hid _ =>
    rcases Table.eq_or_of_lookup_put (hctxs ▸ he) with ⟨rfl, rfl⟩ | he
    · exact .inl ⟨hn, hid, _, hev, rfl⟩
    · exact .inr (kept he)
  | gone _ hctxs _ _ => exact .inr (kept (Table.lookup_of_erase (hctxs ▸ he)))

theorem Ledger.nextId_cases {s t : State} {n : Nat} {p : Part} (h : Ledger s n p t) :
    t.nextId = s.nextId ∨ (s.nextId ≠ s.cfg.nInst ∧ t.nextId = s.nextId + 1) := by
  cases h with
  | kept _ hid _ => exact .inl hid
  | becomes _ _ _ hid _ => exact .inl hid
  | born _ hcap _ _ hid _ => exact .inr ⟨hcap, hid⟩
  | gone _ _ hid _ => exact .inl hid

end Sys2Proof.Machine
end

section
/-! Proofs of the state family: the sticky fault (10_state.md R56), the two writers of `O` (R37), and the ids (R52). -/

namespace Sys2Proof.Machine

/-- Settles O7: `step` looks at the fault record before the schedule, so no entry gets past it, and `State.final` asks for an
empty record. -/
theorem faultIsSticky : Obligations.FaultIsSticky := by
  intro s f hf
  have stopped {u : State} (hu : u.fault = some f) : step u = .fault (.stopped f.reason) := by simp only [step, hu]
  exact ⟨stopped hf, fun _ => stopped hf, by simp [State.final, hf]⟩

/-- After one slot is handed over, every slot is as it was or is the one handed over. -/
theorem Desc.eq_or_handed_of_set {cfg : Config} {hw : Bool} {l : List Desc} {j k : Nat} {y z d x : Desc}
    (hj : l[j]? = some y) (hz : y.Handed cfg hw z) (hd : l[k]? = some d) (hx : (l.set j z)[k]? = some x) :
    x = d ∨ d.Handed cfg hw x := by
  by_cases hjk : j = k
  · subst hjk
    rw [List.getElem?_set_self (List.getElem?_eq_some_iff.mp hj).1] at hx
    rw [hd] at hj
    cases hx
    cases hj
    exact .inr hz
  · rw [List.getElem?_set_ne hjk, hd] at hx
    exact .inl (Option.some.inj hx).symm

/-- Past `Allocated`, a slot is left alone, or a take hands it to hardware, or a completion hands it to software. -/
theorem Ctx.Becomes.desc_cases {cfg : Config} {c e : Ctx} {p : Part} {k : Nat} {d x : Desc} (h : c.Becomes cfg p e)
    (hl : c.life ≠ .allocated) (hd : c.desc[k]? = some d) (hx : e.desc[k]? = some x) :
    x = d ∨ (d.Handed cfg true x ∧ (p = .send ∨ p = .drain)) ∨ (d.Handed cfg false x ∧ p = .complete) := by
  have kept (hx : c.desc[k]? = some x) : x = d := Option.some.inj (hx.symm.trans hd)
  cases h with
  | control hk =>
    obtain ⟨_, _, _, _, _, _, _, rfl, _⟩ := hk
    exact .inl (kept hx)
  | taken hp _ hj _ hz => exact (Desc.eq_or_handed_of_set hj hz hd hx).imp_right fun hz => .inl ⟨hz, hp⟩
  | completed _ hj _ hz _ => exact (Desc.eq_or_handed_of_set hj hz hd hx).imp_right fun hz => .inr ⟨hz, rfl⟩
  | laid ha _ => exact absurd ha hl
  | started _ _ => exact .inl (kept hx)
  | stopped _ _ => exact .inl (kept hx)
  | unregistered _ => exact .inl (kept hx)

/-- The takes, bare and in a call. -/
theorem eq_take_of_part {i : Instr} (h : i.part = .send ∨ i.part = .drain) :
    ∃ m len, i = .takeWr m len ∨ i = .takeRd m len ∨ i = .read m len ∨ i = .write m len := by
  cases i with
  | takeWr m len => exact ⟨m, len, .inl rfl⟩
  | takeRd m len => exact ⟨m, len, .inr (.inl rfl)⟩
  | read m len => exact ⟨m, len, .inr (.inr (.inl rfl))⟩
  | write m len => exact ⟨m, len, .inr (.inr (.inr rfl))⟩
  | _ => simp [Instr.part] at h

/-- The completions of the engines. -/
theorem eq_completion_of_part {i : Instr} (h : i.part = .complete) :
    ∃ m len lf, i = .hwRxComplete m lf len ∨ i = .hwRxCompleteErr m lf len ∨ i = .hwTxComplete m
      ∨ i = .hwTxError m len := by
  cases i with
  | hwRxComplete m lf len => exact ⟨m, len, lf, .inl rfl⟩
  | hwRxCompleteErr m lf len => exact ⟨m, len, lf, .inr (.inl rfl)⟩
  | hwTxComplete m => exact ⟨m, 0, false, .inr (.inr (.inl rfl))⟩
  | hwTxError m len => exact ⟨m, len, false, .inr (.inr (.inr rfl))⟩
  | _ => simp [Instr.part] at h

/-- Settles O49: an operation has an effect in its own part only, a fresh context has no descriptors, and on a context that
stays the part says who wrote the slot. -/
theorem ownershipHasTwoWriters : Obligations.OwnershipHasTwoWriters := by
  intro s t i n k c e d x h hc hl he hd hx
  have hb : c.Becomes s.cfg i.part e := by
    rcases exec_effect h with hq | ⟨m, _, hf⟩
    · rw [hq.ctx?, hc] at he
      cases he
      exact c.becomes_self ..
    · rcases hf.ledger.ctx?_cases he with ⟨_, _, evt, _, rfl⟩ | ⟨c', hc', hb⟩
      · simp [Ctx.fresh] at hx
      · rw [hc] at hc'
        cases hc'
        exact hb
  rcases hb.desc_cases hl hd hx with rfl | ⟨hz, hp⟩ | ⟨hz, hp⟩
  · exact ⟨rfl, rfl, fun h0 h1 => absurd h1 (by simp [h0]), fun h1 h0 => absurd h1 (by simp [h0])⟩
  · exact ⟨hz.addr, hz.wrap, fun _ _ => eq_take_of_part hp, fun _ h0 => absurd hz.owner (by simp [h0])⟩
  · exact ⟨hz.addr, hz.wrap, fun _ h1 => absurd hz.owner (by simp [h1]), fun _ _ => eq_completion_of_part hp⟩

/-- Settles O50: a step moves the next id by at most one and only below the capacity, and a context appears only under the
id it hands out. -/
theorem idsAreNeverReused : Obligations.IdsAreNeverReused := by
  intro s t ⟨hcap, hids⟩ h
  obtain ⟨hcfg, n, p, hl⟩ := step_ledger h
  have hle : s.nextId ≤ t.nextId ∧ t.nextId ≤ s.cfg.nInst := by
    rcases hl.nextId_cases with hid | ⟨hne, hid⟩ <;> omega
  refine ⟨⟨hcfg ▸ hle.2, fun m e he => ?_⟩, hle.1, fun m hm hnone => ?_, hcfg⟩
  · rcases hl.ctx?_cases he with ⟨hm, hid, _⟩ | ⟨c, hc, _⟩
    · omega
    · exact (hids m c hc).trans_le hle.1
  · refine Option.eq_none_iff_forall_ne_some.mpr fun e he => ?_
    rcases hl.ctx?_cases he with ⟨hid, _⟩ | ⟨c, hc, _⟩
    · omega
    · simp [hnone] at hc

end Sys2Proof.Machine
end

section
/-! Proofs of the state family: every step keeps every context well formed (10_state.md R32, R38, R41 to R44, R59). -/

namespace Sys2Proof.Machine

/-! One form for both directions of the index registers. -/

theorem PerDir.forall_get_set {α : Type} {p : PerDir α} {dir : Dir} {v : α} {P : Dir → α → Prop} (hv : P dir v)
    (hp : ∀ d, P d (p.get d)) (d : Dir) : P d ((p.set dir v).get d) := by
  by_cases hd : d = dir
  · subst hd
    rwa [PerDir.get_set_self]
  · rw [PerDir.get_set_ne p v hd]
    exact hp d

theorem Ctx.ringOk_iff_get {c : Ctx} {cfg : Config} :
    c.ringOk cfg ↔ c.desc.length = cfg.slots ∧ (∀ k, k < cfg.slots → c.descOk cfg k = true)
      ∧ (∀ d, c.cursor.get d < cfg.cap d) ∧ ∀ d, c.hw.get d < cfg.cap d := by
  constructor
  · rintro ⟨hlen, hdesc, hcr, hhr, hct, hht⟩
    exact ⟨hlen, hdesc, fun d => by cases d <;> assumption, fun d => by cases d <;> assumption⟩
  · rintro ⟨hlen, hdesc, hcur, hhw⟩
    exact ⟨hlen, hdesc, hcur .rx, hhw .rx, hcur .tx, hhw .tx⟩

theorem cap_pos {cfg : Config} (h : cfg.wf = true) (d : Dir) : 0 < cfg.cap d := by
  simp only [Config.wf, sizeOk, Bool.and_eq_true, decide_eq_true_eq] at h
  cases d <;> simp only [Config.cap] <;> omega

theorem nextCursor_lt {cfg : Config} {d : Dir} {i : Nat} (h : i < cfg.cap d) : nextCursor cfg d i < cfg.cap d := by
  rw [nextCursor_eq h]
  split <;> omega

/-! Descriptors of a well-formed ring. -/

theorem Ctx.descOk_iff {c : Ctx} {cfg : Config} {k : Nat} :
    c.descOk cfg k = true ↔ ∃ d, c.desc[k]? = some d ∧ d.ok cfg k = true := by
  unfold Ctx.descOk
  cases c.desc[k]? <;> simp

theorem Desc.ok_iff {d : Desc} {cfg : Config} {k : Nat} :
    d.ok cfg k = true ↔ d.reservedSet = false ∧ d.len.toNat ≤ cfg.bufSize
      ∧ d.wrap = (k + 1 == cfg.rxCap || k + 1 == cfg.slots) := by
  simp [Desc.ok, and_assoc]

theorem Desc.Handed.ok {cfg : Config} {hw : Bool} {d x : Desc} {k : Nat} (h : d.Handed cfg hw x)
    (hd : d.ok cfg k = true) : x.ok cfg k = true := by
  obtain ⟨_, hlen, hwrap⟩ := Desc.ok_iff.mp hd
  refine Desc.ok_iff.mpr ⟨h.clean, ?_, h.wrap.trans hwrap⟩
  rcases h.len with hx | hx
  · rwa [hx]
  · exact hx

/-- WRAP is on the last slot of each sub-ring (10_state.md R38). -/
theorem Desc.wrap_of_ok {cfg : Config} {d : Desc} {dir : Dir} {i : Nat} (hwf : cfg.wf = true) (hi : i < cfg.cap dir)
    (hd : d.ok cfg (cfg.slot dir i) = true) : d.wrap = (i + 1 == cfg.cap dir) := by
  have hrx := cap_pos hwf .rx
  have htx := cap_pos hwf .tx
  obtain ⟨_, _, hwrap⟩ := Desc.ok_iff.mp hd
  rw [hwrap, Bool.eq_iff_iff]
  cases dir <;>
    simp only [Config.slot, Config.slots, Config.cap, Bool.or_eq_true, beq_iff_eq] at * <;> omega

theorem Ctx.descOk_setDesc {c : Ctx} {cfg : Config} {hw : Bool} {j k : Nat} {y z : Desc} (hj : c.desc[j]? = some y)
    (hz : y.Handed cfg hw z) (hk : c.descOk cfg k = true) : (c.setDesc j z).descOk cfg k = true := by
  obtain ⟨d, hd, hok⟩ := Ctx.descOk_iff.mp hk
  have hlt : k < (c.desc.set j z).length := by
    rw [List.length_set]
    exact (List.getElem?_eq_some_iff.mp hd).1
  have hx := List.getElem?_eq_getElem hlt
  refine Ctx.descOk_iff.mpr ⟨_, hx, ?_⟩
  rcases Desc.eq_or_handed_of_set hj hz hd hx with h | h
  · rwa [h]
  · exact h.ok hok

/-- On a ring whose WRAP is where it must be, the walk of the hardware index is the advance of the cursor (42_dma_engine.md
R253, 40_ring.md R205). -/
theorem nextHw_eq_nextCursor {cfg : Config} {d x : Desc} {dir : Dir} {i : Nat} {hw : Bool} (hwf : cfg.wf = true)
    (hi : i < cfg.cap dir) (hd : d.ok cfg (cfg.slot dir i) = true) (hx : d.Handed cfg hw x) :
    nextHw cfg dir i x.cs = some (nextCursor cfg dir i) := by
  have hwrap : anyBit x.cs csW = (i + 1 == cfg.cap dir) := Desc.wrap_of_ok hwf hi (hx.ok hd)
  rw [nextHw_wrap (by rw [hwrap, beq_iff_eq]; omega), nextCursor_eq hi, hwrap]
  congr 1
  by_cases h : i + 1 = cfg.cap dir
  · rw [if_pos (by simpa using h), if_pos (by omega)]
  · rw [if_neg (by simpa using h), if_neg (by omega)]

/-! The ring that RING_INIT lays out. -/

theorem layout_length (cfg : Config) (k : Nat) (addrs : List Addr) : (cfg.layout k addrs).length = addrs.length := by
  induction addrs generalizing k with
  | nil => rfl
  | cons a as ih => simp [Config.layout, ih]

theorem layout_getElem? (cfg : Config) (k i : Nat) (addrs : List Addr) :
    (cfg.layout k addrs)[i]? = addrs[i]?.map (fun a => ⟨cfg.csInit (k + i), 0, a⟩) := by
  induction addrs generalizing k i with
  | nil => rfl
  | cons a as ih =>
    cases i with
    | zero => rfl
    | succ i => simp [Config.layout, ih, Nat.add_assoc, Nat.add_comm 1]

theorem csInit_reserved (cfg : Config) (k : Nat) : anyBit (cfg.csInit k) csRsv = false := by
  unfold Config.csInit
  split
  · exact csInitRx_reserved _ _
  · exact csInitTx_reserved _ _

/-- After RING_INIT hardware owns the receive slots and software the transmit slots (40_ring.md R201). -/
theorem csInit_owner (cfg : Config) (k : Nat) : anyBit (cfg.csInit k) csO = decide (k < cfg.rxCap) := by
  unfold Config.csInit
  split
  · next h => simp [(csInitRx_flags cfg k).1, h]
  · next h => simp [(csInitTx_flags cfg _).1, h]

theorem csInit_wrap {cfg : Config} {k : Nat} (hwf : cfg.wf = true) (hk : k < cfg.slots) :
    anyBit (cfg.csInit k) csW = (k + 1 == cfg.rxCap || k + 1 == cfg.slots) := by
  have htx : 0 < cfg.txCap := cap_pos hwf .tx
  have hk : k < cfg.rxCap + cfg.txCap := hk
  unfold Config.csInit Config.slots
  split
  · next h =>
    rw [(csInitRx_flags cfg k).2.2, Bool.eq_iff_iff]
    simp
    omega
  · next h =>
    rw [(csInitTx_flags cfg _).2, Bool.eq_iff_iff]
    simp
    omega

/-- The descriptor at position `k` of a fresh ring. -/
theorem Ctx.laidOutWith_desc {cfg : Config} {addrs : List Addr} (c : Ctx) {k : Nat} (hk : k < addrs.length) :
    ∃ a, (c.laidOutWith cfg addrs).desc[k]? = some ⟨cfg.csInit k, 0, a⟩ := by
  refine ⟨addrs[k], ?_⟩
  simp [Ctx.laidOutWith, layout_getElem?, hk]

theorem Ctx.ringOk_laidOutWith {cfg : Config} {c : Ctx} {addrs : List Addr} (hwf : cfg.wf = true)
    (ha : addrs.length = cfg.slots) (hhw : c.hw = ⟨0, 0⟩) : (c.laidOutWith cfg addrs).ringOk cfg := by
  have hpos (d : Dir) : (⟨0, 0⟩ : PerDir Nat).get d < cfg.cap d := by cases d <;> exact cap_pos hwf _
  refine Ctx.ringOk_iff_get.mpr ⟨(layout_length ..).trans ha, fun k hk => ?_, hpos, ?_⟩
  · obtain ⟨a, hd⟩ := c.laidOutWith_desc (ha ▸ hk)
    exact Ctx.descOk_iff.mpr ⟨_, hd, Desc.ok_iff.mpr ⟨csInit_reserved cfg k, Nat.zero_le _, csInit_wrap hwf hk⟩⟩
  · rw [Ctx.laidOutWith, hhw]
    exact hpos

/-! What a step keeps of one context. -/

/-- With everything off, a context that is not `Active` is under control. -/
theorem Ctx.controlOk_of_off {c : Ctx} (hevt : c.evt &&& ~~~evAll = 0) (himask : c.imask &&& ~~~evAll = 0)
    (hhandler : c.handler = false) (hdma : c.dmaEn = ⟨false, false⟩) (hdisp : c.disp = .idle) (hl : c.life ≠ .active)
    (hr : c.life ≠ .released) : c.controlOk := by
  simp [Ctx.controlOk, hevt, himask, hhandler, hdma, hdisp, hl, hr]

/-- A context that is not `Active` has everything off (10_state.md R44, 43_dispatcher.md R277). -/
theorem Ctx.off_of_controlOk {c : Ctx} (h : c.controlOk) (hl : c.life ≠ .active) :
    c.handler = false ∧ c.dmaEn = ⟨false, false⟩ ∧ c.disp = .idle := by
  obtain ⟨_, _, hhandler, hrx, htx, hdisp, _⟩ := h
  refine ⟨Bool.eq_false_iff.mpr fun h => hl (hhandler.mp h), ?_, Classical.not_not.mp fun h => hl (hdisp h)⟩
  exact congrArg₂ PerDir.mk (Bool.eq_false_iff.mpr fun h => hl (hrx.mp h)) (Bool.eq_false_iff.mpr fun h => hl (htx.mp h))

theorem Ctx.active_of_dmaEn {c : Ctx} {dir : Dir} (h : c.controlOk) (hen : c.dmaEn.get dir = true) :
    c.life = .active := by
  obtain ⟨_, _, _, hrx, htx, _, _⟩ := h
  cases dir
  · exact hrx.mp hen
  · exact htx.mp hen

theorem Ctx.Becomes.controlOk {cfg : Config} {c e : Ctx} {p : Part} (h : c.Becomes cfg p e) (hc : c.controlOk) :
    e.controlOk := by
  have off := Ctx.off_of_controlOk hc
  obtain ⟨hevt, himask, hhandler, hrx, htx, hdisp, hreleased⟩ := hc
  cases h with
  | control hk =>
    obtain ⟨_, evt, imask, disp, _, _, _, rfl, hev, him, hdi⟩ := hk
    refine ⟨hev hevt, ?_, hhandler, hrx, htx, fun hd => (hdi hd).elim hdisp hhandler.mp, hreleased⟩
    rcases him with rfl | him
    · exact himask
    · exact him
  | taken _ _ _ _ _ => exact ⟨hevt, himask, hhandler, hrx, htx, hdisp, hreleased⟩
  | completed _ _ _ _ hev => exact ⟨evRaise_reserved hevt hev, himask, hhandler, hrx, htx, hdisp, hreleased⟩
  | laid hl _ =>
    obtain ⟨hh, hd, hi⟩ := off (by simp [hl])
    exact Ctx.controlOk_of_off hevt himask hh hd hi nofun nofun
  | started _ hev =>
    exact ⟨hev, BitVec.and_not_self _, iff_of_true rfl rfl, iff_of_true rfl rfl, iff_of_true rfl rfl, fun _ => rfl, nofun⟩
  | stopped _ hd => exact Ctx.controlOk_of_off hevt BitVec.zero_and rfl rfl hd nofun nofun
  | unregistered hl =>
    obtain ⟨hh, hd, hi⟩ := off (by simp [hl])
    exact Ctx.controlOk_of_off hevt himask hh hd hi nofun nofun

/-- Past activation only the ring matters. -/
theorem Ctx.layoutOk_of_ring {c : Ctx} {cfg : Config} (hl : c.life = .active ∨ c.life = .stopped ∨ c.life = .unregistered)
    (hr : c.ringOk cfg) : c.layoutOk cfg := by
  refine ⟨fun h => ?_, fun _ => hr, fun h => ?_⟩ <;> rcases hl with hl | hl | hl <;> simp [hl, Life.holdsBuffers] at h

theorem Ctx.Becomes.layoutOk {cfg : Config} {c e : Ctx} {p : Part} (h : c.Becomes cfg p e) (hwf : cfg.wf = true)
    (hc : c.controlOk) (hlay : c.layoutOk cfg) : e.layoutOk cfg := by
  obtain ⟨hnone, hring, hzero⟩ := hlay
  cases h with
  | control hk =>
    obtain ⟨_, _, _, _, _, _, _, rfl, _⟩ := hk
    exact ⟨hnone, hring, hzero⟩
  | taken _ hl hd _ hx =>
    obtain ⟨hlen, hdesc, hcur, hhw⟩ := Ctx.ringOk_iff_get.mp (hring (by simp [hl, Life.holdsBuffers]))
    refine Ctx.layoutOk_of_ring (.inl hl) (Ctx.ringOk_iff_get.mpr ⟨?_, fun k hk => ?_, ?_, hhw⟩)
    · exact (List.length_set ..).trans hlen
    · exact Ctx.descOk_setDesc hd hx (hdesc k hk)
    · exact PerDir.forall_get_set (P := fun d i => i < cfg.cap d) (nextCursor_lt (hcur _)) hcur
  | @completed dir _ _ _ hen hd _ hx _ =>
    have hl := Ctx.active_of_dmaEn hc hen
    obtain ⟨hlen, hdesc, hcur, hhw⟩ := Ctx.ringOk_iff_get.mp (hring (by simp [hl, Life.holdsBuffers]))
    obtain ⟨_, hd', hok⟩ := Ctx.descOk_iff.mp (hdesc _ (slot_lt (hhw dir)))
    cases hd.symm.trans hd'
    refine Ctx.layoutOk_of_ring (.inl hl) (Ctx.ringOk_iff_get.mpr ⟨?_, fun k hk => ?_, hcur, ?_⟩)
    · exact (List.length_set ..).trans hlen
    · exact Ctx.descOk_setDesc hd hx (hdesc k hk)
    · rw [nextHw_eq_nextCursor hwf (hhw dir) hok hx]
      exact PerDir.forall_get_set (P := fun d i => i < cfg.cap d) (nextCursor_lt (hhw dir)) hhw
  | laid hl ha =>
    obtain ⟨_, hhw⟩ := hzero (.inl hl)
    exact ⟨nofun, fun _ => Ctx.ringOk_laidOutWith hwf ha hhw, fun _ => ⟨rfl, hhw⟩⟩
  | started hl _ =>
    obtain ⟨_, hhw⟩ := hzero (.inr hl)
    have hr := hring (by simp [hl, Life.holdsBuffers])
    rw [Ctx.ringOk, hhw] at hr
    exact Ctx.layoutOk_of_ring (.inl rfl) hr
  | stopped hl _ => exact Ctx.layoutOk_of_ring (.inr (.inl rfl)) (hring (by simp [hl, Life.holdsBuffers]))
  | unregistered hl => exact Ctx.layoutOk_of_ring (.inr (.inr rfl)) (hring (by simp [hl, Life.holdsBuffers]))

/-- A new context has everything off and no ring (45_registry.md R332). -/
theorem Ctx.fresh_ok {cfg : Config} {evt : Half} (h : evt &&& ~~~evAll = 0) :
    (Ctx.fresh evt).controlOk ∧ (Ctx.fresh evt).layoutOk cfg :=
  ⟨Ctx.controlOk_of_off h BitVec.zero_and rfl rfl rfl nofun nofun, fun _ => rfl, nofun, fun _ => ⟨rfl, rfl⟩⟩

/-- Settles O53: a context after the step is new, or what the step made of a well-formed one. -/
theorem contextsStayWellFormed : Obligations.ContextsStayWellFormed := by
  intro s t hwf hok h m e he
  obtain ⟨hcfg, n, p, hl⟩ := step_ledger h
  rw [hcfg]
  rcases hl.ctx?_cases he with ⟨_, _, evt, hev, rfl⟩ | ⟨c, hc, hb⟩
  · exact Ctx.fresh_ok hev
  · obtain ⟨hcontrol, hlayout⟩ := hok m c hc
    exact ⟨hb.controlOk hcontrol, hb.layoutOk hwf hcontrol hlayout⟩

end Sys2Proof.Machine
end

section
/-! Proofs of the state family: every step keeps the ring shape of 10_state.md R58. -/

namespace Sys2Proof.Machine

/-! The shape as a statement about a ring of `cap` slots, with the cursor at `a`, the hardware index at `b` and the owner of
each slot. -/

/-- Software owns the run from `a` up to `b`; where they meet there is one owner (10_state.md R58). -/
def ringShape (cap a b : Nat) (hw : Nat → Bool) : Prop :=
  if a = b then ∀ i, i < cap → hw i = hw 0 else ∀ i, i < cap → (hw i = false ↔ inRun a b i)

theorem Ctx.shaped_iff {c : Ctx} {cfg : Config} {d : Dir} :
    c.shaped cfg d ↔ ringShape (cfg.cap d) (c.cursor.get d) (c.hw.get d) (c.slotHw cfg d) := Iff.rfl

/-- The index after `i` in a ring of `cap` slots (40_ring.md R205). -/
abbrev ringNext (cap i : Nat) : Nat := if i = cap - 1 then 0 else i + 1

theorem ringShape.congr {cap a b : Nat} {hw hw' : Nat → Bool} (h : ringShape cap a b hw)
    (heq : ∀ i, i < cap → hw' i = hw i) : ringShape cap a b hw' := by
  unfold ringShape at *
  split at h
  · rw [if_pos ‹_›]
    intro i hi
    rw [heq i hi, heq 0 (by omega), h i hi]
  · rw [if_neg ‹_›]
    intro i hi
    rw [heq i hi, h i hi]

/-- While software owns the slot at the cursor, indices that meet mean it owns them all. -/
theorem ringShape.soft_iff {cap a b : Nat} {hw : Nat → Bool} (h : ringShape cap a b hw) (ha : a < cap)
    (ho : hw a = false) {i : Nat} (hi : i < cap) : hw i = false ↔ a = b ∨ inRun a b i := by
  unfold ringShape at h
  split at h
  · next hab => exact iff_of_true ((h i hi).trans ((h a ha).symm.trans ho)) (.inl hab)
  · next hab => simp [h i hi, hab]

/-- While hardware owns the slot at its index, indices that meet mean it owns them all. -/
theorem ringShape.hard_iff {cap a b : Nat} {hw : Nat → Bool} (h : ringShape cap a b hw) (hb : b < cap)
    (ho : hw b = true) {i : Nat} (hi : i < cap) : hw i = false ↔ a ≠ b ∧ inRun a b i := by
  unfold ringShape at h
  split at h
  · next hab => exact iff_of_false (by simp [(h i hi).trans ((h b hb).symm.trans ho)]) fun hne => hne.1 hab
  · next hab => simp [h i hi, hab]

theorem ringShape_of_soft {cap a b : Nat} {hw : Nat → Bool} (h : ∀ i, i < cap → (hw i = false ↔ a = b ∨ inRun a b i)) :
    ringShape cap a b hw := by
  unfold ringShape
  split
  · next hab => exact fun i hi => ((h i hi).mpr (.inl hab)).trans ((h 0 (by omega)).mpr (.inl hab)).symm
  · next hab => exact fun i hi => (h i hi).trans (or_iff_right hab)

theorem ringShape_of_hard {cap a b : Nat} {hw : Nat → Bool} (h : ∀ i, i < cap → (hw i = false ↔ a ≠ b ∧ inRun a b i)) :
    ringShape cap a b hw := by
  unfold ringShape
  split
  · next hab =>
    have all {i} (hi : i < cap) : hw i = true := Bool.not_eq_false _ ▸ fun hf => ((h i hi).mp hf).1 hab
    exact fun i hi => (all hi).trans (all (by omega)).symm
  · next hab => exact fun i hi => (h i hi).trans (and_iff_right hab)

/-- Handing the slot at the cursor to hardware and advancing takes the first slot off the run. -/
theorem ringShape.take {cap a b : Nat} {hw hw' : Nat → Bool} (h : ringShape cap a b hw) (ha : a < cap) (hb : b < cap)
    (ho : hw a = false) (hhw : ∀ i, i < cap → hw' i = if i = a then true else hw i) :
    ringShape cap (ringNext cap a) b hw' := by
  refine ringShape_of_hard fun i hi => ?_
  have hrun : (i ≠ a ∧ (a = b ∨ inRun a b i)) ↔ (ringNext cap a ≠ b ∧ inRun (ringNext cap a) b i) := by
    unfold inRun ringNext
    split <;> split <;> split <;> omega
  rw [← hrun, ← h.soft_iff ha ho hi, hhw i hi]
  by_cases hia : i = a <;> simp [hia]

/-- Handing the slot at the hardware index to software and walking on puts one slot behind the run. -/
theorem ringShape.complete {cap a b : Nat} {hw hw' : Nat → Bool} (h : ringShape cap a b hw) (ha : a < cap) (hb : b < cap)
    (ho : hw b = true) (hhw : ∀ i, i < cap → hw' i = if i = b then false else hw i) :
    ringShape cap a (ringNext cap b) hw' := by
  refine ringShape_of_soft fun i hi => ?_
  have hrun : (i = b ∨ (a ≠ b ∧ inRun a b i)) ↔ (a = ringNext cap b ∨ inRun a (ringNext cap b) i) := by
    unfold inRun ringNext
    split <;> split <;> split <;> omega
  rw [← hrun, ← h.hard_iff hb ho hi, hhw i hi]
  by_cases hib : i = b <;> simp [hib]

/-! The owners of the slots of a context. -/

theorem slot_inj {cfg : Config} {d e : Dir} {i j : Nat} (hi : i < cfg.cap d) (hj : j < cfg.cap e)
    (h : cfg.slot d i = cfg.slot e j) : d = e ∧ i = j := by
  cases d <;> cases e <;> simp only [Config.slot, Config.cap] at hi hj h
  · exact ⟨rfl, h⟩
  · omega
  · omega
  · exact ⟨rfl, by omega⟩

theorem Ctx.slotHw_eq {c : Ctx} {cfg : Config} {d : Dir} {i : Nat} {x : Desc} (h : c.desc[cfg.slot d i]? = some x) :
    c.slotHw cfg d i = x.hwOwned := by
  simp only [Ctx.slotHw, h]

/-- Writing one slot changes the owner of that slot of that direction only. -/
theorem Ctx.slotHw_setDesc {c : Ctx} {cfg : Config} {d e : Dir} {i j : Nat} {x y : Desc}
    (hy : c.desc[cfg.slot e j]? = some y) (hi : i < cfg.cap d) (hj : j < cfg.cap e) :
    (c.setDesc (cfg.slot e j) x).slotHw cfg d i = if d = e ∧ i = j then x.hwOwned else c.slotHw cfg d i := by
  split
  · next h =>
    obtain ⟨rfl, rfl⟩ := h
    exact Ctx.slotHw_eq (List.getElem?_set_self (List.getElem?_eq_some_iff.mp hy).1)
  · next h =>
    have hne : cfg.slot e j ≠ cfg.slot d i := fun he => h (slot_inj hi hj he.symm)
    simp only [Ctx.slotHw, Ctx.setDesc, List.getElem?_set_ne hne]

theorem Ctx.shaped_taken {c : Ctx} {cfg : Config} {dir d : Dir} {x y : Desc} (hr : c.ringOk cfg) (hs : c.shaped cfg d)
    (hy : c.desc[cfg.slot dir (c.cursor.get dir)]? = some y) (ho : y.hwOwned = false) (hx : y.Handed cfg true x) :
    Ctx.shaped { c.setDesc (cfg.slot dir (c.cursor.get dir)) x with
      cursor := c.cursor.set dir (nextCursor cfg dir (c.cursor.get dir)) } cfg d := by
  obtain ⟨_, _, hcur, hhw⟩ := Ctx.ringOk_iff_get.mp hr
  have hset {i} (hi : i < cfg.cap d) := Ctx.slotHw_setDesc (x := x) hy hi (hcur dir)
  rw [hx.owner] at hset
  change ringShape _ ((c.cursor.set dir _).get d) _ ((c.setDesc _ x).slotHw cfg d)
  by_cases hd : d = dir
  · subst hd
    rw [PerDir.get_set_self, nextCursor_eq (hcur d)]
    refine (Ctx.shaped_iff.mp hs).take (hcur d) (hhw d) ((Ctx.slotHw_eq hy).trans ho) fun i hi => ?_
    simp [hset hi]
  · rw [PerDir.get_set_ne _ _ hd]
    refine (Ctx.shaped_iff.mp hs).congr fun i hi => ?_
    simp [hset hi, hd]

theorem Ctx.shaped_completed {c : Ctx} {cfg : Config} {dir d : Dir} {x y : Desc} {evt : Half} (hwf : cfg.wf = true)
    (hr : c.ringOk cfg) (hs : c.shaped cfg d) (hy : c.desc[cfg.slot dir (c.hw.get dir)]? = some y) (ho : y.hwOwned = true)
    (hx : y.Handed cfg false x) :
    Ctx.shaped { c.setDesc (cfg.slot dir (c.hw.get dir)) x with
      evt := evt
      hw := c.hw.set dir ((nextHw cfg dir (c.hw.get dir) x.cs).getD (c.hw.get dir)) } cfg d := by
  obtain ⟨_, hdesc, hcur, hhw⟩ := Ctx.ringOk_iff_get.mp hr
  obtain ⟨_, hy', hok⟩ := Ctx.descOk_iff.mp (hdesc _ (slot_lt (hhw dir)))
  cases hy.symm.trans hy'
  have hset {i} (hi : i < cfg.cap d) := Ctx.slotHw_setDesc (x := x) hy hi (hhw dir)
  rw [hx.owner] at hset
  rw [nextHw_eq_nextCursor hwf (hhw dir) hok hx, Option.getD_some]
  change ringShape _ _ ((c.hw.set dir _).get d) ((c.setDesc _ x).slotHw cfg d)
  by_cases hd : d = dir
  · subst hd
    rw [PerDir.get_set_self, nextCursor_eq (hhw d)]
    refine (Ctx.shaped_iff.mp hs).complete (hcur d) (hhw d) ((Ctx.slotHw_eq hy).trans ho) fun i hi => ?_
    simp [hset hi]
  · rw [PerDir.get_set_ne _ _ hd]
    refine (Ctx.shaped_iff.mp hs).congr fun i hi => ?_
    simp [hset hi, hd]

/-- On a fresh ring the indices meet, hardware owns the receive slots and software the transmit slots. -/
theorem Ctx.shaped_laidOutWith {cfg : Config} {c : Ctx} {addrs : List Addr} (ha : addrs.length = cfg.slots)
    (hhw : c.hw = ⟨0, 0⟩) (d : Dir) : (c.laidOutWith cfg addrs).shaped cfg d := by
  have howner {i} (hi : i < cfg.cap d) : (c.laidOutWith cfg addrs).slotHw cfg d i = decide (d = .rx) := by
    obtain ⟨a, hd⟩ := c.laidOutWith_desc (ha.symm ▸ slot_lt hi)
    refine (Ctx.slotHw_eq hd).trans ((csInit_owner cfg _).trans ?_)
    cases d
    · exact (decide_eq_true hi).trans (decide_eq_true rfl).symm
    · simp [Config.slot]
  have hmeet : (c.laidOutWith cfg addrs).cursor.get d = (c.laidOutWith cfg addrs).hw.get d := by
    rw [Ctx.laidOutWith, hhw]
  rw [Ctx.shaped, if_pos hmeet]
  exact fun i hi => (howner hi).trans (howner (by omega)).symm

theorem Ctx.Becomes.shaped {cfg : Config} {c e : Ctx} {p : Part} (h : c.Becomes cfg p e) (hwf : cfg.wf = true)
    (hlay : c.layoutOk cfg) (hs : c.life.holdsBuffers = true → ∀ d, c.shaped cfg d)
    (he : e.life.holdsBuffers = true) (d : Dir) : e.shaped cfg d := by
  obtain ⟨_, hring, hzero⟩ := hlay
  cases h with
  | control hk =>
    obtain ⟨_, _, _, _, _, _, _, rfl, _⟩ := hk
    exact hs he d
  | taken _ _ hy ho hx => exact Ctx.shaped_taken (hring he) (hs he d) hy ho hx
  | completed _ hy ho hx _ => exact Ctx.shaped_completed hwf (hring he) (hs he d) hy ho hx
  | laid hl ha => exact Ctx.shaped_laidOutWith ha (hzero (.inl hl)).2 d
  | started hl _ =>
    have hsd := hs (by simp [hl, Life.holdsBuffers]) d
    rw [Ctx.shaped, (hzero (.inr hl)).2] at hsd
    exact hsd
  | stopped hl _ => exact hs (by simp [hl, Life.holdsBuffers]) d
  | unregistered hl => exact hs (by simp [hl, Life.holdsBuffers]) d

/-- Settles O54: a fresh context has no ring, and every other laid-out ring after the step comes from one of the
right shape, or is laid out in it. -/
theorem ringsKeepTheirShape : Obligations.RingsKeepTheirShape := by
  intro s t hwf hok hshaped h m e he hholds
  obtain ⟨hcfg, n, p, hl⟩ := step_ledger h
  rw [hcfg]
  rcases hl.ctx?_cases he with ⟨_, _, evt, _, rfl⟩ | ⟨c, hc, hb⟩
  · cases hholds
  · obtain ⟨_, hlayout⟩ := hok m c hc
    have hs (hh : c.life.holdsBuffers = true) (d : Dir) : c.shaped s.cfg d := by
      obtain ⟨hrx, htx⟩ := hshaped m c hc hh
      cases d <;> assumption
    have he := hb.shaped hwf hlayout hs hholds
    exact ⟨he .rx, he .tx⟩

end Sys2Proof.Machine
end

section
/-! Proofs of the state family: the allocator's accounting (10_state.md R55), by counting the table with one entry apart. -/

namespace Sys2Proof

/-! A rising table with the entry of one key set apart. -/

theorem Table.erase_of_lookup_none {α : Type} {tb : Table α} {k : Nat} (h : tb.lookup k = none) : tb.erase k = tb := by
  induction tb with
  | nil => rfl
  | cons x r ih =>
    obtain ⟨j, w⟩ := x
    simp only [Table.lookup] at h
    split at h
    · cases h
    · next hj => rw [Table.erase, if_neg hj, ih h]

/-- In a rising table no later entry has the first key. -/
theorem Table.erase_of_lt {α : Type} {tb : Table α} {k : Nat} (h : ∀ x ∈ tb, k < x.1) : tb.erase k = tb :=
  Table.erase_of_lookup_none <| Option.eq_none_iff_forall_ne_some.mpr fun _ hv =>
    Nat.lt_irrefl k (h _ (Table.mem_of_lookup hv))

theorem Table.perm_put {α : Type} {tb : Table α} (k : Nat) (v : α) (h : tb.rising) :
    List.Perm (tb.put k v) ((k, v) :: tb.erase k) := by
  induction tb with
  | nil => exact .refl _
  | cons x r ih =>
    obtain ⟨j, w⟩ := x
    obtain ⟨hlt, hr⟩ := List.pairwise_cons.mp h
    simp only [Table.put, Table.erase]
    split
    · next hk =>
      rw [if_neg (by omega), Table.erase_of_lt fun x hx => Nat.lt_trans hk (hlt x hx)]
    · split
      · next hj =>
        subst hj
        rw [Table.erase_of_lt hlt]
      · exact ((ih hr).cons _).trans (.swap ..)

theorem Table.perm_of_lookup {α : Type} {tb : Table α} {k : Nat} {v : α} (h : tb.rising) (hv : tb.lookup k = some v) :
    List.Perm tb ((k, v) :: tb.erase k) := by
  induction tb with
  | nil => cases hv
  | cons x r ih =>
    obtain ⟨j, w⟩ := x
    obtain ⟨hlt, hr⟩ := List.pairwise_cons.mp h
    simp only [Table.lookup] at hv
    simp only [Table.erase]
    split at hv
    · next hj =>
      subst hj
      cases hv
      rw [if_pos rfl, Table.erase_of_lt hlt]
    · next hj =>
      rw [if_neg hj]
      exact ((ih hr hv).cons _).trans (.swap ..)

end Sys2Proof

namespace Sys2Proof.Machine

/-- The buffers of every context of a table (10_state.md R55). -/
def heldOf (cfg : Config) (tb : Table Ctx) : Nat := (tb.filter (fun x => x.2.life.holdsBuffers)).length * cfg.slots

theorem heldOf_cons (cfg : Config) (n : Nat) (c : Ctx) (tb : Table Ctx) :
    heldOf cfg ((n, c) :: tb) = c.held cfg + heldOf cfg tb := by
  cases h : c.life.holdsBuffers <;> simp [heldOf, Ctx.held, h, Nat.add_mul, Nat.add_comm]

theorem heldOf_perm {cfg : Config} {ta tb : Table Ctx} (h : List.Perm ta tb) : heldOf cfg ta = heldOf cfg tb := by
  rw [heldOf, heldOf, (h.filter _).length_eq]

theorem heldOf_put {cfg : Config} {tb : Table Ctx} (n : Nat) (c : Ctx) (h : tb.rising) :
    heldOf cfg (tb.put n c) = c.held cfg + heldOf cfg (tb.erase n) :=
  (heldOf_perm (Table.perm_put n c h)).trans (heldOf_cons ..)

theorem heldOf_of_lookup {cfg : Config} {tb : Table Ctx} {n : Nat} {c : Ctx} (h : tb.rising) (hc : tb.lookup n = some c) :
    heldOf cfg tb = c.held cfg + heldOf cfg (tb.erase n) :=
  (heldOf_perm (Table.perm_of_lookup h hc)).trans (heldOf_cons ..)

theorem firstUnreachable_none {cfg : Config} {k m : Nat} (h : ∀ j, j < k + m → cfg.descReachable j = true) :
    cfg.firstUnreachable k m = none := by
  induction m generalizing k with
  | zero => rfl
  | succ m ih =>
    rw [Config.firstUnreachable, if_pos (h k (by omega))]
    exact ih fun j hj => h j (by omega)

/-- The account of a step: the keys stay in order, and what is live goes with what is held. -/
theorem Ledger.accounted {s t : State} {n : Nat} {p : Part} (h : Ledger s n p t) (hcfg : t.cfg = s.cfg)
    (hwf : s.cfg.wf = true) (hids : s.idsOk) (hs : s.accounted) : t.accounted := by
  obtain ⟨hrise, hbal⟩ := hs
  change s.liveBuffers = heldOf s.cfg s.ctxs at hbal
  suffices t.ctxs.rising ∧ t.liveBuffers = heldOf s.cfg t.ctxs from ⟨this.1, by rw [this.2, ← hcfg]; rfl⟩
  cases h with
  | kept hctxs _ hlive =>
    rw [hctxs]
    rcases hlive with hlive | ⟨k, hk⟩
    · exact ⟨hrise, hlive.trans hbal⟩
    · rw [firstUnreachable_none fun j hj => descReachable_of_wf hwf (by simpa using hj)] at hk
      cases hk
  | becomes hc _ hctxs _ hlive =>
    have hold := heldOf_of_lookup (cfg := s.cfg) hrise hc
    rw [hctxs, heldOf_put _ _ hrise]
    exact ⟨Table.rising_put _ _ hrise, by omega⟩
  | born hn _ _ hctxs _ hlive =>
    have hfree : s.ctxs.lookup n = none :=
      Option.eq_none_iff_forall_ne_some.mpr fun c hc => Nat.lt_irrefl n (hn ▸ hids.2 n c hc)
    rw [hctxs, heldOf_put _ _ hrise, Table.erase_of_lookup_none hfree]
    exact ⟨Table.rising_put _ _ hrise, by rw [hlive, hbal]; exact (Nat.zero_add _).symm⟩
  | gone hc hctxs _ hlive =>
    have hold := heldOf_of_lookup (cfg := s.cfg) hrise hc
    rw [hctxs]
    exact ⟨Table.rising_erase _ hrise, by omega⟩

/-- Settles O55: the account of the step, under a configuration whose descriptor area can be reached. -/
theorem bufferAccountingIsExact : Obligations.BufferAccountingIsExact := by
  intro s t hwf hids hs h
  obtain ⟨hcfg, _, _, hl⟩ := step_ledger h
  exact hl.accounted hcfg hwf hids hs

end Sys2Proof.Machine
end

section
/-! Proofs of the memory family: what a step writes into memory (20_memory.md R82, R99). -/

namespace Sys2Proof.Machine

theorem State.Same.mem {s t : State} (h : s.Same t) : t.mem = s.mem := by
  obtain ⟨_, _, _, _, hmem⟩ := h
  exact hmem

/-- Memory after a step is as it was, or a copy into the buffers of a context went into it, or the drawn contents of fresh
buffers did. -/
theorem Effect.mem_cases {s t : State} {n : Nat} {p : Part} (h : Effect s n p t) :
    t.mem = s.mem ∨ (∃ c a bs, t.mem = (Ctx.copyIn c s.cfg s.mem a bs).1)
      ∨ ∃ addrs fill, t.mem = s.cfg.fillBuffers s.mem addrs fill := by
  have copied {c : Ctx} {a : Nat} {bs : List Byte} {m : Memory} {tr : Option Trap}
      (hm : c.copyIn s.cfg s.mem a bs = (m, tr)) (ht : t.mem = m) :
      ∃ c a bs, t.mem = (Ctx.copyIn c s.cfg s.mem a bs).1 := ⟨c, a, bs, by rw [hm, ht]⟩
  cases h with
  | cut _ _ hm h => exact .inr (.inl (copied hm h.mem))
  | send _ _ _ _ hm _ _ h => exact .inr (.inl (copied hm h.mem))
  | filled _ _ _ _ hm _ _ _ h => exact .inr (.inl (copied hm h.mem))
  | laid _ _ _ h => exact .inr (.inr ⟨_, _, h.mem⟩)
  | _ =>
    rename_i h
    exact .inl h.mem

theorem Effect.mem_wf {s t : State} {n : Nat} {p : Part} (h : Effect s n p t) (hs : s.mem.wf) : t.mem.wf := by
  rcases h.mem_cases with hm | ⟨c, a, bs, hm⟩ | ⟨addrs, fill, hm⟩ <;> rw [hm]
  · exact hs
  · exact Ctx.copyIn_wf a bs hs
  · exact fillBuffers_wf addrs fill hs

/-- Settles O52: loading the entry writes no memory, and what the effect of the step writes keeps the form. -/
theorem memoryStaysCanonical : Obligations.MemoryStaysCanonical := by
  intro s t hs h
  obtain ⟨u, n, p, hu, he⟩ := step_effect h
  exact he.mem_wf (hu.mem ▸ hs)

end Sys2Proof.Machine
end

section
/-! Proofs of the memory family: every step keeps the buffers apart (20_memory.md R91, 40_ring.md R201). A state is read as
one list of buffer addresses for each id; a step shortens it, leaves it, or lays out one ring over fresh buffers. -/

namespace Sys2Proof

theorem apart_comm (a la b lb : Nat) : apart a la b lb = apart b lb a la := Bool.or_comm ..

/-- The buffers at two addresses have no byte in common. -/
def Config.Clear (cfg : Config) (a b : Addr) : Prop := apart a.toNat cfg.bufSize b.toNat cfg.bufSize = true

theorem Config.Clear.symm {cfg : Config} {a b : Addr} (h : cfg.Clear a b) : cfg.Clear b a := (apart_comm ..).trans h

/-- In a list of buffers clear of one another any two positions are, in either order. -/
theorem pairwise_clear_iff {cfg : Config} {l : List Addr} : l.Pairwise cfg.Clear ↔
    ∀ (k j : Nat) (a b : Addr), l[k]? = some a → l[j]? = some b → j ≠ k → cfg.Clear a b := by
  rw [List.pairwise_iff_getElem]
  constructor
  · intro h k j a b hk hj hne
    obtain ⟨hkl, rfl⟩ := List.getElem?_eq_some_iff.mp hk
    obtain ⟨hjl, rfl⟩ := List.getElem?_eq_some_iff.mp hj
    rcases Nat.lt_or_gt_of_ne hne with hlt | hlt
    · exact (h j k hjl hkl hlt).symm
    · exact h k j hkl hjl hlt
  · intro h k j hk hj hlt
    exact h k j _ _ (List.getElem?_eq_getElem hk) (List.getElem?_eq_getElem hj) (Nat.ne_of_gt hlt)

/-- A buffer address inside the 32-bit space and apart from the descriptor area. -/
def Config.Placed (cfg : Config) (a : Addr) : Prop :=
  a.toNat + cfg.bufSize ≤ 2 ^ 32 ∧ apart a.toNat cfg.bufSize cfg.descBase (8 * cfg.slots) = true

theorem bufferFree_iff {cfg : Config} {taken : List Nat} {a : Addr} : cfg.bufferFree taken a.toNat = true ↔
    cfg.Placed a ∧ ∀ b ∈ taken, apart a.toNat cfg.bufSize b cfg.bufSize = true := by
  simp [Config.bufferFree, Config.Placed]

/-- What the allocation loop obtains (40_ring.md R201): each address is free beside those taken before the loop, and they are
clear of one another. -/
theorem obtain_clear {cfg : Config} {taken : List Nat} {k : Nat} {draws : List (Option Addr)} {addrs : List Addr}
    (h : cfg.obtain taken k draws = some addrs) :
    (∀ a ∈ addrs, cfg.bufferFree taken a.toNat = true) ∧ addrs.Pairwise cfg.Clear := by
  induction k generalizing taken draws addrs with
  | zero => cases h; simp
  | succ k ih =>
    match draws, h with
    | some a :: rest, h =>
      simp only [Config.obtain, Option.ite_none_right_eq_some, Option.map_eq_some_iff] at h
      obtain ⟨hfree, as, has, rfl⟩ := h
      obtain ⟨hlater, hpair⟩ := ih has
      have hlater (b : Addr) (hb : b ∈ as) : cfg.Clear b a ∧ cfg.bufferFree taken b.toNat = true := by
        obtain ⟨hplaced, htaken⟩ := bufferFree_iff.mp (hlater b hb)
        obtain ⟨hba, htaken⟩ := List.forall_mem_cons.mp htaken
        exact ⟨hba, bufferFree_iff.mpr ⟨hplaced, htaken⟩⟩
      exact ⟨List.forall_mem_cons.mpr ⟨hfree, fun b hb => (hlater b hb).2⟩,
        List.pairwise_cons.mpr ⟨fun b hb => (hlater b hb).1.symm, hpair⟩⟩

end Sys2Proof

namespace Sys2Proof.Machine

/-- The buffer addresses of a context, slot by slot. -/
def Ctx.addrs (c : Ctx) : List Addr := c.desc.map Desc.addr

/-- The buffer addresses of the context under an id, none where the slot is empty. -/
def State.addrsOf (s : State) (n : Nat) : List Addr := (s.ctx? n).elim [] Ctx.addrs

theorem State.getElem?_addrsOf {s : State} {n k : Nat} {a : Addr} :
    (s.addrsOf n)[k]? = some a ↔ ∃ c d, s.ctx? n = some c ∧ c.desc[k]? = some d ∧ d.addr = a := by
  cases h : s.ctx? n <;> simp [State.addrsOf, Ctx.addrs, h]

/-- `State.buffersApart` as two facts about the address lists: one for each ring, one for each two rings. -/
theorem State.buffersApart_iff {s : State} : s.buffersApart ↔
    (∀ n, (∀ a ∈ s.addrsOf n, s.cfg.Placed a) ∧ (s.addrsOf n).Pairwise s.cfg.Clear)
      ∧ ∀ n m, n ≠ m → ∀ a ∈ s.addrsOf n, ∀ b ∈ s.addrsOf m, s.cfg.Clear a b := by
  constructor
  · intro h
    refine ⟨fun n => ⟨fun a ha => ?_, pairwise_clear_iff.mpr fun k j a b hk hj hne => ?_⟩, fun n m hnm a ha b hb => ?_⟩
    · obtain ⟨k, hk⟩ := List.getElem?_of_mem ha
      obtain ⟨c, d, hc, hd, rfl⟩ := State.getElem?_addrsOf.mp hk
      obtain ⟨hspace, harea, _⟩ := h n c k d hc hd
      exact ⟨hspace, harea⟩
    · obtain ⟨c, d, hc, hd, rfl⟩ := State.getElem?_addrsOf.mp hk
      obtain ⟨e, x, he, hx, rfl⟩ := State.getElem?_addrsOf.mp hj
      obtain ⟨_, _, hother⟩ := h n c k d hc hd
      exact hother n e j x he hx fun _ => hne
    · obtain ⟨k, hk⟩ := List.getElem?_of_mem ha
      obtain ⟨j, hj⟩ := List.getElem?_of_mem hb
      obtain ⟨c, d, hc, hd, rfl⟩ := State.getElem?_addrsOf.mp hk
      obtain ⟨e, x, he, hx, rfl⟩ := State.getElem?_addrsOf.mp hj
      obtain ⟨_, _, hother⟩ := h n c k d hc hd
      exact hother m e j x he hx fun hmn => absurd hmn.symm hnm
  · rintro ⟨hown, hcross⟩ n c k d hc hd
    have hk : (s.addrsOf n)[k]? = some d.addr := State.getElem?_addrsOf.mpr ⟨c, d, hc, hd, rfl⟩
    obtain ⟨hplaced, hpair⟩ := hown n
    obtain ⟨hspace, harea⟩ := hplaced _ (List.mem_of_getElem? hk)
    refine ⟨hspace, harea, fun m e j x he hx hne => ?_⟩
    have hj : (s.addrsOf m)[j]? = some x.addr := State.getElem?_addrsOf.mpr ⟨e, x, he, hx, rfl⟩
    by_cases hmn : m = n
    · subst hmn
      exact pairwise_clear_iff.mp hpair k j _ _ hk hj (hne rfl)
    · exact hcross n m (Ne.symm hmn) _ (List.mem_of_getElem? hk) _ (List.mem_of_getElem? hj)

/-! The address lists through a step. -/

theorem State.Same.ctxs {s t : State} (h : s.Same t) : t.ctxs = s.ctxs := by
  obtain ⟨_, _, hctxs, _, _⟩ := h
  exact hctxs

theorem State.addrsOf_of_ctxs {s t : State} (h : t.ctxs = s.ctxs) (m : Nat) : t.addrsOf m = s.addrsOf m := by
  rw [State.addrsOf, State.addrsOf, State.ctx?, State.ctx?, h]

theorem State.Same.addrsOf {s t : State} (h : s.Same t) (m : Nat) : t.addrsOf m = s.addrsOf m :=
  State.addrsOf_of_ctxs h.ctxs m

theorem State.addrsOf_setCtx_self (s : State) (n : Nat) (c : Ctx) : (s.setCtx n c).addrsOf n = c.addrs := by
  simp [State.addrsOf]

theorem State.addrsOf_setCtx_ne (s : State) {m n : Nat} (c : Ctx) (h : m ≠ n) :
    (s.setCtx n c).addrsOf m = s.addrsOf m := by
  rw [State.addrsOf, State.ctx?_setCtx_ne _ _ h, State.addrsOf]

theorem State.addrsOf_dropCtx_sublist (s : State) (n m : Nat) :
    ((s.dropCtx n).addrsOf m).Sublist (s.addrsOf m) := by
  by_cases h : m = n
  · subst h
    simp [State.addrsOf]
  · rw [State.addrsOf, State.ctx?_dropCtx_ne _ h, State.addrsOf]

/-- Writing a context whose buffers are still its own, or none, gives no slot a new buffer. -/
theorem State.addrsOf_setCtx_sublist {s : State} {n : Nat} {e : Ctx} (he : e.addrs.Sublist (s.addrsOf n)) (m : Nat) :
    ((s.setCtx n e).addrsOf m).Sublist (s.addrsOf m) := by
  by_cases h : m = n
  · subst h
    rwa [State.addrsOf_setCtx_self]
  · rw [State.addrsOf_setCtx_ne _ _ h]

/-- Handing a slot over keeps its buffer (10_state.md R50). -/
theorem Ctx.addrs_setDesc {s : State} {c : Ctx} {k : Nat} {d x : Desc} (hd : s.readDesc c k = .ok d)
    (hx : x.addr = d.addr) : (c.setDesc k x).addrs = c.addrs := by
  obtain ⟨_, hd, _⟩ := State.readDesc_ok.mp hd
  obtain ⟨hk, rfl⟩ := List.getElem?_eq_some_iff.mp hd
  rw [Ctx.addrs, Ctx.setDesc, List.map_set, hx, ← List.map_set, List.set_getElem_self, Ctx.addrs]

theorem Ctx.addrs_laidOutWith (c : Ctx) (cfg : Config) (addrs : List Addr) : (c.laidOutWith cfg addrs).addrs = addrs := by
  refine List.ext_getElem? fun k => ?_
  simp [Ctx.addrs, Ctx.laidOutWith, layout_getElem?, Function.comp_def]

theorem State.Same.addrsOf_setCtx {s t : State} {n : Nat} {c e : Ctx} (h : (s.setCtx n e).Same t)
    (hc : s.ctx? n = some c) (he : e.addrs = c.addrs) (m : Nat) : (t.addrsOf m).Sublist (s.addrsOf m) := by
  rw [h.addrsOf]
  exact State.addrsOf_setCtx_sublist (by simp [State.addrsOf, hc, he]) m

/-- The one way a ring comes by buffers is the allocation loop of RING_INIT (40_ring.md R201). -/
theorem Effect.addrsOf {s t : State} {n : Nat} {p : Part} (h : Effect s n p t) (m : Nat) :
    (t.addrsOf m).Sublist (s.addrsOf m)
      ∨ (m = n ∧ s.cfg.obtain (s.otherBuffers n) s.cfg.slots s.cur.draws.alloc = some (t.addrsOf m)) := by
  have same (hctxs : t.ctxs = s.ctxs) : (t.addrsOf m).Sublist (s.addrsOf m) := by rw [State.addrsOf_of_ctxs hctxs]
  cases h with
  | quiet h => exact .inl (same h.ctxs)
  | control hc hk h =>
    obtain ⟨_, _, _, _, _, _, _, rfl, _⟩ := hk
    exact .inl (h.addrsOf_setCtx hc rfl m)
  | cut _ _ _ h => exact .inl (same h.ctxs)
  | send hc _ hd _ _ _ _ h => exact .inl (h.addrsOf_setCtx hc (Ctx.addrs_setDesc hd rfl) m)
  | drain hc _ hd _ h => exact .inl (h.addrsOf_setCtx hc (Ctx.addrs_setDesc hd rfl) m)
  | filled hc _ hd _ _ _ _ _ h => exact .inl (h.addrsOf_setCtx hc (Ctx.addrs_setDesc hd rfl) m)
  | sent hc _ hd _ _ _ _ h => exact .inl (h.addrsOf_setCtx hc (Ctx.addrs_setDesc hd rfl) m)
  | born _ _ _ h =>
    rw [h.addrsOf]
    exact .inl (State.addrsOf_setCtx_sublist (e := Ctx.fresh _) (List.nil_sublist _) m)
  | laid _ _ ha h =>
    rw [h.addrsOf]
    by_cases hm : m = n
    · subst hm
      rw [State.addrsOf_setCtx_self, Ctx.addrs_laidOutWith]
      exact .inr ⟨rfl, ha⟩
    · rw [State.addrsOf_setCtx_ne _ _ hm]
      exact .inl (.refl _)
  | stranded _ h => exact .inl (same h.ctxs)
  | started hc _ _ h => exact .inl (h.addrsOf_setCtx hc rfl m)
  | dropped _ _ h =>
    rw [h.addrsOf]
    exact .inl (s.addrsOf_dropCtx_sublist n m)
  | released _ _ h =>
    rw [h.addrsOf]
    exact .inl (s.addrsOf_dropCtx_sublist n m)
  | stopped hc _ _ h => exact .inl (h.addrsOf_setCtx hc rfl m)
  | unregistered hc _ h => exact .inl (h.addrsOf_setCtx hc rfl m)

/-- The allocator is told of the buffers under every other id. -/
theorem State.mem_otherBuffers {s : State} {n m : Nat} {b : Addr} (hmn : m ≠ n) (hb : b ∈ s.addrsOf m) :
    b.toNat ∈ s.otherBuffers n := by
  obtain ⟨k, hk⟩ := List.getElem?_of_mem hb
  obtain ⟨c, d, hc, hd, rfl⟩ := State.getElem?_addrsOf.mp hk
  refine List.mem_flatMap.mpr ⟨(m, c), Table.mem_of_lookup hc, ?_⟩
  rw [if_neg hmn]
  exact List.mem_map.mpr ⟨d, List.mem_of_getElem? hd, rfl⟩

/-- A ring whose buffers an effect leaves is clear of what it was clear of; a ring laid out anew is clear of the buffers the
allocator was told of. -/
theorem Effect.buffersApart {s t : State} {n : Nat} {p : Part} (h : Effect s n p t) (hs : s.buffersApart) :
    t.buffersApart := by
  obtain ⟨hown, hcross⟩ := State.buffersApart_iff.mp hs
  rw [State.buffersApart_iff, h.cfg_eq]
  have fresh {m : Nat} {a b : Addr}
      (ho : s.cfg.obtain (s.otherBuffers n) s.cfg.slots s.cur.draws.alloc = some (t.addrsOf n)) (hm : m ≠ n)
      (ha : a ∈ t.addrsOf n) (hb : b ∈ s.addrsOf m) : s.cfg.Clear a b :=
    (bufferFree_iff.mp ((obtain_clear ho).1 a ha)).2 _ (State.mem_otherBuffers hm hb)
  refine ⟨fun m => ?_, fun m j hmj a ha b hb => ?_⟩
  · rcases h.addrsOf m with hsub | ⟨_, ho⟩
    · obtain ⟨hplaced, hpair⟩ := hown m
      exact ⟨fun a ha => hplaced a (hsub.subset ha), hpair.sublist hsub⟩
    · obtain ⟨hfree, hpair⟩ := obtain_clear ho
      exact ⟨fun a ha => (bufferFree_iff.mp (hfree a ha)).1, hpair⟩
  · rcases h.addrsOf m with hsub | ⟨rfl, ho⟩ <;> rcases h.addrsOf j with hsub' | ⟨rfl, ho'⟩
    · exact hcross m j hmj a (hsub.subset ha) b (hsub'.subset hb)
    · exact (fresh ho' hmj hb (hsub.subset ha)).symm
    · exact fresh ho hmj.symm ha (hsub'.subset hb)
    · exact absurd rfl hmj

theorem State.Same.buffersApart {s t : State} (h : s.Same t) (hs : s.buffersApart) : t.buffersApart := by
  obtain ⟨hcfg, _⟩ := id h
  simpa only [State.buffersApart, hcfg, h.ctx?] using hs

/-- Settles O56: loading the entry changes no context, and the effect of the step keeps the buffers apart. -/
theorem buffersStayApart : Obligations.BuffersStayApart := by
  intro s t hs h
  obtain ⟨u, n, p, hu, he⟩ := step_effect h
  exact he.buffersApart (hu.buffersApart hs)

end Sys2Proof.Machine
end

section
/-! Proofs of the encoding family: the decoder and the encoder are inverse (30_encoding.md R130 to R136), the rows of the
opcode map are the decoder's, and what a word that names nothing does (R133, R141). -/

namespace Sys2Proof

/-! The decoder and the encoder, on the fields of a word. -/

theorem fixedIf_eq_ok {b : Bool} {i j : Instr} : fixedIf b i = .ok j ↔ b = true ∧ i = j := by
  cases b <;> simp [fixedIf]

theorem dirBit_dirOf {b : Nat} (h : b < 2) : dirBit (dirOf b) = b := by
  have : b = 0 ∨ b = 1 := by omega
  rcases this with rfl | rfl <;> rfl

theorem toNat_beq_one {b : Nat} (h : b < 2) : (b == 1).toNat = b := by
  have : b = 0 ∨ b = 1 := by omega
  rcases this with rfl | rfl <;> rfl

theorem encodeFields_rsv (i : Instr) : (encodeFields i).rsv = 0 := by cases i <;> rfl

/-- The operands of an operation are well formed exactly when they fit their fields. -/
theorem encodeFields_fit_iff {i : Instr} : (encodeFields i).Fit ↔ i.wf = true := by
  have hdir (d : Dir) : dirBit d ≤ 1 := Nat.le_of_lt_succ (dirBit_lt d)
  have hhalf (m : Half) : m.toNat < 65536 := m.isLt
  cases i <;> simp [Fields.Fit, encodeFields, Instr.wf, instOk, immOk, hdir, hhalf, Bool.toNat_le]

/-- The row of an operation reads the operation back from its fields. -/
theorem decodeFields_encodeFields (i : Instr) : decodeFields (encodeFields i) = .ok i := by
  cases i <;> simp [decodeFields, encodeFields, fixedIf, dirOf_dirBit]

/-- What the decoder's rows accept is the encoder's fields: the fixed ones by the row's check, the variable ones because they
fit. -/
theorem encodeFields_of_decodeFields {f : Fields} {i : Instr} (hf : f.Fit) (hr : f.rsv = 0)
    (h : decodeFields f = .ok i) : encodeFields i = f := by
  obtain ⟨opc, inst, dir, rsv, lf, imm⟩ := f
  obtain ⟨-, -, hdir, -, hlf, himm⟩ := hf
  simp only at hdir hlf himm hr
  subst hr
  unfold decodeFields at h
  split at h <;> simp only [fixedIf_eq_ok, reduceCtorEq, Bool.and_eq_true, beq_iff_eq] at h
  all_goals
    obtain ⟨hfixed, rfl⟩ := h
    simp_all [encodeFields, dirBit_dirOf, toNat_beq_one, Nat.mod_eq_of_lt]

/-- The decoder as a relation: a word decodes to the operation whose fields it has, and to no other. -/
theorem decode_eq_ok_iff {w : Word} {i : Instr} : decode w = .ok i ↔ fieldsOf w = encodeFields i := by
  constructor
  · intro h
    unfold decode at h
    split at h
    · cases h
    · next j hj =>
      split at h
      · next hr =>
        cases h
        exact (encodeFields_of_decodeFields (fieldsOf_fit w) hr hj).symm
      · cases h
  · intro h
    exact decode_of_fields h (decodeFields_encodeFields i) (encodeFields_rsv i)

/-- Settles O3: operands that fit their fields come back from the packed word. -/
theorem decodeEncodeRoundTrip : Obligations.DecodeEncodeRoundTrip := by
  intro i hwf
  obtain ⟨h1, h2, h3, h4, h5, h6⟩ := encodeFields_fit_iff.mpr hwf
  exact decode_eq_ok_iff.mpr (fieldsOf_packFields h1 h2 h3 h4 h5 h6)

/-- Settles O4: the fields of a legal word are its operation's, so they fit and pack to this word. -/
theorem encodeDecodeExact : Obligations.EncodeDecodeExact := by
  intro w i h
  have hfields : fieldsOf w = encodeFields i := decode_eq_ok_iff.mp h
  exact ⟨encodeFields_fit_iff.mp (hfields ▸ fieldsOf_fit w), by rw [encode, ← hfields, packFields_fieldsOf]⟩

/-! The rows of the opcode map. -/

/-- A mask field of all ones keeps a field that fits. -/
theorem Fields.Fit.and_ones {f : Fields} (h : f.Fit) :
    f.opc &&& 255 = f.opc ∧ f.inst &&& 15 = f.inst ∧ f.dir &&& 1 = f.dir ∧ f.rsv &&& 3 = f.rsv ∧ f.lf &&& 1 = f.lf
      ∧ f.imm &&& 65535 = f.imm := by
  obtain ⟨h1, h2, h3, h4, h5, h6⟩ := h
  exact ⟨Nat.and_two_pow_sub_one_of_lt_two_pow (n := 8) h1, Nat.and_two_pow_sub_one_of_lt_two_pow (n := 4) h2,
    Nat.and_two_pow_sub_one_of_lt_two_pow (n := 1) h3, Nat.and_two_pow_sub_one_of_lt_two_pow (n := 2) h4,
    Nat.and_two_pow_sub_one_of_lt_two_pow (n := 1) h5, Nat.and_two_pow_sub_one_of_lt_two_pow (n := 16) h6⟩

/-- Every row fixes the whole operation code. -/
theorem opc_of_fits {r : OpRow} {w : Word} (hr : r ∈ opRows) (h : r.fits w = true) :
    (fieldsOf w).opc = (fieldsOf r.pattern).opc := by
  have hmask : ∀ r ∈ opRows, (fieldsOf r.mask).opc = 255 := by decide
  have hopc := congrArg Fields.opc ((r.fits_iff w).mp h)
  rwa [Fields.and, hmask r hr, (fieldsOf_fit w).and_ones.1] at hopc

/-- No two rows have one operation code, so a word satisfies at most one row. -/
theorem row_unique {r r' : OpRow} {w : Word} (hr : r ∈ opRows) (hr' : r' ∈ opRows) (h : r.fits w = true)
    (h' : r'.fits w = true) : r = r' := by
  have hinj : (opRows.map fun r => (fieldsOf r.pattern).opc).Nodup := by decide
  exact List.inj_on_of_nodup_map hinj hr hr' ((opc_of_fits hr h).symm.trans (opc_of_fits hr' h'))

/-- The row with an operation's mnemonic is satisfied by the word with the operation's fields. -/
theorem row_of_fields {w : Word} {i : Instr} (h : fieldsOf w = encodeFields i) :
    ∃ r, opRows.find? (fun r => r.mnemonic == i.mnemonic) = some r ∧ r.fits w = true := by
  simp only [OpRow.fits_iff, h]
  cases i <;> exact ⟨_, rfl, by simp [Fields.and, encodeFields, fieldsOf]⟩

/-- The fields that satisfy a row pass the check of the decoder's branch for it. -/
theorem decodeFields_of_row {r : OpRow} {f : Fields} (hr : r ∈ opRows) (hf : f.Fit)
    (h : f.and (fieldsOf r.mask) = fieldsOf r.pattern) : f.rsv = 0 ∧ ∃ i, decodeFields f = .ok i := by
  fin_cases hr <;>
  · simp only [Fields.and, fieldsOf, Fields.mk.injEq, BitVec.reduceToNat, Nat.reducePow, Nat.reduceDiv, Nat.reduceMod,
      hf.and_ones] at h
    simp [decodeFields, fixedIf, h]

/-- Settles O5: a legal word satisfies the row of its operation and no second row; a word that satisfies a row is legal. -/
theorem decodeMatchesOneRow : Obligations.DecodeMatchesOneRow := by
  refine fun w => ⟨fun i hi => ?_, fun e he => ?_⟩
  · obtain ⟨r, hfind, hfits⟩ := row_of_fields (decode_eq_ok_iff.mp hi)
    have hmem : r ∈ opRows := List.mem_of_find?_eq_some hfind
    have hname : r.mnemonic = i.mnemonic := by simpa using List.find?_some hfind
    have honly : opRows.filter (fun r' => r'.fits w) = opRows.filter (· == r) :=
      List.filter_congr fun r' hr' => Bool.eq_iff_iff.mpr
        ⟨fun h => beq_iff_eq.mpr (row_unique hr' hmem h hfits), fun h => beq_iff_eq.mp h ▸ hfits⟩
    have hnodup : opRows.Nodup := by decide
    rw [honly, List.filter_beq, List.count_eq_one_of_mem hnodup hmem, List.replicate_one, List.map_singleton, hname]
  · refine List.filter_eq_nil_iff.mpr fun r hr hfits => ?_
    obtain ⟨hrsv, i, hi⟩ := decodeFields_of_row hr (fieldsOf_fit w) ((r.fits_iff w).mp hfits)
    rw [decode_of_fields rfl hi hrsv] at he
    cases he

/-- Settles O2: each word, evaluated. -/
theorem sampleWordsDecode : Obligations.SampleWordsDecode := by
  unfold Obligations.SampleWordsDecode
  decide

end Sys2Proof

namespace Sys2Proof.Machine

/-- Settles O6: the step of an illegal word is a fault of its free agent. -/
theorem illegalWordFaults : Obligations.IllegalWordFaults :=
  fun _ _ _ _ hf hs hd hfree => ⟨_, (step_illegal hf hs hd).trans (State.illegal_of_free hfree), State.faults_raise _ _⟩

/-! An `INST` that names no context. -/

/-- Thread calls have two issuers: an idle thread, and the dispatcher in the wrong context. -/
theorem State.issue_threadCall {s : State} (h : (∃ u, s.idleThread u) ∨ s.cur.agent = .dispatcher) :
    ∃ ok, ∀ k, s.issue .threadCall k = k ok := by
  rcases h with ⟨u, hu⟩ | hd
  · exact ⟨true, State.issue_idleThread hu⟩
  · exact ⟨false, State.issue_dispatcher hd⟩

/-- Neither of them is at the `Take` phase of a call. -/
theorem State.not_atTake {s : State} (h : (∃ u, s.idleThread u) ∨ s.cur.agent = .dispatcher) (k : CallKind) (n : Nat)
    (d : Dir) (len : Nat) : s.atTake k n d len = false := by
  rcases h with ⟨u, hu⟩ | hd
  · exact State.atTake_idle hu k n d len
  · exact State.atTake_dispatcher hd k n d len

/-- Both start a blocking call at its `Entry`. -/
theorem State.blockingCall_entry {s : State} (h : (∃ u, s.idleThread u) ∨ s.cur.agent = .dispatcher) (k : CallKind)
    (n : Nat) (d : Dir) (len : Nat) : ∃ ok, s.blockingCall k n d len = s.callEntry k n d len ok := by
  rcases h with ⟨u, hu⟩ | hd
  · exact ⟨true, State.blockingCall_idle hu⟩
  · exact ⟨false, by simp [State.blockingCall, State.mayIssue, State.agentExists, Agent.admission, hd]⟩

/-- IRQ_DISPATCH is answered in both execution contexts. -/
theorem State.issue_dispatch_freeSoftware {s : State} (h : s.freeSoftware) : ∃ ok, ∀ k, s.issue .dispatch k = k ok := by
  rcases h with ⟨u, ha, ht, hp⟩ | ⟨ha, hh⟩ | ha
  · exact ⟨false, fun k => s.issue_of_wrongContext _ k
      (by simp [State.mayIssue, State.agentExists, Agent.admission, Agent.context, ha, ht]) (State.not_busy_of_idle ha hp)⟩
  · exact ⟨false, fun k => s.issue_of_wrongContext _ k
      (by simp [State.mayIssue, State.agentExists, Agent.admission, Agent.context, ha]) (by simp [State.busy, ha, hh])⟩
  · exact ⟨true, State.issue_dispatch ha⟩

section
variable {s : State} {n : Nat} (h : s.ctx? n = none)
include h

theorem State.laidOutCtx_none : s.laidOutCtx n = .error (trapOf .noSuchInstance) :=
  State.laidOutCtx_error fun _ hc => by rw [h] at hc; cases hc

theorem State.activeCtx_none : s.activeCtx n = .error (trapOf .noSuchInstance) :=
  State.activeCtx_error fun _ hc => by rw [h] at hc; cases hc

theorem State.callEntry_none (k : CallKind) (d : Dir) (len : Nat) (ok : Bool) :
    s.callEntry k n d len ok = .next (s.raise (trapOf .noSuchInstance)) := by
  rw [State.callEntry, State.callCtx_none h, State.orRaise_error]

theorem State.takeWrite_none (len : Nat) (ok : Bool) :
    s.takeWrite n len ok = .trapped (s.raise (trapOf .noSuchInstance)) := by
  rw [State.takeWrite, State.callCtx_none h]

theorem State.takeRead_none (len : Nat) (ok : Bool) :
    s.takeRead n len ok = .trapped (s.raise (trapOf .noSuchInstance)) := by
  rw [State.takeRead, State.callCtx_none h]

/-- The calls of a thread: the instance is looked up before the context and the lifecycle state (60_exceptions.md R414). -/
theorem exec_threadCall_absent (hi : (∃ u, s.idleThread u) ∨ s.cur.agent = .dispatcher) (len : Nat) (d : Dir) {i : Instr}
    (hmem : i ∈ [Instr.takeWr n len, .takeRd n len, .wait n d, .read n len, .write n len, .openInst n]) :
    exec i s = .next (s.raise (trapOf .noSuchInstance)) := by
  obtain ⟨ok, hissue⟩ := State.issue_threadCall hi
  have hcall (k : CallKind) (d : Dir) (len : Nat) :
      s.blockingCall k n d len = .next (s.raise (trapOf .noSuchInstance)) := by
    obtain ⟨ok', hentry⟩ := State.blockingCall_entry hi k n d len
    rw [hentry, State.callEntry_none h]
  simp only [List.mem_cons, List.not_mem_nil, or_false] at hmem
  rcases hmem with rfl | rfl | rfl | rfl | rfl | rfl
  · simp [exec, execTakeWr, State.not_atTake hi, hissue, State.takeWrite_none h, State.takeAlone]
  · simp [exec, execTakeRd, State.not_atTake hi, hissue, State.takeRead_none h, State.takeAlone]
  · exact hcall .wait d 0
  · exact hcall .read .rx len
  · exact hcall .write .tx len
  · simp [exec, execOpenInst, hissue, State.activeCtx_none h]

/-- TEARDOWN: step 1 for the idle Host, and for the dispatcher the instance before the context. -/
theorem exec_teardown_absent (hi : s.idleHost ∨ s.cur.agent = .dispatcher) :
    exec (.teardown n) s = .next (s.raise (trapOf .noSuchInstance)) := by
  rcases hi with ⟨ha, hop⟩ | ha
  · simp [exec, execTeardown, State.admit_host ha, hop, State.teardownStop, State.activeCtx_none h]
  · simp [exec, execTeardown, State.mayIssue, State.agentExists, Agent.admission, ha, State.activeCtx_none h]

/-- The operations of both execution contexts. -/
theorem exec_either_absent (hi : s.freeSoftware) (idx : Nat) (d : Dir) (m : Half) {i : Instr}
    (hmem : i ∈ [Instr.descAt n d idx, .signal n d, .evtRead n, .evtAck n m, .imaskWrite n m, .irqDispatch n]) :
    exec i s = .next (s.raise (trapOf .noSuchInstance)) := by
  have hissue := State.issue_freeSoftware hi
  have hctx := State.laidOutCtx_none h
  have hwrite (off : Nat) (v : Half) : s.writeRegister n off v = .next (s.raise (trapOf .noSuchInstance)) := by
    rw [State.writeRegister, hissue, hctx, State.orRaise_error]
  simp only [List.mem_cons, List.not_mem_nil, or_false] at hmem
  rcases hmem with rfl | rfl | rfl | rfl | rfl | rfl
  · simp [exec, execDescAt, hissue, hctx]
  · simp [exec, execSignal, hissue, hctx]
  · simp [exec, execEvtRead, hissue, hctx]
  · exact hwrite s.cfg.regEvt m
  · exact hwrite s.cfg.regMask m
  · obtain ⟨ok, hdispatch⟩ := State.issue_dispatch_freeSoftware hi
    simp [exec, execIrqDispatch, hdispatch, h]

theorem exec_lookup_absent (hi : s.freeAgent) : exec (.lookup n) s = .next (s.raise (trapOf .noSuchInstance)) := by
  simp [exec, execLookup, State.issue_freeAgent hi, State.activeCtx_none h]

/-- The receive engine's steps all start with `State.engine`. -/
theorem exec_dmaRx_absent (ha : s.cur.agent = .dmaRx) (lf : Bool) (count : Nat) {i : Instr}
    (hmem : i ∈ [Instr.hwRxComplete n lf count, .hwRxCompleteErr n lf count, .hwRxBusy n]) :
    exec i s = .next (s.raise (trapOf .noSuchInstance)) := by
  simp only [List.mem_cons, List.not_mem_nil, or_false] at hmem
  rcases hmem with rfl | rfl | rfl <;> exact State.engine_absent_rx ha h _

/-- The transmit engine's steps all start with `State.engine`. -/
theorem exec_dmaTx_absent (ha : s.cur.agent = .dmaTx) (sent : Nat) {i : Instr}
    (hmem : i ∈ [Instr.hwTxComplete n, .hwTxError n sent]) : exec i s = .next (s.raise (trapOf .noSuchInstance)) := by
  simp only [List.mem_cons, List.not_mem_nil, or_false] at hmem
  rcases hmem with rfl | rfl <;> exact State.engine_absent_tx ha h _

theorem exec_spuriousWake_absent (ha : s.cur.agent = .env) (d : Dir) (t : Nat) :
    exec (.spuriousWake n d t) s = .next (s.raise (trapOf .noSuchInstance)) := by
  simp [exec, execSpuriousWake, State.issue_env ha, h]

end

/-- A step that is exactly the fault of an absent instance records that fault at address 0 and changes nothing else. -/
theorem faults_of_absent {s : State} {i : Instr} (h : exec i s = .next (s.raise (trapOf .noSuchInstance))) :
    ∃ t, exec i s = .next t ∧ s.faults t .noSuchInstance 0 := ⟨_, h, s.faults_raise _⟩

/-- Settles O60: group by group of issuers, the step is the fault. -/
theorem absentInstanceFaults : Obligations.AbsentInstanceFaults := by
  intro s n len d lf m h
  exact ⟨fun hi _ hmem => faults_of_absent (exec_threadCall_absent h hi len d hmem),
    fun hi => faults_of_absent (exec_teardown_absent h hi),
    fun hi _ hmem => faults_of_absent (exec_either_absent h hi len d m hmem),
    fun hi => faults_of_absent (exec_lookup_absent h hi),
    fun ha _ hmem => faults_of_absent (exec_dmaRx_absent h ha lf len hmem),
    fun ha _ hmem => faults_of_absent (exec_dmaTx_absent h ha len hmem),
    fun ha => faults_of_absent (exec_spuriousWake_absent h ha d len)⟩

end Sys2Proof.Machine
end

section
/-! Proofs of the ring family: the word of an operation as a number (30_encoding.md R130), DESC_AT and ADVANCE (40_ring.md R203,
R205), and the cursor's way round its sub-ring (R207). -/

namespace Sys2Proof

/-- The word of an operation, field by field. -/
theorem encode_toNat {i : Instr} (h : i.wf = true) :
    (encode i).toNat = (encodeFields i).opc * 2 ^ 24 + (encodeFields i).inst * 2 ^ 20 + (encodeFields i).dir * 2 ^ 19
      + (encodeFields i).lf * 2 ^ 16 + (encodeFields i).imm := by
  rw [encode, packFields_toNat (encodeFields_fit_iff.mpr h), encodeFields_rsv]
  ring

end Sys2Proof

namespace Sys2Proof.Machine

/-- Short of the capacity, every step of advance moves the cursor on by one. -/
theorem nextCursor_iterate {cfg : Config} {d : Dir} {k : Nat} (h : k < cfg.cap d) : (nextCursor cfg d)^[k] 0 = k := by
  induction k with
  | zero => rfl
  | succ k ih =>
    rw [Function.iterate_succ_apply', ih (by omega), nextCursor_eq (by omega), if_neg (by omega)]

/-- Settles O16: the cursor counts its steps up to the last index, from which the last step returns it to 0. -/
theorem cursorReturnsAfterCapacityTakes : Obligations.CursorReturnsAfterCapacityTakes := by
  intro cfg d k hwf hk
  have hcap : 0 < cfg.cap d := cap_pos hwf d
  split
  · next h =>
    obtain ⟨j, rfl⟩ : ∃ j, k = j + 1 := ⟨k - 1, by omega⟩
    rw [Function.iterate_succ_apply', nextCursor_iterate (by omega), nextCursor_eq (by omega), if_pos (by omega)]
  · next h => exact nextCursor_iterate (by omega)

theorem advanceIdx_of_le {idx capacity : Nat} (h : capacity ≤ idx) : advanceIdx idx capacity = none := if_pos h

theorem advanceIdx_of_lt {idx capacity : Nat} (h : idx < capacity) :
    advanceIdx idx capacity = some (if idx = capacity - 1 then 0 else idx + 1) := if_neg (by omega)

/-- Settles O8: a free agent is let through, and `advanceIdx` has the two cases of the capacity. -/
theorem advanceResult : Obligations.AdvanceResult := by
  refine ⟨fun d idx hidx => ?_, fun s d idx hfree => ?_⟩
  · rw [encode_toNat (by simpa [Instr.wf, immOk] using hidx)]
    simp only [encodeFields]
    omega
  · rw [exec, execAdvance, State.issue_freeAgent hfree]
    constructor
    · intro h
      rw [advanceIdx_of_le h]
      exact ⟨_, rfl, s.faults_raise _⟩
    · intro h
      rw [advanceIdx_of_lt h]
      exact ⟨_, rfl, s.onlyReturns_finish _ _⟩

/-- A descriptor with a reserved bit is not read (30_encoding.md R122). -/
theorem State.readDesc_reserved {s : State} {c : Ctx} {k : Nat} {d : Desc} (hwf : s.cfg.wf = true) (hk : k < s.cfg.slots)
    (hd : c.desc[k]? = some d) (hr : d.cs &&& 0x47FE ≠ 0) : s.readDesc c k = .error (trapOf .contractViolation) := by
  have hset : d.reservedSet = true := bne_iff_ne.mpr hr
  simp [State.readDesc, descReachable_of_wf hwf hk, hd, hset]

/-- Settles O9: the checks in the order of `execDescAt`, the context before the index and the index before the reserved bits. -/
theorem descAtSnapshot : Obligations.DescAtSnapshot := by
  refine ⟨fun n idx d hn hidx => ?_, fun s n idx d hfree => ?_⟩
  · rw [encode_toNat (by simp [Instr.wf, instOk, immOk, hn, hidx])]
    simp only [encodeFields]
    omega
  · rw [exec, execDescAt, State.issue_freeSoftware hfree]
    refine ⟨fun h => ?_, fun c hc hl => ?_⟩
    · rw [State.laidOutCtx_error h]
      exact ⟨_, rfl, s.faults_raise _⟩
    · rw [State.laidOutCtx_of hc hl, State.orRaise_ok]
      refine ⟨fun h => ?_, fun x hwf hidx hx => ?_⟩
      · rw [if_pos h]
        exact ⟨_, rfl, s.faults_raise _⟩
      · rw [if_neg (by omega)]
        rw [slot_ite] at hx
        refine ⟨fun hr => ?_, fun hr => ?_⟩
        · rw [State.readDesc_of hwf (slot_lt hidx) hx hr]
          exact ⟨_, rfl, s.onlyReturns_finish _ _⟩
        · rw [State.readDesc_reserved hwf (slot_lt hidx) hx hr]
          exact ⟨_, rfl, s.faults_raise _⟩

end Sys2Proof.Machine
end

section
/-! Proofs of the ring family: RING_INIT (40_ring.md R201, R202): what the allocation loop answers, what the drawn contents
write, and the ring that is laid out. -/

namespace Sys2Proof

/-! The allocation loop. -/

/-- The loop obtains buffers that are free beside those taken before it and clear of one another; `obtain_clear` is the
converse. -/
theorem obtain_of_clear {cfg : Config} {taken : List Nat} {addrs : List Addr}
    (hfree : ∀ a ∈ addrs, cfg.bufferFree taken a.toNat = true) (hclear : addrs.Pairwise cfg.Clear) :
    cfg.obtain taken addrs.length (addrs.map some) = some addrs := by
  induction addrs generalizing taken with
  | nil => rfl
  | cons a as ih =>
    obtain ⟨ha, has⟩ := List.forall_mem_cons.mp hfree
    obtain ⟨haas, has'⟩ := List.pairwise_cons.mp hclear
    have hlater : ∀ b ∈ as, cfg.bufferFree (a.toNat :: taken) b.toNat = true := fun b hb =>
      have ⟨hplaced, htaken⟩ := bufferFree_iff.mp (has b hb)
      bufferFree_iff.mpr ⟨hplaced, List.forall_mem_cons.mpr ⟨(haas b hb).symm, htaken⟩⟩
    simp [Config.obtain, ha, ih hlater has']

/-- Every draw the loop needs was a success. -/
theorem draws_of_obtain {cfg : Config} {taken : List Nat} {n : Nat} {draws : List (Option Addr)} {addrs : List Addr}
    (h : cfg.obtain taken n draws = some addrs) {k : Nat} (hk : k < n) : ∃ a, draws[k]? = some (some a) := by
  induction n generalizing taken draws addrs k with
  | zero => omega
  | succ n ih =>
    match draws, h with
    | some a :: rest, h =>
      simp only [Config.obtain, Option.ite_none_right_eq_some, Option.map_eq_some_iff] at h
      obtain ⟨_, as, has, rfl⟩ := h
      cases k with
      | zero => exact ⟨a, rfl⟩
      | succ k => exact ih has (Nat.lt_of_succ_lt_succ hk)

/-! The drawn contents. -/

/-- A byte of a buffer after its contents are written: the drawn one, or what it was. -/
theorem read_writeBytes_take {m : Memory} {a j size : Nat} (bs : List Byte) (hj : j < size) :
    (m.writeBytes a (bs.take size)).read (a + j) = bs[j]?.getD (m.read (a + j)) := by
  have htake : (bs.take size)[j]? = bs[j]? := by rw [List.getElem?_take, if_pos hj]
  rw [← htake]
  cases hb : (bs.take size)[j]? with
  | some b => exact Machine.read_writeBytes_getElem? hb
  | none => exact Memory.read_writeBytes_outside _ _ _ (.inr (by have := List.getElem?_eq_none_iff.mp hb; omega))

/-- A byte outside a buffer is as it was after the buffer's contents are written. -/
theorem read_writeBytes_take_outside {m : Memory} {a x size : Nat} (bs : List Byte) (h : x < a ∨ a + size ≤ x) :
    (m.writeBytes a (bs.take size)).read x = m.read x := by
  have hlen : (bs.take size).length ≤ size := List.length_take_le ..
  exact Memory.read_writeBytes_outside _ _ _ (by omega)

theorem read_fillBuffers_outside {cfg : Config} {m : Memory} {addrs : List Addr} (fill : List (List Byte)) {x : Nat}
    (h : ∀ a ∈ addrs, x < a.toNat ∨ a.toNat + cfg.bufSize ≤ x) : (cfg.fillBuffers m addrs fill).read x = m.read x := by
  induction addrs generalizing m fill with
  | nil => rfl
  | cons a as ih =>
    cases fill with
    | nil => rfl
    | cons bs fill =>
      obtain ⟨ha, has⟩ := List.forall_mem_cons.mp h
      rw [Config.fillBuffers, ih fill has, read_writeBytes_take_outside bs ha]

/-- Buffers that are clear of one another hold their own drawn bytes. -/
theorem read_fillBuffers {cfg : Config} {m : Memory} {addrs : List Addr} (fill : List (List Byte))
    (hclear : addrs.Pairwise cfg.Clear) {k j : Nat} {a : Addr} (hk : addrs[k]? = some a) (hj : j < cfg.bufSize) :
    (cfg.fillBuffers m addrs fill).read (a.toNat + j)
      = ((fill[k]?).bind fun bs => bs[j]?).getD (m.read (a.toNat + j)) := by
  have outside {b : Addr} (hab : cfg.Clear a b) : a.toNat + j < b.toNat ∨ b.toNat + cfg.bufSize ≤ a.toNat + j := by
    simp only [Config.Clear, apart, Bool.or_eq_true, decide_eq_true_eq] at hab
    omega
  induction addrs generalizing m fill k with
  | nil => cases hk
  | cons b as ih =>
    cases fill with
    | nil => simp [Config.fillBuffers]
    | cons bs fill =>
      obtain ⟨hb, has⟩ := List.pairwise_cons.mp hclear
      rw [Config.fillBuffers]
      cases k with
      | zero =>
        cases hk
        rw [read_fillBuffers_outside fill fun c hc => outside (hb c hc), read_writeBytes_take bs hj]
        rfl
      | succ k =>
        have hab : cfg.Clear a b := (hb a (List.mem_of_getElem? hk)).symm
        rw [ih fill has hk, read_writeBytes_take_outside bs (outside hab)]
        rfl

end Sys2Proof

namespace Sys2Proof.Machine

/-! The ring laid out. -/

/-- The last slot of a sub-ring, as the claims write it. -/
theorem bitsIf_last {i cap : Nat} (h : i < cap) (m : Half) : bitsIf (i + 1 == cap) m = if i = cap - 1 then m else 0 := by
  have hlast : (i + 1 == cap) = decide (i = cap - 1) := by rw [Bool.eq_iff_iff]; simp; omega
  simp [bitsIf, hlast]

theorem csInit_rx {cfg : Config} {i : Nat} (h : i < cfg.rxCap) :
    cfg.csInit i = csO ||| (if cfg.rxInitIrq then csI else 0) ||| (if i = cfg.rxCap - 1 then csW else 0) := by
  rw [Config.csInit, if_pos h, csInitRx, bitsIf_last h, bitsIf]

theorem csInit_tx {cfg : Config} {j : Nat} (h : j < cfg.txCap) :
    cfg.csInit (cfg.rxCap + j) = if j = cfg.txCap - 1 then csW else 0 := by
  rw [Config.csInit, if_neg (by omega), Nat.add_sub_cancel_left, csInitTx, bitsIf_last h]

theorem freshRing_layout {cfg : Config} {addrs : List Addr} (h : addrs.length = cfg.slots) :
    freshRing cfg addrs (cfg.layout 0 addrs) :=
  ⟨(layout_length ..).trans h, fun i a hi ha => by simp [layout_getElem?, ha, csInit_rx hi],
    fun j a hj ha => by simp [layout_getElem?, ha, csInit_tx hj]⟩

/-- The state in which the ring of context `n`, which was `c`, is laid out over these buffers with the contents the entry
drew. -/
def State.withRing (s : State) (n : Nat) (c : Ctx) (addrs : List Addr) : State :=
  { s with
    liveBuffers := s.liveBuffers + s.cfg.slots
    mem := s.cfg.fillBuffers s.mem addrs s.cur.draws.fill }.setCtx n (c.laidOutWith s.cfg addrs)

section
variable {s : State} {n : Nat} {addrs : List Addr} (hlegal : s.legalBuffers n addrs)
include hlegal

theorem State.legalBuffers.length_eq : addrs.length = s.cfg.slots :=
  have ⟨hlen, _, _⟩ := hlegal
  hlen

theorem State.legalBuffers.clear : addrs.Pairwise s.cfg.Clear :=
  have ⟨_, hclear, _⟩ := hlegal
  hclear

/-- Legal buffers are free beside the buffers that other contexts hold. -/
theorem State.legalBuffers.free (hrise : Table.rising s.ctxs) {a : Addr} (ha : a ∈ addrs) :
    s.cfg.bufferFree (s.otherBuffers n) a.toNat = true := by
  obtain ⟨-, -, hplaced⟩ := hlegal
  obtain ⟨hspace, harea, hother⟩ := hplaced a ha
  refine bufferFree_iff.mpr ⟨⟨hspace, harea⟩, fun b hb => ?_⟩
  obtain ⟨⟨m, c⟩, hmem, hb⟩ := List.mem_flatMap.mp hb
  split at hb
  · cases hb
  · next hm =>
    obtain ⟨d, hd, rfl⟩ := List.mem_map.mp hb
    obtain ⟨k, hk⟩ := List.getElem?_of_mem hd
    exact hother m c k d hm (Table.lookup_of_mem hrise hmem) hk

/-- With every draw a success the ring is laid out (40_ring.md R201). -/
theorem State.layOut_eq_laid (c : Ctx) (hwf : s.cfg.wf = true) (hrise : Table.rising s.ctxs)
    (harea : s.cur.draws.descArea = true) (halloc : s.cur.draws.alloc = addrs.map some) :
    s.layOut n c = .laid (s.withRing n c addrs) := by
  have hobtain : s.cfg.obtain (s.otherBuffers n) s.cfg.slots s.cur.draws.alloc = some addrs := by
    rw [halloc, ← hlegal.length_eq]
    exact obtain_of_clear (fun _ => hlegal.free hrise) hlegal.clear
  have hreach : s.cfg.firstUnreachable 0 s.cfg.slots = none :=
    firstUnreachable_none fun j hj => descReachable_of_wf hwf (by simpa using hj)
  simp only [State.layOut, if_pos harea, hobtain, hreach, State.withRing]

theorem State.laidRing_withRing (c : Ctx) : s.laidRing (s.withRing n c addrs) n c addrs :=
  ⟨⟨_, freshRing_layout hlegal.length_eq, State.nowCtx_setCtx n _ rfl⟩,
    ⟨fun _ _ _ hk hj => read_fillBuffers _ hlegal.clear hk hj, fun _ hx => read_fillBuffers_outside _ hx⟩,
    rfl, rfl, rfl, rfl, rfl, rfl, rfl⟩

end

/-- The result of the step is no part of the ring. -/
theorem State.laidRing.finish {s t : State} {n : Nat} {c : Ctx} {addrs : List Addr} (h : s.laidRing t n c addrs)
    (code : Code) (v : Value) : s.laidRing (t.finish code v) n c addrs := by
  simpa [State.laidRing, State.nowCtx, State.buffersDrawn, State.sameLine] using h

/-- A draw that fails leaves nothing laid out (40_ring.md R202). -/
theorem State.layOut_eq_failed {s : State} (h : s.layoutDrawFails) (n : Nat) (c : Ctx) : s.layOut n c = .failed := by
  unfold State.layOut
  split
  · next harea =>
    obtain ⟨k, hk, hnone⟩ := h.resolve_left (by simp [harea])
    cases hobtain : s.cfg.obtain (s.otherBuffers n) s.cfg.slots s.cur.draws.alloc with
    | none => rfl
    | some addrs =>
      obtain ⟨a, ha⟩ := draws_of_obtain hobtain hk
      simp [ha] at hnone
  · rfl

/-! RING_INIT as the operation of its own word. -/

theorem exec_ringInit_idleHost {s : State} (h : s.idleHost) (n : Nat) : exec (.ringInit n) s = s.ringInitAlone n := by
  obtain ⟨ha, hop⟩ := h
  simp [exec, execRingInit, State.admit_host ha, hop]

theorem State.ringInitAlone_not_allocated {s : State} {n : Nat} (h : ∀ c, s.ctx? n = some c → c.life ≠ .allocated) :
    s.ringInitAlone n = .next (s.raise (trapOf .contractViolation)) := by
  unfold State.ringInitAlone
  cases hc : s.ctx? n with
  | none => rfl
  | some c => exact if_neg (h c hc)

/-- Settles O10: the idle Host's RING_INIT faults, or lays the ring out and answers `(OK, 0)`. -/
theorem ringInitLaysOut : Obligations.RingInitLaysOut := by
  intro s n hidle
  rw [exec_ringInit_idleHost hidle]
  refine ⟨fun h => ⟨_, State.ringInitAlone_not_allocated h, s.faults_raise _⟩, ?_⟩
  intro c addrs hc hl hwf hrise harea halloc hlegal
  refine ⟨(s.withRing n c addrs).finish .ok (.num 0), ?_, (State.laidRing_withRing hlegal c).finish _ _,
    State.returns_finish _ _ rfl rfl, State.finish_sched .., State.finish_cur ..⟩
  simp [State.ringInitAlone, hc, hl, State.layOut_eq_laid hlegal c hwf hrise harea halloc]

/-- Settles O11: a failed layout leaves only the result. -/
theorem ringInitFailureLeavesNoTrace : Obligations.RingInitFailureLeavesNoTrace := by
  intro s n c hidle hc hl hfails
  refine ⟨s.finish .allocationError (.num 0), ?_, s.onlyReturns_finish _ _⟩
  simp [exec_ringInit_idleHost hidle, State.ringInitAlone, hc, hl, State.layOut_eq_failed hfails]

end Sys2Proof.Machine
end

section
/-! Proofs of the ownership family: the bare takes (41_ownership.md R221 to R225). Both run one scheme, the routing checks, the
slot at the cursor, the hand-off; what they share is stated once for the two operations. -/

namespace Sys2Proof.Machine

/-! Facts through the delivery of a result. -/

section
variable {s t : State} {code : Code} {v : Value}

theorem State.sameCore.finish (h : s.sameCore t) : s.sameCore (t.finish code v) := by
  simpa [State.sameCore] using h

theorem State.sameLine.finish (h : s.sameLine t) : s.sameLine (t.finish code v) := by
  simpa [State.sameLine] using h

theorem State.nowCtx.finish {n : Nat} {c : Ctx} (h : s.nowCtx t n c) : s.nowCtx (t.finish code v) n c := by
  simpa [State.nowCtx] using h

/-- A result delivered to the thread whose memory the step wrote goes into that thread's `ret`. -/
theorem State.nowThread.finish {u : Nat} {th : Thread} (h : s.nowThread t u th) (ha : t.cur.agent = .thread u) :
    s.nowThread (t.finish code v) u { th with ret := ⟨code, v⟩ } := by
  obtain ⟨hu, hother⟩ := h
  rw [State.finish_of_thread _ _ _ ha]
  exact ⟨by simp [hu], fun w hw => by rw [State.thr_say, State.thr_setThr_ne _ _ hw, hother w hw]⟩

end

/-! The routing checks in order (60_exceptions.md R414). -/

theorem State.callCtx_wrongContext (s : State) (n : Nat) :
    s.callCtx n false = .error (trapOf (if s.ctx? n = none then .noSuchInstance else .contextViolation)) := by
  cases h : s.ctx? n <;> simp [State.callCtx, h]

theorem State.callCtx_inactive {s : State} {n : Nat} {c : Ctx} (hc : s.ctx? n = some c) (hl : c.life ≠ .active) :
    s.callCtx n true = .error (trapOf .contractViolation) := by
  simp [State.callCtx, hc, hl]

/-! A bare take by each of its issuers. -/

theorem exec_take_idleThread {s : State} {u : Nat} (h : s.idleThread u) (n len : Nat) :
    exec (.takeWr n len) s = s.takeAlone (s.takeWrite n len true)
      ∧ exec (.takeRd n len) s = s.takeAlone (s.takeRead n len true) := by
  simp [exec, execTakeWr, execTakeRd, State.atTake_idle h, State.issue_idleThread h]

theorem exec_take_dispatcher {s : State} (h : s.cur.agent = .dispatcher) (n len : Nat) :
    exec (.takeWr n len) s = s.takeAlone (s.takeWrite n len false)
      ∧ exec (.takeRd n len) s = s.takeAlone (s.takeRead n len false) := by
  simp [exec, execTakeWr, execTakeRd, State.atTake_dispatcher h, State.issue_dispatcher h]

/-- A routing check that fails is the end of either take. -/
theorem State.takeAlone_of_callCtx_error {s : State} {n : Nat} {ok : Bool} {tr : Trap} (h : s.callCtx n ok = .error tr)
    (len : Nat) : s.takeAlone (s.takeWrite n len ok) = .next (s.raise tr)
      ∧ s.takeAlone (s.takeRead n len ok) = .next (s.raise tr) := by
  simp [State.takeWrite, State.takeRead, State.takeAlone, h]

/-- The dispatcher is in the wrong context for a take, which it learns after the id is looked up. -/
theorem exec_take_dispatcher_faults {s : State} (h : s.cur.agent = .dispatcher) (n len : Nat) {i : Instr}
    (hi : i = .takeWr n len ∨ i = .takeRd n len) :
    ∃ t, exec i s = .next t ∧ s.faults t (if s.ctx? n = none then .noSuchInstance else .contextViolation) 0 := by
  obtain ⟨hwr, hrd⟩ := exec_take_dispatcher h n len
  obtain ⟨hwr', hrd'⟩ := State.takeAlone_of_callCtx_error (s.callCtx_wrongContext n) len
  rcases hi with rfl | rfl
  · exact ⟨_, hwr.trans hwr', s.faults_raise _⟩
  · exact ⟨_, hrd.trans hrd', s.faults_raise _⟩

theorem exec_take_inactive_faults {s : State} {u n : Nat} {c : Ctx} (h : s.idleThread u) (hc : s.ctx? n = some c)
    (hl : c.life ≠ .active) (len : Nat) {i : Instr} (hi : i = .takeWr n len ∨ i = .takeRd n len) :
    ∃ t, exec i s = .next t ∧ s.faults t .contractViolation 0 := by
  obtain ⟨hwr, hrd⟩ := exec_take_idleThread h n len
  obtain ⟨hwr', hrd'⟩ := State.takeAlone_of_callCtx_error (State.callCtx_inactive hc hl) len
  rcases hi with rfl | rfl
  · exact ⟨_, hwr.trans hwr', s.faults_raise _⟩
  · exact ⟨_, hrd.trans hrd', s.faults_raise _⟩

/-- Settles O12: the checks in their order, then the slot's owner decides between `NotReady` and the hand-off. -/
theorem takeWrHandsSlotOver : Obligations.TakeWrHandsSlotOver := by
  refine ⟨fun n m hn hm => ?_, fun s n m hd => exec_take_dispatcher_faults hd n m (.inl rfl), fun s u n maxLen hu => ?_⟩
  · rw [encode_toNat (by simp [Instr.wf, instOk, immOk, hn, hm])]
    simp only [encodeFields]
    omega
  · obtain ⟨hexec, _⟩ := exec_take_idleThread hu n maxLen
    refine ⟨fun hnone => faults_of_absent (exec_threadCall_absent hnone (.inl ⟨u, hu⟩) maxLen .tx (by simp)),
      fun c hc => ⟨fun hl => exec_take_inactive_faults hu hc hl maxLen (.inl rfl), ?_⟩⟩
    intro d hl hwf hcur hd hr
    refine ⟨fun ho => ?_, fun k ho haddr hk => ?_⟩
    · rw [hexec, State.takeWrite_notReady hc hl hwf hcur hd hr ho]
      exact ⟨_, rfl, s.onlyReturns_finish _ _⟩
    · obtain ⟨hagent, _, _⟩ := hu
      rw [hexec, State.takeWrite_ok (State.me_of_thread hagent) hc hl hwf hcur hd hr ho haddr hk]
      refine ⟨_, rfl, (State.nowCtx_setCtx n _ rfl).finish, State.returns_finish _ _ rfl rfl,
        State.sameCore.finish ⟨rfl, rfl, rfl, rfl, rfl, rfl, rfl⟩, State.sameLine.finish ⟨rfl, rfl⟩, ?_, ?_⟩
      · intro j b hj hb
        rw [State.finish_mem, State.setCtx_mem]
        exact read_writeBytes_getElem? (by rwa [List.getElem?_take_of_lt hj])
      · intro x hx
        rw [State.finish_mem, State.setCtx_mem]
        exact read_writeBytes_outside (by rw [List.length_take]; omega) hx

/-- Settles O13: the scheme of TAKE_WR, with the caller's `dst` written in place of memory. -/
theorem takeRdDrainsSlot : Obligations.TakeRdDrainsSlot := by
  refine ⟨fun n m hn hm => ?_, fun s n m hd => exec_take_dispatcher_faults hd n m (.inr rfl), fun s u n maxLen hu => ?_⟩
  · rw [encode_toNat (by simp [Instr.wf, instOk, immOk, hn, hm])]
    simp only [encodeFields]
    omega
  · obtain ⟨_, hexec⟩ := exec_take_idleThread hu n maxLen
    refine ⟨fun hnone => faults_of_absent (exec_threadCall_absent hnone (.inl ⟨u, hu⟩) maxLen .rx (by simp)),
      fun c hc => ⟨fun hl => exec_take_inactive_faults hu hc hl maxLen (.inr rfl), ?_⟩⟩
    intro d hl hwf hcur hd hr
    refine ⟨fun ho => ?_, fun k ho haddr hlen hk => ?_⟩
    · rw [hexec, State.takeRead_notReady hc hl hwf hcur hd hr ho]
      exact ⟨_, rfl, s.onlyReturns_finish _ _⟩
    · obtain ⟨hagent, _, _⟩ := hu
      rw [hexec, State.takeRead_ok (State.me_of_thread hagent) hc hl hwf hcur hd hr ho haddr hlen hk]
      exact ⟨_, rfl, State.nowCtx.finish (State.nowCtx_setCtx n _ rfl),
        State.nowThread.finish (State.nowThread_setThr u _ rfl) hagent, State.finish_out ..,
        State.sameCore.finish ⟨rfl, rfl, rfl, rfl, rfl, rfl, rfl⟩, State.sameLine.finish ⟨rfl, rfl⟩,
        fun a => by rw [State.finish_mem, State.setThr_mem, State.setCtx_mem]⟩

/-! Which step of a take answers `NotReady` (R223). -/

/-- Where the take ends in a fault, it delivers the fault and no result. -/
def TakeEnd.RaisesFaults (e : TakeEnd) : Prop := ∀ t, e = .trapped t → ∃ r, t.out = .raised r

theorem State.takeWrite_raisesFaults (s : State) (n len : Nat) (ok : Bool) : (s.takeWrite n len ok).RaisesFaults := by
  intro t h
  rcases s.takeWrite_cases n len ok with ⟨_, he⟩ | ⟨_, _, _, _, _, _, _, _, he⟩ | ⟨_, _, _, _, _, he⟩
      | ⟨_, _, _, _, _, _, _, he⟩ <;> rw [he] at h
  · cases h; exact ⟨_, rfl⟩
  · cases h; exact ⟨_, rfl⟩
  · cases h
  · cases h

theorem State.takeRead_raisesFaults (s : State) (n len : Nat) (ok : Bool) : (s.takeRead n len ok).RaisesFaults := by
  intro t h
  rcases s.takeRead_cases n len ok with ⟨_, he⟩ | ⟨_, _, _, _, _, he⟩ | ⟨_, _, _, _, _, _, _, he⟩ <;> rw [he] at h
  · cases h; exact ⟨_, rfl⟩
  · cases h
  · cases h

theorem State.takeOf_raisesFaults (s : State) (k : CallKind) (n len : Nat) : (s.takeOf k n len).RaisesFaults := by
  cases k with
  | read => exact s.takeRead_raisesFaults n len true
  | write => exact s.takeWrite_raisesFaults n len true
  | wait => exact fun _ h => by cases h

/-- The take of a call moves on, ends the call with `OK`, or faults. -/
theorem State.callTake_out_ne_notReady {s t : State} {k : CallKind} {n len : Nat} {d : Dir} {v : Value}
    (h : s.callTake k n d len = .next t) : t.out ≠ .result ⟨.notReady, v⟩ := by
  unfold State.callTake at h
  split at h <;> cases h
  · simp [State.inPhase]
  · simp [State.callReturn]
  · next hu =>
    obtain ⟨r, hr⟩ := s.takeOf_raisesFaults k n len _ hu
    simp [hr]

theorem State.eq_finish_of_takeAlone_notReady {s t : State} {e : TakeEnd} {v : Value} (he : e.RaisesFaults)
    (h : s.takeAlone e = .next t) (hv : t.out = .result ⟨.notReady, v⟩) : t = s.finish .notReady (.num 0) := by
  cases e with
  | notReady => exact (next_inj h).symm
  | took u k =>
    have := next_inj h
    subst this
    simp at hv
  | trapped u =>
    have := next_inj h
    subst this
    obtain ⟨r, hr⟩ := he u rfl
    simp [hr] at hv

/-- A one-step take is a hold or a bare take. -/
theorem State.issue_take_next {s t : State} {f : Bool → TakeEnd} (hf : ∀ ok, (f ok).RaisesFaults)
    (h : (s.issue .threadCall fun ok => s.takeAlone (f ok)) = .next t) :
    t = s.hold ∨ ∃ e, e.RaisesFaults ∧ s.takeAlone e = .next t := by
  rcases State.issue_next h with ⟨_, ht⟩ | ⟨_, _, h⟩ | ⟨_, _, h⟩
  · exact .inl ht
  · exact .inr ⟨f true, hf true, h⟩
  · exact .inr ⟨f false, hf false, h⟩

/-- A take's word is the take of a call, a hold or a bare take. -/
theorem exec_take_next {s t : State} {n len : Nat} {i : Instr} (hi : i = .takeWr n len ∨ i = .takeRd n len)
    (h : exec i s = .next t) :
    (∃ k d, s.callTake k n d len = .next t) ∨ t = s.hold ∨ ∃ e, e.RaisesFaults ∧ s.takeAlone e = .next t := by
  rcases hi with rfl | rfl
  · simp only [exec, execTakeWr] at h
    split at h
    · exact .inl ⟨_, _, h⟩
    · exact .inr (State.issue_take_next (s.takeWrite_raisesFaults n len) h)
  · simp only [exec, execTakeRd] at h
    split at h
    · exact .inl ⟨_, _, h⟩
    · exact .inr (State.issue_take_next (s.takeRead_raisesFaults n len) h)

/-- Settles O14: only the `NotReady` end of a bare take delivers that code, and it changes nothing but the result. -/
theorem notReadyWritesNoState : Obligations.NotReadyWritesNoState := by
  rintro s t n len i hi h ⟨v, hv⟩
  rcases exec_take_next hi h with ⟨k, d, h⟩ | rfl | ⟨e, he, h⟩
  · exact absurd hv (State.callTake_out_ne_notReady h)
  · simp at hv
  · rw [State.eq_finish_of_takeAlone_notReady he h hv]
    exact s.onlyReturns_finish _ _

theorem bufSize_lt_of_wf {cfg : Config} (h : cfg.wf = true) : cfg.bufSize < 65536 := by
  simp only [Config.wf, sizeOk, Bool.and_eq_true, decide_eq_true_eq] at h
  omega

/-- Settles O15: TAKE_WR with `BUF_SIZE` the least of its three bounds; the length fits its 16-bit field. -/
theorem longWriteIsTruncated : Obligations.LongWriteIsTruncated := by
  intro s u n maxLen c d hu hwf hc hl hcur hd hr ho haddr hsrc hmax
  obtain ⟨_, _, htake⟩ := takeWrHandsSlotOver
  obtain ⟨_, hctx⟩ := htake s u n maxLen hu
  obtain ⟨_, hslot⟩ := hctx c hc
  obtain ⟨_, hsent⟩ := hslot d hl hwf hcur hd hr
  obtain ⟨t, hexec, ⟨hnow, _⟩, ⟨hout, _⟩, _, _, hbytes, _⟩ := hsent s.cfg.bufSize ho haddr (by omega)
  have hk : s.cfg.rxCap + c.cursor.tx < c.desc.length := (List.getElem?_eq_some_iff.mp hd).1
  exact ⟨t, _, _, hexec, hout, hnow, List.getElem?_set_self hk,
    (BitVec.toNat_ofNat _ _).trans (Nat.mod_eq_of_lt (bufSize_lt_of_wf hwf)), hbytes⟩

end Sys2Proof.Machine
end

section
/-! Proofs of the DMA engine family (42_dma_engine.md). Every completion ends in `State.walkOn`, whose two ends are stated once;
a receive completion is stated once for drawn data and for the line's oldest bytes, by what `State.rxData` answers. -/

namespace Sys2Proof.Machine

/-- An event that depends on a flag. -/
theorem evRaise_bitsIf (evt m : Half) (b : Bool) : evRaise evt (bitsIf b m) = if b then evt ||| m else evt := by
  cases b
  · exact BitVec.or_zero
  · rfl

/-- A step that is exactly the hold changes nothing. -/
theorem waits_of_hold {s : State} {o : Out} (h : o = .next s.hold) : ∃ t, o = .next t ∧ s.waits t := ⟨_, h, s.waits_hold⟩

/-! The walk along the sub-ring (R253). -/

/-- A walk inside the sub-ring, after a step that wrote at most context `n`, memory and the line. -/
theorem State.walkOn_next (s : State) (n : Nat) (c : Ctx) {dir : Dir} {h : Nat} {cs : Half} (m : Memory)
    (out : List TxRecord) (pending : List (Nat × List Byte)) (hw : anyBit cs csW = true ∨ h + 1 < s.cfg.cap dir) :
    ∃ t, { s with mem := m, lineOut := out, linePending := pending }.walkOn n c dir h cs = .next t
      ∧ s.nowCtx t n { c with hw := c.hw.set dir (if anyBit cs csW then 0 else h + 1) }
      ∧ t.mem = m ∧ t.lineOut = out ∧ t.linePending = pending ∧ s.sameThreads t ∧ s.sameCore t ∧ t.out = .moved := by
  rw [State.walkOn, nextHw_wrap hw]
  exact ⟨_, rfl, State.nowCtx_setCtx n _ rfl, rfl, rfl, rfl, fun _ => rfl, ⟨rfl, rfl, rfl, rfl, rfl, rfl, rfl⟩, rfl⟩

/-- A walk past the end of the sub-ring. -/
theorem State.walkOn_pastEnd (s : State) (n : Nat) (c : Ctx) {dir : Dir} {h : Nat} {cs : Half} (hw : anyBit cs csW = false)
    (hend : s.cfg.cap dir ≤ h + 1) :
    s.walkOn n c dir h cs = .next ((s.setCtx n c).raise (trapOf .contractViolation)) := by
  have : nextHw s.cfg dir h cs = none := by simp [nextHw, hw, hend]
  rw [State.walkOn, this]

/-! The received bytes (R246, R256). -/

theorem State.rxData_drawn {s : State} {count : Nat} (n : Nat) (lf err : Bool) (hl : s.cfg.loopback = false)
    (hlen : s.cur.draws.data.length = count) : s.rxData n lf err count = some (s.cur.draws.data, s) := by
  simp [State.rxData, hl, hlen]

theorem State.rxData_nonePending {s : State} {n : Nat} (lf err : Bool) (count : Nat) (hl : s.cfg.loopback = true)
    (h : ∀ x, x ∈ s.linePending → x.1 ≠ n) : s.rxData n lf err count = none := by
  simp [State.rxData, hl, pendingHead_none h]

theorem State.rxData_pending {s : State} {n : Nat} {before after : List (Nat × List Byte)} {bs : List Byte} (lf err : Bool)
    (count : Nat) (hl : s.cfg.loopback = true) (hp : s.linePending = before ++ (n, bs) :: after)
    (h : ∀ x, x ∈ before → x.1 ≠ n) :
    s.rxData n lf err count = if bs.length = count ∧ lf = true ∧ err = false then
      some (bs, { s with linePending := before ++ after }) else none := by
  simp [State.rxData, hl, hp, pendingHead_eq h, pendingTail_eq h]

/-! A receive step on the slot `d` at `hw[RX]`, as `State.engine_rx` gives it. -/

/-- Both completions are `State.rxComplete`. -/
theorem exec_rxCompletion (s : State) (n count : Nat) (lf err : Bool) :
    exec (if err then .hwRxCompleteErr n lf count else .hwRxComplete n lf count) s = s.rxComplete n lf err count := by
  cases err <;> rfl

section
variable {s : State} {n : Nat} {c : Ctx} {d : Desc} (hslot : ∀ k, s.engine .dmaRxOnly n .rx k = k c d)
include hslot

/-- A completion is a hold on a FULL slot, for more bytes than a buffer takes, and without data (R242, R256). -/
theorem State.rxComplete_hold {lf err : Bool} {count : Nat}
    (h : d.hwOwned = false ∨ s.cfg.bufSize < count ∨ s.rxData n lf err count = none) :
    s.rxComplete n lf err count = .next s.hold := by
  rw [State.rxComplete, hslot]
  by_cases ho : d.hwOwned = true ∧ count ≤ s.cfg.bufSize
  · have hx : s.rxData n lf err count = none :=
      (h.resolve_left (by simp [ho.1])).resolve_left (Nat.not_lt.mpr ho.2)
    simp only [if_pos ho, hx]
  · exact if_neg ho

/-- A completion with data fills the slot and hands it to software (R242, R243). -/
theorem State.rxComplete_fills {lf err : Bool} {count : Nat} {bs : List Byte} {pending : List (Nat × List Byte)}
    (ho : d.hwOwned = true) (hcount : count ≤ s.cfg.bufSize) (hd : c.desc[c.hw.rx]? = some d)
    (haddr : d.addr.toNat + s.cfg.bufSize ≤ 2 ^ 32) (hw : d.wrap = true ∨ c.hw.rx + 1 < s.cfg.rxCap)
    (hx : s.rxData n lf err count = some (bs, { s with linePending := pending })) (hlen : bs.length = count) :
    ∃ t, s.rxComplete n lf err count = .next t
      ∧ s.nowCtx t n
          { c with
            desc := c.desc.set c.hw.rx
              ⟨(d.cs &&& (csW ||| csI)) ||| (if lf then csL else 0) ||| (if err then csE else 0),
                BitVec.ofNat 16 count, d.addr⟩
            evt := if d.irq then c.evt ||| (if lf then evRxf else evRxb) else c.evt
            hw := ⟨if d.wrap then 0 else c.hw.rx + 1, c.hw.tx⟩ }
      ∧ (∀ j b, bs[j]? = some b → t.mem.read (d.addr.toNat + j) = b)
      ∧ s.sameMemBut t d.addr.toNat count ∧ t.linePending = pending ∧ t.lineOut = s.lineOut ∧ s.sameThreads t
      ∧ s.sameCore t ∧ t.out = .moved := by
  obtain ⟨_, _, _, _, (hwrap : _ = d.wrap)⟩ := csRxDone_flags d.cs lf err
  rw [State.rxComplete, hslot, if_pos ⟨ho, hcount⟩, hx]
  simp only [Ctx.copyIn_of s.mem hd haddr (hlen.trans_le hcount), evRxDone, evRaise_bitsIf]
  obtain ⟨t, ht, hctx, hmem, hout, hpending, hrest⟩ := State.walkOn_next s n
    { c.setDesc c.hw.rx ⟨csRxDone d.cs lf err, BitVec.ofNat 16 count, d.addr⟩ with
      evt := if d.irq then c.evt ||| (if lf then evRxf else evRxb) else c.evt }
    (dir := .rx) (h := c.hw.rx) (s.mem.writeBytes d.addr.toNat bs) s.lineOut pending (by rwa [hwrap])
  rw [hwrap] at hctx
  refine ⟨t, ht, hctx, fun j b hb => ?_, fun x hx => ?_, hpending, hout, hrest⟩
  · rw [hmem]
    exact read_writeBytes_getElem? hb
  · rw [hmem]
    exact read_writeBytes_outside hlen hx

end

/-- Settles O17: a completion whose data is the draw, which leaves the line alone. -/
theorem rxCompletionFillsSlot : Obligations.RxCompletionFillsSlot := by
  intro s n count lf err c d ha hl hlen hcount hwf hc hen hh hd hr ho haddr hw
  obtain ⟨t, ht, hctx, hbytes, hmem, hpending, hout, hthreads, hcore, hmoved⟩ :=
    State.rxComplete_fills (State.engine_rx ha hwf hc hen hh hd hr) ho hcount hd haddr hw
      (s.rxData_drawn n lf err hl hlen) hlen
  exact ⟨t, (exec_rxCompletion ..).trans ht, hctx, hbytes, hmem, hthreads, hcore, ⟨hout, hpending⟩, hmoved⟩

/-- Settles O23: by what the line of the instance answers, a hold or a completion with the oldest bytes. -/
theorem loopbackFeedsReceiver : Obligations.LoopbackFeedsReceiver := by
  intro s n count lf err c d ha hl hwf hc hen hh hd hr ho haddr hw hcount
  have hslot := State.engine_rx ha hwf hc hen hh hd hr
  rw [exec_rxCompletion]
  refine ⟨fun hnone => ?_, fun before bs after hp hbefore => ⟨fun hwrong => ?_, fun hlen => ?_⟩⟩
  · exact waits_of_hold (State.rxComplete_hold hslot (.inr (.inr (State.rxData_nonePending lf err count hl hnone))))
  · have hx : s.rxData n lf err count = none := by
      rw [State.rxData_pending lf err count hl hp hbefore, if_neg]
      rintro ⟨hlen, hlf, herr⟩
      simp [hlen, hlf, herr] at hwrong
    exact waits_of_hold (State.rxComplete_hold hslot (.inr (.inr hx)))
  · have hx := State.rxData_pending true false count hl hp hbefore
    rw [if_pos ⟨hlen, rfl, rfl⟩] at hx
    simpa [exec, execHwRxComplete] using State.rxComplete_fills hslot ho hcount hd haddr hw hx hlen

/-- Settles O18: the slot is FULL, and under LOOPBACK the line of the instance decides between a drop and a hold. -/
theorem rxBusyDropsData : Obligations.RxBusyDropsData := by
  refine ⟨fun n hn => ?_, fun s n c d ha hwf hc hen hh hd hr ho => ?_⟩
  · rw [encode_toNat (by simp [Instr.wf, instOk, hn])]
    simp only [encodeFields]
    omega
  · rw [exec, execHwRxBusy, State.engine_rx ha hwf hc hen hh hd hr]
    simp only [ho, Bool.false_eq_true, if_false]
    refine ⟨fun before bs after hl hp hbefore => ?_, fun hl hnone => ?_, fun hl => ?_⟩
    · rw [if_pos hl, hp, pendingHead_eq hbefore, pendingTail_eq hbefore]
      exact ⟨_, rfl, State.nowCtx_setCtx n _ rfl, ⟨rfl, rfl, rfl, rfl, rfl, rfl, rfl⟩, fun _ => rfl, fun _ => rfl, rfl, rfl,
        rfl⟩
    · rw [if_pos hl, pendingHead_none hnone]
      exact ⟨_, rfl, s.waits_hold⟩
    · rw [if_neg (by simp [hl])]
      exact ⟨_, rfl, s.onlyCtx_moved n _, fun _ => rfl, rfl⟩

/-! A transmit step on the slot `d` at `hw[TX]`, as `State.engine_tx` gives it. -/

section
variable {s : State} {n : Nat} {c : Ctx} {d : Desc} (hslot : ∀ k, s.engine .dmaTxOnly n .tx k = k c d)
include hslot

/-- HW_TX_COMPLETE on a READY slot sends its bytes and walks on (R250). -/
theorem execHwTxComplete_ready (ho : d.hwOwned = true) (hd : c.desc[s.cfg.rxCap + c.hw.tx]? = some d)
    (haddr : d.addr.toNat + s.cfg.bufSize ≤ 2 ^ 32) (hlen : d.len.toNat ≤ s.cfg.bufSize) {bytes : List Byte}
    (hbytes : bytes = (List.range d.len.toNat).map (fun j => s.mem.read (d.addr.toNat + j))) :
    execHwTxComplete n s =
      { s with
        lineOut := s.lineOut ++ [TxRecord.mk n bytes false]
        linePending := if s.cfg.loopback then s.linePending ++ [(n, bytes)] else s.linePending }.walkOn n
        { c.setDesc (s.cfg.rxCap + c.hw.tx) ⟨csTxDone d.cs, d.len, d.addr⟩ with
          evt := if d.irq then c.evt ||| evTxb else c.evt } .tx c.hw.tx (csTxDone d.cs) := by
  rw [execHwTxComplete, hslot, if_pos ho, State.copyOut_of hd haddr hlen, State.orRaise_ok, ← hbytes, evTxDone,
    evRaise_bitsIf]
  rfl

/-- HW_TX_ERROR on a READY slot sends a part of its bytes and walks on (R251). -/
theorem execHwTxError_ready {sent : Nat} (ho : d.hwOwned = true) (hsent : sent ≤ d.len.toNat)
    (hd : c.desc[s.cfg.rxCap + c.hw.tx]? = some d) (haddr : d.addr.toNat + s.cfg.bufSize ≤ 2 ^ 32)
    (hlen : d.len.toNat ≤ s.cfg.bufSize) :
    execHwTxError n sent s =
      { s with
        lineOut := s.lineOut
          ++ [TxRecord.mk n ((List.range sent).map (fun j => s.mem.read (d.addr.toNat + j))) true] }.walkOn n
        { c.setDesc (s.cfg.rxCap + c.hw.tx) ⟨csTxFail d.cs, d.len, d.addr⟩ with evt := c.evt ||| evTxe } .tx c.hw.tx
        (csTxFail d.cs) := by
  rw [execHwTxError, hslot, if_pos ⟨ho, hsent⟩, State.copyOut_of hd haddr (hsent.trans hlen), State.orRaise_ok]
  rfl

end

/-- A walk inside the sub-ring that hands the slot back with the flags `cs` and the event register `evt`. -/
theorem State.walkOn_handsBack (s : State) (n : Nat) {c : Ctx} {d : Desc} {cs : Half} (evt : Half) (out : List TxRecord)
    (pending : List (Nat × List Byte)) (hcs : anyBit cs csW = d.wrap) (hw : d.wrap = true ∨ c.hw.tx + 1 < s.cfg.txCap) :
    ∃ t, { s with lineOut := out, linePending := pending }.walkOn n
        { c.setDesc (s.cfg.rxCap + c.hw.tx) ⟨cs, d.len, d.addr⟩ with evt := evt } .tx c.hw.tx cs = .next t
      ∧ s.nowCtx t n
          { c with
            desc := c.desc.set (s.cfg.rxCap + c.hw.tx) ⟨cs, d.len, d.addr⟩
            evt := evt
            hw := ⟨c.hw.rx, if d.wrap then 0 else c.hw.tx + 1⟩ }
      ∧ t.lineOut = out ∧ t.linePending = pending ∧ s.sameMem t ∧ s.sameThreads t ∧ s.sameCore t ∧ t.out = .moved := by
  obtain ⟨t, ht, hctx, hmem, hout, hpending, hrest⟩ := State.walkOn_next s n
    { c.setDesc (s.cfg.rxCap + c.hw.tx) ⟨cs, d.len, d.addr⟩ with evt := evt }
    (dir := .tx) (h := c.hw.tx) (cs := cs) s.mem out pending (by rwa [hcs])
  rw [hcs] at hctx
  exact ⟨t, ht, hctx, hout, hpending, fun x => by rw [hmem], hrest⟩

/-- Settles O19: the bytes go out and the walk stays inside the sub-ring. -/
theorem txCompletionSendsSlot : Obligations.TxCompletionSendsSlot := by
  intro s n c d ha hwf hc hen hh hd hr ho haddr hlen hw bytes hbytes
  obtain ⟨_, _, _, _, hwrap⟩ := csTxDone_flags d.cs
  rw [exec, execHwTxComplete_ready (State.engine_tx ha hwf hc hen hh hd hr) ho hd haddr hlen hbytes]
  exact s.walkOn_handsBack n _ _ _ hwrap hw

/-- Settles O20: a part of the bytes goes out, and the slot is handed back as after a completion. -/
theorem txFailureHandsSlotBack : Obligations.TxFailureHandsSlotBack := by
  intro s n sent c d ha hwf hc hen hh hd hr ho hsent haddr hlen hw
  obtain ⟨_, _, _, _, hwrap⟩ := csTxFail_flags d.cs
  rw [exec, execHwTxError_ready (State.engine_tx ha hwf hc hen hh hd hr) ho hsent hd haddr hlen]
  exact s.walkOn_handsBack n _ _ _ hwrap hw

/-- Settles O22: at the last slot without WRAP the walk of the transmit completion has nowhere to go. -/
theorem walkPastEndFaults : Obligations.WalkPastEndFaults := by
  refine ⟨fun cfg dir h cs => by simp [nextHw, anyBit], fun s n c d ha hwf hc hen hh hd hr ho haddr hlen hw => ?_⟩
  obtain ⟨_, _, _, _, hwrap⟩ := csTxDone_flags d.cs
  rw [exec, execHwTxComplete_ready (State.engine_tx ha hwf hc hen (by omega) hd hr) ho hd haddr hlen rfl,
    State.walkOn_pastEnd _ n _ (hwrap.trans hw) hh.ge]
  exact ⟨_, rfl, rfl⟩

/-! Steps that are not enabled (R240, R252). -/

/-- The receive engine's steps all start with `State.engine`. -/
theorem exec_dmaRx_off {s : State} {n : Nat} {c : Ctx} (ha : s.cur.agent = .dmaRx) (hc : s.ctx? n = some c)
    (hoff : c.dmaEn.rx = false) (lf : Bool) (count : Nat) {i : Instr}
    (hmem : i ∈ [Instr.hwRxComplete n lf count, .hwRxCompleteErr n lf count, .hwRxBusy n]) :
    exec i s = .next s.hold := by
  simp only [List.mem_cons, List.not_mem_nil, or_false] at hmem
  rcases hmem with rfl | rfl | rfl <;> exact State.engine_off_rx ha hc hoff _

/-- The transmit engine's steps all start with `State.engine`. -/
theorem exec_dmaTx_off {s : State} {n : Nat} {c : Ctx} (ha : s.cur.agent = .dmaTx) (hc : s.ctx? n = some c)
    (hoff : c.dmaEn.tx = false) (sent : Nat) {i : Instr} (hmem : i ∈ [Instr.hwTxComplete n, .hwTxError n sent]) :
    exec i s = .next s.hold := by
  simp only [List.mem_cons, List.not_mem_nil, or_false] at hmem
  rcases hmem with rfl | rfl <;> exact State.engine_off_tx ha hc hoff _

/-- Settles O21: an engine that is off holds before it reads the slot, one that is on by the slot's owner and the operand. -/
theorem disabledEnginesHold : Obligations.DisabledEnginesHold := by
  intro s n count lf
  refine ⟨fun ha c hc hoff i hmem => waits_of_hold (exec_dmaRx_off ha hc hoff lf count hmem),
    fun ha c hc hoff i hmem => waits_of_hold (exec_dmaTx_off ha hc hoff count hmem),
    fun ha hwf c d hc hh hd hr hen => ?_, fun ha hwf c d hc hh hd hr hen => ?_⟩
  · have hslot := State.engine_rx ha hwf hc hen hh hd hr
    refine ⟨fun ho => waits_of_hold ?_, fun hno i hmem => waits_of_hold ?_⟩
    · rw [exec, execHwRxBusy, hslot]
      exact if_pos ho
    · have hno' := fun err => State.rxComplete_hold (lf := lf) (err := err) hslot (hno.imp_right .inl)
      simp only [List.mem_cons, List.not_mem_nil, or_false] at hmem
      rcases hmem with rfl | rfl
      · exact hno' false
      · exact hno' true
  · have hslot := State.engine_tx ha hwf hc hen hh hd hr
    refine ⟨fun ho => waits_of_hold ?_, fun hno => waits_of_hold ?_⟩
    · rw [exec, execHwTxComplete, hslot]
      exact if_neg (by simp [ho])
    · rw [exec, execHwTxError, hslot]
      refine if_neg fun ⟨ho, hsent⟩ => ?_
      exact hno.elim (by simp [ho]) (Nat.not_lt.mpr hsent)

end Sys2Proof.Machine
end

section
/-! Proofs of the dispatcher family: the register operations (43_dispatcher.md R271 to R273), which share the routing checks and
the fault of an id that is not laid out. -/

namespace Sys2Proof.Machine

/-! The five event bits (30_encoding.md R125). -/

theorem evAll_bit (b : Nat) : evAll.getLsbD b = decide (b < 5) := by
  have h : evAll.toNat = 2 ^ 5 - 1 := rfl
  rw [BitVec.getLsbD, h, Nat.testBit_two_pow_sub_one]

theorem toNat_and_evAll (v : Half) : (v &&& evAll).toNat = v.toNat % 32 := by
  have h : evAll.toNat = 2 ^ 5 - 1 := rfl
  rw [BitVec.toNat_and, h, Nat.and_two_pow_sub_one_eq_mod]

section
variable {s : State} {n : Nat} (hfree : s.freeSoftware)
include hfree

/-- The three register operations look the instance up first (60_exceptions.md R404). -/
theorem exec_registerOp_faults (h : ∀ c, s.ctx? n = some c → c.life ∉ [Life.initialized, .active, .stopped]) (m : Half)
    {i : Instr} (hi : i = .evtRead n ∨ i = .evtAck n m ∨ i = .imaskWrite n m) :
    ∃ t, exec i s = .next t ∧ s.faults t .noSuchInstance 0 := by
  have hissue := State.issue_freeSoftware hfree
  have hctx := State.laidOutCtx_error h
  have hwrite (off : Nat) : s.writeRegister n off m = .next (s.raise (trapOf .noSuchInstance)) := by
    rw [State.writeRegister, hissue, hctx, State.orRaise_error]
  rcases hi with rfl | rfl | rfl
  · refine faults_of_absent ?_
    rw [exec, execEvtRead, hissue, hctx, State.orRaise_error]
  · exact faults_of_absent (hwrite s.cfg.regEvt)
  · exact faults_of_absent (hwrite s.cfg.regMask)

variable {c : Ctx} (hwf : s.cfg.wf = true) (hc : s.ctx? n = some c) (hl : c.life ∈ [Life.initialized, .active, .stopped])
include hwf hc hl

theorem exec_evtRead_laidOut :
    exec (.evtRead n) s = .next (s.finish .ok (.num (c.evt &&& evAll).toNat)) := by
  rw [exec, execEvtRead, State.issue_freeSoftware hfree, State.laidOutCtx_of hc hl, State.orRaise_ok,
    State.regRead_evt c hwf, State.orRaise_ok]

theorem exec_evtAck_laidOut (m : Half) :
    exec (.evtAck n m) s = .next ((s.setCtx n { c with evt := evAck c.evt m }).finish .ok (.num 0)) := by
  rw [exec, execEvtAck, State.writeRegister, State.issue_freeSoftware hfree, State.laidOutCtx_of hc hl, State.orRaise_ok,
    State.regWrite_evt c m hwf, State.orRaise_ok]

theorem exec_imaskWrite_laidOut (v : Half) :
    exec (.imaskWrite n v) s = .next ((s.setCtx n { c with imask := v &&& evAll }).finish .ok (.num 0)) := by
  rw [exec, execImaskWrite, State.writeRegister, State.issue_freeSoftware hfree, State.laidOutCtx_of hc hl,
    State.orRaise_ok, State.regWrite_mask c v hwf, State.orRaise_ok]

end

/-- Settles O24: the value read is the five event bits, and the state is left to the delivery of the result. -/
theorem evtReadHasNoSideEffect : Obligations.EvtReadHasNoSideEffect := by
  refine ⟨fun n hn => ?_, fun s n hfree hwf => ⟨fun h => ?_, fun c hc hl => ?_⟩⟩
  · rw [encode_toNat (by simp [Instr.wf, instOk, hn])]
    simp only [encodeFields]
    omega
  · exact exec_registerOp_faults hfree h 0 (.inl rfl)
  · rw [exec_evtRead_laidOut hfree hwf hc hl, toNat_and_evAll]
    exact ⟨_, rfl, s.onlyReturns_finish _ _⟩

/-- Settles O25: the new `EVT` is `evAck` of the old one, bit by bit `evAck_bit`. -/
theorem evtAckClearsExactlyMask : Obligations.EvtAckClearsExactlyMask := by
  refine ⟨fun n m hn => ?_, fun s n m hfree hwf => ⟨fun h => ?_, fun c hc hl => ?_⟩⟩
  · rw [encode_toNat (by simp [Instr.wf, instOk, hn])]
    simp only [encodeFields]
    omega
  · exact exec_registerOp_faults hfree h m (.inr (.inl rfl))
  · exact ⟨_, _, exec_evtAck_laidOut hfree hwf hc hl m, s.onlyCtx_finish n _ _ _, State.returns_finish _ _ rfl rfl,
      fun b hb => evAck_bit c.evt m b hb⟩

/-- Settles O26: the new `IMASK` is the operand under `evAll`, whose bits are the five below 5. -/
theorem imaskWriteKeepsFiveBits : Obligations.ImaskWriteKeepsFiveBits := by
  refine ⟨fun n v hn => ?_, fun s n v hfree hwf => ⟨fun h => ?_, fun c hc hl => ?_⟩⟩
  · rw [encode_toNat (by simp [Instr.wf, instOk, hn])]
    simp only [encodeFields]
    omega
  · exact exec_registerOp_faults hfree h v (.inr (.inr rfl))
  · exact ⟨_, _, exec_imaskWrite_laidOut hfree hwf hc hl v, s.onlyCtx_finish n _ _ _, State.returns_finish _ _ rfl rfl,
      fun b _ => by rw [BitVec.getLsbD_and, evAll_bit]⟩

end Sys2Proof.Machine
end

section
/-! Proofs of the dispatcher family: IRQ_DISPATCH (43_dispatcher.md R277), phase by phase, and what no phase touches (R270,
R276). -/

namespace Sys2Proof.Machine

/-- The phase of the invocation on context `c`, in the dispatcher's own execution context (R277). -/
def State.dispatchPhase (s : State) (n : Nat) (c : Ctx) : Out :=
  match c.disp with
  | .idle => if c.handler then s.dispatchRead n { c with handled := false, disp := .reading } else .next s.hold
  | .reading => s.dispatchRead n c
  | .acking m => s.dispatchAck n c m
  | .signalling m => s.dispatchSignal n c m

theorem exec_irqDispatch_of_ctx {s : State} {n : Nat} {c : Ctx} (ha : s.cur.agent = .dispatcher)
    (hc : s.ctx? n = some c) : exec (.irqDispatch n) s = s.dispatchPhase n c := by
  rw [exec, execIrqDispatch, State.issue_dispatch ha, hc]
  rfl

theorem exec_irqDispatch_absent {s : State} {n : Nat} (ha : s.cur.agent = .dispatcher) (hc : s.ctx? n = none) :
    exec (.irqDispatch n) s = .next (s.raise (trapOf .noSuchInstance)) :=
  exec_either_absent hc (.inr (.inr ha)) 0 .rx 0 (by simp)

/-! Each phase under a well-formed configuration. -/

/-- The start step reads as the `Reading` phase does, after it has cleared `handled`. -/
theorem State.dispatchPhase_reads (s : State) (n : Nat) {c : Ctx} {h : Bool}
    (hr : (c.disp = .idle ∧ c.handler = true ∧ h = false) ∨ (c.disp = .reading ∧ h = c.handled)) :
    s.dispatchPhase n c = s.dispatchRead n { c with disp := .reading, handled := h } := by
  rcases hr with ⟨hd, hh, rfl⟩ | ⟨hd, rfl⟩
  · simp [State.dispatchPhase, hd, hh]
  · simp only [State.dispatchPhase, hd]
    rw [← hd]

theorem State.dispatchRead_zero {s : State} {c : Ctx} (n : Nat) (hwf : s.cfg.wf = true) (hm : c.evt &&& evAll = 0) :
    s.dispatchRead n c = .next
      ((s.setCtx n { c with disp := .idle }).finish (if c.handled then .handled else .notHandled) (.num 0)) := by
  rw [State.dispatchRead, State.regRead_evt c hwf, State.orRaise_ok, if_pos hm]

theorem State.dispatchRead_mask {s : State} {c : Ctx} (n : Nat) (hwf : s.cfg.wf = true) (hm : c.evt &&& evAll ≠ 0) :
    s.dispatchRead n c
      = .next (s.setCtx n { c with handled := true, disp := .acking (c.evt &&& evAll) }).moved := by
  rw [State.dispatchRead, State.regRead_evt c hwf, State.orRaise_ok, if_neg hm]

theorem State.dispatchAck_eq {s : State} (n : Nat) (c : Ctx) (m : Half) (hwf : s.cfg.wf = true) :
    s.dispatchAck n c m
      = .next (s.setCtx n { c with evt := c.evt &&& ~~~m, disp := .signalling m }).moved := by
  rw [State.dispatchAck, State.regWrite_evt c m hwf, State.orRaise_ok, evAck]

/-- Each direction that is hit has its gate emptied, whatever the other one does (R274). -/
theorem Ctx.signalHits_gate (c : Ctx) (m : Half) :
    c.signalHits m
      = { c with gate := ⟨if rxHit m then [] else c.gate.rx, if txHit m then [] else c.gate.tx⟩ } := by
  unfold Ctx.signalHits
  cases rxHit m <;> cases txHit m <;> rfl

theorem anyBit_iff {v m : Half} : anyBit v m = true ↔ v &&& m ≠ 0 := bne_iff_ne

/-- The masks of R126: 0x000D for receive, 0x0012 for transmit; BSY and TXE are counted. -/
theorem Ctx.signalHits_countFaults (c : Ctx) (m : Half) :
    { (c.countFaults m).signalHits m with disp := .reading }
      = { c with
          disp := .reading
          rxFaults := if m &&& 0x0004 ≠ 0 then c.rxFaults + 1 else c.rxFaults
          txFaults := if m &&& 0x0010 ≠ 0 then c.txFaults + 1 else c.txFaults
          gate := ⟨if m &&& 0x000D ≠ 0 then [] else c.gate.rx, if m &&& 0x0012 ≠ 0 then [] else c.gate.tx⟩ } := by
  simp only [Ctx.signalHits_gate, Ctx.countFaults, rxHit, txHit, rxFault, txFault, anyBit_iff]
  rfl

/-- Settles O27: the phase in `disp` decides the step; the read of `EVT` decides between the report and the acknowledge. -/
theorem irqDispatchPhases : Obligations.IrqDispatchPhases := by
  refine ⟨fun n hn => ?_, fun s n ha hwf => ⟨fun hc => faults_of_absent (exec_irqDispatch_absent ha hc), fun c hc => ?_⟩⟩
  · rw [encode_toNat (by simp [Instr.wf, instOk, hn])]
    simp only [encodeFields]
    omega
  · rw [exec_irqDispatch_of_ctx ha hc]
    refine ⟨fun hd hh => ?_, fun h hr => ?_, fun m hd => ?_, fun m hd => ?_⟩
    · exact waits_of_hold (by simp [State.dispatchPhase, hd, hh])
    · rw [s.dispatchPhase_reads n hr]
      exact ⟨fun hm => ⟨_, State.dispatchRead_zero n hwf hm, s.onlyCtx_finish n _ _ _, State.returns_finish _ _ rfl rfl⟩,
        fun hm => ⟨_, State.dispatchRead_mask n hwf hm, s.onlyCtx_moved n _, fun _ => rfl, rfl⟩⟩
    · simp only [State.dispatchPhase, hd, State.dispatchAck_eq n c m hwf]
      exact ⟨_, rfl, s.onlyCtx_moved n _, fun _ => rfl, rfl⟩
    · simp only [State.dispatchPhase, hd, State.dispatchSignal, Ctx.signalHits_countFaults]
      exact ⟨_, rfl, s.onlyCtx_moved n _, fun _ => rfl, rfl⟩

/-! What a dispatcher step can do, in every state and under every configuration. -/

/-- What the phases may make of a context: some event bits acknowledged, the invocation's progress, the counters, the gates. -/
def Ctx.DispatchedTo (c e : Ctx) : Prop :=
  ∃ m disp handled rf tf gate,
    e = { c with evt := evAck c.evt m, disp := disp, handled := handled, rxFaults := rf, txFaults := tf, gate := gate }

/-- The step wrote the fault record and the delivery, and at most made context `n` a dispatched one. -/
inductive State.Dispatched (s : State) (n : Nat) : State → Prop
  | kept (fault : Option FaultRec) (out : Delivery) : Dispatched s n { s with fault := fault, out := out }
  | wrote {c e} (hc : s.ctx? n = some c) (he : c.DispatchedTo e) (fault : Option FaultRec) (out : Delivery) :
      Dispatched s n { s.setCtx n e with fault := fault, out := out }

/-- Acknowledging nothing leaves `EVT`. -/
theorem evAck_zero (evt : Half) : evAck evt 0 = evt := BitVec.and_allOnes

theorem Ctx.dispatchedTo_phase (c : Ctx) (disp : DispPhase) (handled : Bool) :
    c.DispatchedTo { c with disp := disp, handled := handled } :=
  ⟨0, disp, handled, c.rxFaults, c.txFaults, c.gate, by rw [evAck_zero]⟩

theorem State.dispatchRead_dispatched {s t : State} {n : Nat} {c : Ctx} {disp : DispPhase} {handled : Bool}
    (ha : s.cur.agent = .dispatcher) (hc : s.ctx? n = some c)
    (h : s.dispatchRead n { c with disp := disp, handled := handled } = .next t) : s.Dispatched n t := by
  rcases State.orRaise_next h with ⟨tr, _, rfl⟩ | ⟨m, _, h⟩
  · exact .wrote hc (c.dispatchedTo_phase _ _) _ _
  · split at h <;> rw [← next_inj h]
    · rw [State.finish_of_not_thread _ _ _ (by simp [ha])]
      exact .wrote hc (c.dispatchedTo_phase _ _) _ _
    · exact .wrote hc (c.dispatchedTo_phase _ _) _ _

theorem State.dispatchAck_dispatched {s t : State} {n : Nat} {c : Ctx} {m : Half} (hc : s.ctx? n = some c)
    (h : s.dispatchAck n c m = .next t) : s.Dispatched n t := by
  rcases State.orRaise_next h with ⟨tr, _, rfl⟩ | ⟨c', hw, h⟩
  · exact .kept _ _
  · rw [← next_inj h, State.regWrite_evt_ok hw]
    exact .wrote hc ⟨m, .signalling m, c.handled, c.rxFaults, c.txFaults, c.gate, rfl⟩ _ _

theorem State.dispatchSignal_dispatched {s t : State} {n : Nat} {c : Ctx} {m : Half} (hc : s.ctx? n = some c)
    (h : s.dispatchSignal n c m = .next t) : s.Dispatched n t := by
  rw [← next_inj h, Ctx.signalHits_countFaults]
  exact .wrote hc ⟨0, .reading, c.handled, _, _, _, by rw [evAck_zero]⟩ _ _

theorem exec_irqDispatch_dispatched {s t : State} {n : Nat} (ha : s.cur.agent = .dispatcher)
    (h : exec (.irqDispatch n) s = .next t) : s.Dispatched n t := by
  cases hc : s.ctx? n with
  | none =>
    rw [exec_irqDispatch_absent ha hc] at h
    rw [← next_inj h]
    exact .kept _ _
  | some c =>
    rw [exec_irqDispatch_of_ctx ha hc] at h
    unfold State.dispatchPhase at h
    split at h
    · split at h
      · exact State.dispatchRead_dispatched ha hc h
      · rw [← next_inj h]
        exact .kept s.fault _
    · exact State.dispatchRead_dispatched (disp := c.disp) (handled := c.handled) ha hc h
    · exact State.dispatchAck_dispatched hc h
    · exact State.dispatchSignal_dispatched hc h

/-- Settles O28: whatever a dispatcher step writes is the record, the delivery and a dispatched context, in which an event
bit still set was set before. -/
theorem dispatcherTouchesOnlyItsOwn : Obligations.DispatcherTouchesOnlyItsOwn := by
  intro s t n ha h
  cases exec_irqDispatch_dispatched ha h with
  | kept fault out =>
    exact ⟨rfl, rfl, ⟨rfl, rfl⟩, rfl, rfl, fun _ _ => rfl,
      fun e he => ⟨e, he, rfl, rfl, rfl, rfl, rfl, rfl, rfl, fun _ _ hb => hb⟩⟩
  | @wrote c _ hc he fault out =>
    obtain ⟨m, _, _, _, _, _, rfl⟩ := he
    refine ⟨rfl, rfl, ⟨rfl, rfl⟩, rfl, rfl, fun _ hm => s.ctx?_setCtx_ne _ hm, fun e he => ?_⟩
    cases (s.ctx?_setCtx_self n _).symm.trans he
    refine ⟨c, hc, rfl, rfl, rfl, rfl, rfl, rfl, rfl, fun b hb hset => ?_⟩
    rw [evAck_bit _ _ _ hb, Bool.and_eq_true] at hset
    exact hset.1

end Sys2Proof.Machine
end

section
/-! Proofs of the gate family (44_gate.md): the wait predicate, what joining, leaving and emptying a gate do to its waiters, how
the phases of a call end, and the operations on a gate. -/

namespace Sys2Proof.Machine

/-! The wait predicate (R291). -/

/-- The slot at the cursor is software's exactly when some slot is: the cursor is where the run of software's slots starts. -/
theorem ringShape.soft_cursor_iff {cap a b : Nat} {hw : Nat → Bool} (h : ringShape cap a b hw) (ha : a < cap) :
    hw a = false ↔ ∃ i, i < cap ∧ hw i = false := by
  refine ⟨fun ho => ⟨a, ha, ho⟩, fun ⟨i, hi, ho⟩ => ?_⟩
  unfold ringShape at h
  split at h
  · exact (h a ha).trans ((h i hi).symm.trans ho)
  · refine (h a ha).mpr ?_
    unfold inRun
    split <;> omega

/-- Settles O57: a well-formed ring has a readable descriptor at the cursor, and its shape puts software's slots there first. -/
theorem predicateMeansSomeSlot : Obligations.PredicateMeansSomeSlot := by
  intro s c d hwf hring hshape
  obtain ⟨_, hdesc, hcur, _⟩ := Ctx.ringOk_iff_get.mp hring
  have hslot := slot_lt (hcur d)
  obtain ⟨x, hx, hok⟩ := Ctx.descOk_iff.mp (hdesc _ hslot)
  obtain ⟨hclean, _, _⟩ := Desc.ok_iff.mp hok
  have hread := State.readDesc_ok.mpr ⟨descReachable_of_wf hwf hslot, hx, hclean⟩
  refine ⟨!x.hwOwned, by rw [State.waitPred, hread], ?_⟩
  rw [← (Ctx.shaped_iff.mp hshape).soft_cursor_iff (hcur d), Ctx.slotHw_eq hx, Bool.not_eq_true']

/-! The waiters of a gate. -/

theorem Ctx.mem_enqueue_gate (c : Ctx) (d : Dir) (t v : Nat) :
    v ∈ (c.enqueue d t).gate.get d ↔ v = t ∨ v ∈ c.gate.get d := by
  rw [Ctx.enqueue, PerDir.get_set_self, mem_setInsert]

theorem Ctx.mem_dequeue_gate (c : Ctx) (d : Dir) (t v : Nat) :
    v ∈ (c.dequeue d t).gate.get d ↔ v ∈ c.gate.get d ∧ v ≠ t := by
  rw [Ctx.dequeue, PerDir.get_set_self, mem_setErase]

theorem Ctx.enqueue_gate_ne (c : Ctx) {d e : Dir} (t : Nat) (h : e ≠ d) :
    (c.enqueue d t).gate.get e = c.gate.get e := PerDir.get_set_ne _ _ h

theorem Ctx.dequeue_gate_ne (c : Ctx) {d e : Dir} (t : Nat) (h : e ≠ d) :
    (c.dequeue d t).gate.get e = c.gate.get e := PerDir.get_set_ne _ _ h

theorem Ctx.wakeAll_gate (c : Ctx) (d e : Dir) :
    (c.wakeAll d).gate.get e = if e = d then [] else c.gate.get e := by
  split
  · next h => rw [h, Ctx.wakeAll, PerDir.get_set_self]
  · next h => exact PerDir.get_set_ne _ _ h

/-! What only writes threads and the delivery. -/

/-- `t` is `s` with other threads and another delivery. -/
def State.OnlyThreads (s t : State) : Prop := ∃ threads out, t = { s with threads := threads, out := out }

theorem State.OnlyThreads.trans {s t v : State} (h : s.OnlyThreads t) (g : t.OnlyThreads v) : s.OnlyThreads v := by
  obtain ⟨_, _, rfl⟩ := h
  obtain ⟨threads, out, rfl⟩ := g
  exact ⟨threads, out, rfl⟩

theorem State.onlyThreads_hold (s : State) : s.OnlyThreads s.hold := ⟨_, _, rfl⟩

theorem State.onlyThreads_setThr (s : State) (u : Nat) (th : Thread) : s.OnlyThreads (s.setThr u th) := ⟨_, _, rfl⟩

theorem State.onlyThreads_finish (s : State) (code : Code) (v : Value) : s.OnlyThreads (s.finish code v) := by
  unfold State.finish
  split <;> exact ⟨_, _, rfl⟩

theorem State.onlyThreads_inPhase (s : State) (k : CallKind) (n : Nat) (d : Dir) (ph : SubPhase) (len : Nat) :
    s.OnlyThreads (s.inPhase k n d ph len) := ⟨_, _, rfl⟩

theorem State.onlyThreads_callReturn (s : State) (code : Code) (v : Nat) : s.OnlyThreads (s.callReturn code v) :=
  (s.onlyThreads_setThr _ _).trans (State.onlyThreads_finish _ _ _)

theorem State.onlyThreads_waitDone (s : State) (k : CallKind) (n : Nat) (d : Dir) (len : Nat) :
    s.OnlyThreads (s.waitDone k n d len) := by
  cases k with
  | read => exact s.onlyThreads_inPhase ..
  | write => exact s.onlyThreads_inPhase ..
  | wait => exact s.onlyThreads_callReturn ..

theorem State.OnlyThreads.frame {s t : State} (h : s.OnlyThreads t) :
    s.sameCtxs t ∧ s.sameCore t ∧ s.sameLine t ∧ s.sameMem t := by
  obtain ⟨_, _, rfl⟩ := h
  exact ⟨fun _ => rfl, ⟨rfl, rfl, rfl, rfl, rfl, rfl, rfl⟩, ⟨rfl, rfl⟩, fun _ => rfl⟩

theorem State.OnlyThreads.onlyCtx {s t : State} {n : Nat} {c : Ctx} (h : (s.setCtx n c).OnlyThreads t) :
    s.onlyCtx t n c := by
  obtain ⟨_, _, rfl⟩ := h
  exact s.onlyCtx_moved n c

/-! What a call leaves in the thread that makes it. -/

theorem State.nowThread_of_threads {s v : State} (u : Nat) (h : v.threads = s.threads) : s.nowThread v u (s.thr u) := by
  simp [State.nowThread, State.thr, h]

@[simp] theorem State.inPhase_out (s : State) (k : CallKind) (n : Nat) (d : Dir) (ph : SubPhase) (len : Nat) :
    (s.inPhase k n d ph len).out = .moved := rfl

@[simp] theorem State.callReturn_out (s : State) (code : Code) (v : Nat) :
    (s.callReturn code v).out = .result ⟨code, .num v⟩ := State.finish_out ..

theorem State.finish_cancel (s : State) (code : Code) (v : Value) (u : Nat) :
    ((s.finish code v).thr u).cancel = (s.thr u).cancel := by
  rcases s.thr_finish code v u with h | h <;> rw [h]

theorem State.callReturn_cancel (s : State) (code : Code) (v u : Nat) :
    ((s.callReturn code v).thr u).cancel = (s.thr u).cancel := by
  rw [State.callReturn, State.finish_cancel]
  by_cases hu : u = s.me
  · rw [hu, State.thr_setThr_self]
  · rw [State.thr_setThr_ne _ _ hu]

theorem State.nowThread.setThr {s v : State} {u : Nat} {th : Thread} (h : s.nowThread v u th) (th' : Thread) :
    s.nowThread (v.setThr u th') u th' := by
  obtain ⟨_, hother⟩ := h
  exact ⟨State.thr_setThr_self .., fun w hw => (State.thr_setThr_ne _ _ hw).trans (hother w hw)⟩

section
variable {s v : State} {u : Nat} {th : Thread} (h : s.nowThread v u th) (ha : v.cur.agent = .thread u)
include h ha

theorem State.nowThread.inPhase (k : CallKind) (n : Nat) (d : Dir) (ph : SubPhase) (len : Nat) :
    s.nowThread (v.inPhase k n d ph len) u { th with phase := .inCall k n d ph, callLen := len } := by
  rw [State.inPhase, State.me_of_thread ha, h.1]
  exact h.setThr _

theorem State.nowThread.callReturn (code : Code) (r : Nat) :
    s.nowThread (v.callReturn code r) u { th with phase := .idle, callLen := 0, ret := ⟨code, .num r⟩ } := by
  rw [State.callReturn, State.me_of_thread ha, h.1]
  exact (h.setThr _).finish ha

/-- A wait that succeeded is the end of a WAIT, and the way to `Take` of a READ or WRITE. -/
theorem State.nowThread.waitDone (k : CallKind) (n : Nat) (d : Dir) (len : Nat) :
    (k = .wait → (v.waitDone k n d len).out = .result ⟨.ok, .num 0⟩
        ∧ s.nowThread (v.waitDone k n d len) u { th with phase := .idle, callLen := 0, ret := ⟨.ok, .num 0⟩ })
      ∧ (k ≠ .wait → (v.waitDone k n d len).out = .moved
        ∧ s.nowThread (v.waitDone k n d len) u { th with phase := .inCall k n d .take, callLen := len }) := by
  cases k with
  | read => exact ⟨nofun, fun _ => ⟨rfl, h.inPhase ha ..⟩⟩
  | write => exact ⟨nofun, fun _ => ⟨rfl, h.inPhase ha ..⟩⟩
  | wait => exact ⟨fun _ => ⟨v.callReturn_out .., h.callReturn ha ..⟩, fun hk => absurd rfl hk⟩

end

/-! The phases, an equation per case. -/

section
variable {s : State} {n : Nat} {c : Ctx} {d : Dir} (hc : s.ctx? n = some c)
include hc

theorem State.callEntry_inactive (hl : c.life ≠ .active) (k : CallKind) (len : Nat) :
    s.callEntry k n d len true = .next (s.raise (trapOf .contractViolation)) := by
  rw [State.callEntry, State.callCtx_inactive hc hl, State.orRaise_error]

theorem State.callEntry_of_pred {p : Bool} (hl : c.life = .active) (hp : s.waitPred c d = .ok p) (k : CallKind) (len : Nat) :
    s.callEntry k n d len true = if p then .next (s.waitDone k n d len) else .next (s.inPhase k n d .prep len) := by
  rw [State.callEntry, State.callCtx_ok.mpr ⟨hc, rfl, hl⟩, State.orRaise_ok, hp, State.orRaise_ok]

theorem State.callPrep_of_pred {p : Bool} (hp : s.waitPred c d = .ok p) (k : CallKind) (len : Nat) :
    s.callPrep k n d len =
      if p then .next ((s.setCtx n (c.dequeue d s.me)).waitDone k n d len)
      else if (s.thr s.me).cancel then
        .next (((s.setCtx n (c.dequeue d s.me)).setThr s.me { s.thr s.me with cancel := false }).callReturn .canceled 0)
      else .next ((s.setCtx n (c.enqueue d s.me)).inPhase k n d .sleep len) := by
  simp only [State.callPrep, hc, hp, State.orRaise_ok]

theorem State.asleep_iff : s.asleep n d = true ↔ s.me ∈ c.gate.get d ∧ (s.thr s.me).cancel = false := by
  simp [State.asleep, hc]

end

/-- Settles O30: both ways in reach `callEntry`, where the owner of the slot at the cursor decides. -/
theorem callEntryChecksPredicate : Obligations.CallEntryChecksPredicate := by
  intro s i k u n len d hi hat
  obtain ⟨ha, hexec⟩ : s.cur.agent = .thread u ∧ exec i s = s.callEntry k n d len true := by
    rw [exec_of_isCall hi]
    rcases hat with hidle | hin
    · exact ⟨hidle.1, State.blockingCall_idle hidle⟩
    · exact ⟨hin.1, State.blockingCall_inside hin⟩
  rw [hexec]
  refine ⟨fun hnone => ⟨_, State.callEntry_none hnone .., s.faults_raise _⟩, fun c hc =>
    ⟨fun hl => ⟨_, State.callEntry_inactive hc hl .., s.faults_raise _⟩, fun x hl hwf hcur hx hr => ?_⟩⟩
  rw [slot_ite_add] at hx
  rw [State.callEntry_of_pred hc hl (State.waitPred_of hwf hcur hx hr)]
  have hsame := s.nowThread_of_threads u rfl
  cases ho : x.hwOwned with
  | false =>
    obtain ⟨hwait, htake⟩ := hsame.waitDone ha k n d len
    obtain ⟨hctxs, hcore, hline, hmem⟩ := (s.onlyThreads_waitDone k n d len).frame
    exact ⟨_, rfl, hctxs, hcore, hline, hmem, fun _ => hwait, fun _ => htake, nofun⟩
  | true =>
    obtain ⟨hctxs, hcore, hline, hmem⟩ := (s.onlyThreads_inPhase k n d .prep len).frame
    exact ⟨_, rfl, hctxs, hcore, hline, hmem, nofun, nofun, fun _ => ⟨rfl, hsame.inPhase ha ..⟩⟩

/-- Settles O31: the thread has left the gate where the predicate holds or the call is canceled, and has joined it where it
sleeps. -/
theorem prepEnqueuesAndRechecks : Obligations.PrepEnqueuesAndRechecks := by
  intro s i k u n len d c x hi hin hc hwf hcur hx hr
  rw [exec_of_isCall hi, State.blockingCall_inside hin, State.callPhase]
  obtain ⟨ha, _, _, _⟩ := hin
  rw [slot_ite_add] at hx
  rw [State.callPrep_of_pred hc (State.waitPred_of hwf hcur hx hr), State.me_of_thread ha]
  have hsame (e : Ctx) : s.nowThread (s.setCtx n e) u (s.thr u) := State.nowThread_of_threads u rfl
  have hgone : u ∉ (c.dequeue d u).gate.get d := fun h => ((c.mem_dequeue_gate d u u).mp h).2 rfl
  have hleft {v : Nat} (hv : v ≠ u) : v ∈ (c.dequeue d u).gate.get d ↔ v ∈ c.gate.get d :=
    (c.mem_dequeue_gate d u v).trans (and_iff_left hv)
  cases ho : x.hwOwned with
  | false =>
    exact ⟨_, (c.dequeue d u).gate, rfl, (State.onlyThreads_waitDone ..).onlyCtx, fun _ he => c.dequeue_gate_ne u he,
      fun _ hv => hleft hv, fun _ => ⟨hgone, (hsame _).waitDone ha _ _ _ _⟩, nofun, nofun⟩
  | true =>
    cases hcancel : (s.thr u).cancel with
    | true =>
      refine ⟨_, (c.dequeue d u).gate, rfl, ((State.onlyThreads_setThr _ _ _).trans
        (State.onlyThreads_callReturn ..)).onlyCtx, fun _ he => c.dequeue_gate_ne u he, fun _ hv => hleft hv, nofun,
        fun _ _ => ⟨hgone, State.callReturn_out .., ?_⟩, nofun⟩
      exact ((hsame _).setThr _).callReturn ha _ _
    | false =>
      exact ⟨_, (c.enqueue d u).gate, rfl, (State.onlyThreads_inPhase ..).onlyCtx, fun _ he => c.enqueue_gate_ne u he,
        fun v hv => (c.mem_enqueue_gate d u v).trans (or_iff_right hv), nofun, nofun,
        fun _ _ => ⟨(c.mem_enqueue_gate d u u).mpr (.inl rfl), rfl, (hsame _).inPhase ha ..⟩⟩

/-- Settles O32: the hold is exactly `State.asleep`. -/
theorem sleepHoldsUntilWoken : Obligations.SleepHoldsUntilWoken := by
  intro s i k u n len d c hi hin hc
  rw [exec_of_isCall hi, State.blockingCall_inside hin, State.callPhase, State.callSleep]
  obtain ⟨ha, _, _, _⟩ := hin
  have hasleep := State.asleep_iff (d := d) hc
  rw [State.me_of_thread ha] at hasleep
  refine ⟨fun hmem hcancel => ⟨_, if_pos (hasleep.mpr ⟨hmem, hcancel⟩), s.waits_hold⟩, fun hwake => ?_⟩
  have hawake : ¬ s.asleep n d = true := fun h => by
    obtain ⟨hmem, hcancel⟩ := hasleep.mp h
    rcases hwake with hout | hset
    · exact hout hmem
    · simp [hcancel] at hset
  obtain ⟨hctxs, hcore, hline, hmem⟩ := (s.onlyThreads_inPhase k n d .prep len).frame
  exact ⟨_, if_neg hawake, (s.nowThread_of_threads u rfl).inPhase ha .., hctxs, hcore, hline, hmem, rfl⟩

/-! The `Take` phase. -/

/-- A lost race writes the phase only (R300). -/
theorem State.callTake_lost {s : State} {k : CallKind} {n u len : Nat} (h : s.takeOf k n len = .notReady)
    (ha : s.cur.agent = .thread u) (d : Dir) :
    ∃ t, s.callTake k n d len = .next t ∧ s.OnlyThreads t ∧ t.out = .moved
      ∧ s.nowThread t u { s.thr u with phase := .inCall k n d .entry, callLen := len } := by
  rw [State.callTake, h]
  exact ⟨_, rfl, s.onlyThreads_inPhase .., rfl, (s.nowThread_of_threads u rfl).inPhase ha ..⟩

/-- The state `v` of the hand-off is where the call returns from. -/
theorem State.callTake_won {s v : State} {k : CallKind} {n u len r : Nat} {th : Thread}
    (h : s.takeOf k n len = .took v r) (ha : v.cur.agent = .thread u) (hv : s.nowThread v u th) (d : Dir) :
    ∃ t, s.callTake k n d len = .next t ∧ v.OnlyThreads t ∧ t.out = .result ⟨.ok, .num r⟩
      ∧ s.nowThread t u { th with phase := .idle, callLen := 0, ret := ⟨.ok, .num r⟩ } := by
  rw [State.callTake, h]
  exact ⟨_, rfl, v.onlyThreads_callReturn .., v.callReturn_out .., hv.callReturn ha ..⟩

theorem State.atTake_inside {s : State} {u n len : Nat} {k : CallKind} {d : Dir} (h : s.insideAt u k n d len .take) :
    s.atTake k n d len = true := by
  obtain ⟨ha, ht, hp, hlen⟩ := h
  simp [State.atTake, State.admit_thread ha ht, State.me_of_thread ha, hp, hlen]

theorem exec_read_atTake {s : State} {u n len : Nat} {i : Instr} (h : s.insideAt u .read n .rx len .take)
    (hi : i = .read n len ∨ i = .takeRd n len) : exec i s = s.callTake .read n .rx len := by
  rcases hi with rfl | rfl
  · rw [exec, execRead, State.blockingCall_inside h, State.callPhase]
  · rw [exec, execTakeRd, if_pos (State.atTake_inside h)]

theorem exec_write_atTake {s : State} {u n len : Nat} {i : Instr} (h : s.insideAt u .write n .tx len .take)
    (hi : i = .write n len ∨ i = .takeWr n len) : exec i s = s.callTake .write n .tx len := by
  rcases hi with rfl | rfl
  · rw [exec, execWrite, State.blockingCall_inside h, State.callPhase]
  · rw [exec, execTakeWr, if_pos (State.atTake_inside h)]

/-- Settles O33: the take of the call is the bare take, whose `NotReady` is the way back to `Entry`. -/
theorem takePhaseTakesOrRetries : Obligations.TakePhaseTakesOrRetries := by
  intro s u n len c x hc hl hwf hr haddr hlen
  constructor
  · intro i hi hin hcur hx
    rw [exec_read_atTake hin hi]
    obtain ⟨ha, _, _, _⟩ := hin
    cases ho : x.hwOwned with
    | true =>
      have htake := State.takeRead_notReady (maxLen := len) hc hl hwf hcur hx hr ho
      obtain ⟨t, ht, honly, hmoved, hthr⟩ := State.callTake_lost (k := .read) htake ha .rx
      obtain ⟨hctxs, hcore, hline, hmem⟩ := honly.frame
      exact ⟨t, ht, hcore, hline, hmem, fun _ => ⟨hctxs, hmoved, hthr⟩, nofun⟩
    | false =>
      have htake := State.takeRead_ok (maxLen := len) (State.me_of_thread ha) hc hl hwf hcur hx hr ho haddr hlen rfl
      obtain ⟨t, ht, honly, hout, hthr⟩ :=
        State.callTake_won (k := .read) htake ha (State.nowThread_setThr u _ rfl) .rx
      obtain ⟨hctx, hcore, hline, hmem⟩ := ((State.onlyThreads_setThr _ _ _).trans honly).onlyCtx
      refine ⟨t, ht, hcore, hline, hmem, nofun, fun _ r hk => ?_⟩
      subst hk
      exact ⟨hout, hthr, hctx⟩
  · intro i hi hin hcur hx
    rw [exec_write_atTake hin hi]
    obtain ⟨ha, _, _, _⟩ := hin
    cases ho : x.hwOwned with
    | true =>
      have htake := State.takeWrite_notReady (maxLen := len) hc hl hwf hcur hx hr ho
      obtain ⟨t, ht, honly, hmoved, hthr⟩ := State.callTake_lost (k := .write) htake ha .tx
      obtain ⟨hctxs, hcore, hline, hmem⟩ := honly.frame
      exact ⟨t, ht, hcore, hline, fun _ => ⟨hctxs, hmem, hmoved, hthr⟩, nofun⟩
    | false =>
      have htake := State.takeWrite_ok (maxLen := len) (State.me_of_thread ha) hc hl hwf hcur hx hr ho haddr rfl
      obtain ⟨t, ht, honly, hout, hthr⟩ :=
        State.callTake_won (k := .write) htake ha (State.nowThread_of_threads u rfl) .tx
      obtain ⟨hctx, hcore, hline, hmem⟩ := honly.onlyCtx
      refine ⟨t, ht, hcore, hline, nofun, fun _ r hk => ?_⟩
      subst hk
      refine ⟨hout, hthr, fun j b hj hb => ?_, fun a ha => ?_, hctx⟩
      · rw [hmem]
        exact read_writeBytes_getElem? (by rwa [List.getElem?_take_of_lt hj])
      · rw [hmem]
        exact read_writeBytes_outside (by rw [List.length_take]; omega) ha

/-! The operations on a gate (R297 to R299). -/

/-- Settles O34: the emptied gate is `Ctx.wakeAll`. -/
theorem signalWakesOneDirection : Obligations.SignalWakesOneDirection := by
  refine ⟨fun n d hn => ?_, fun s n d hfree => ?_⟩
  · rw [encode_toNat (by simp [Instr.wf, instOk, hn])]
    simp only [encodeFields]
    omega
  · rw [exec, execSignal, State.issue_freeSoftware hfree]
    refine ⟨fun h => ?_, fun c hc hl => ?_⟩
    · rw [State.laidOutCtx_error h, State.orRaise_error]
      exact ⟨_, rfl, s.faults_raise _⟩
    · rw [State.laidOutCtx_of hc hl, State.orRaise_ok]
      exact ⟨_, (c.wakeAll d).gate, rfl, s.onlyCtx_finish n _ _ _, State.returns_finish _ _ rfl rfl, c.wakeAll_gate d⟩

/-- Settles O35: the environment has no `ret`, so the flag is all that a thread sees. -/
theorem cancelSetsFlag : Obligations.CancelSetsFlag := by
  refine ⟨fun u hu => ?_, fun s u ha => ?_⟩
  · rw [encode_toNat (by simpa [Instr.wf, immOk] using hu)]
    simp only [encodeFields]
    omega
  · rw [exec, execCancel, State.issue_env ha]
    refine ⟨fun hu => ⟨_, if_neg (by simpa using hu), s.faults_raise _⟩, fun hu => ⟨_, if_pos (by simpa using hu), ?_⟩⟩
    rw [State.finish_of_not_thread _ _ _ (by simp [ha])]
    exact ⟨State.nowThread_setThr u _ rfl, fun _ => rfl, ⟨rfl, rfl, rfl, rfl, rfl, rfl, rfl⟩, ⟨rfl, rfl⟩, fun _ => rfl, rfl⟩

/-- Settles O36: the step is enabled exactly while the thread waits, and then takes it out of the gate. -/
theorem spuriousWakeRemovesOneWaiter : Obligations.SpuriousWakeRemovesOneWaiter := by
  refine ⟨fun n d u hn hu => ?_, fun s n u d c ha hc => ?_⟩
  · rw [encode_toNat (by simp [Instr.wf, instOk, immOk, hn, hu])]
    simp only [encodeFields]
    omega
  · rw [exec, execSpuriousWake, State.issue_env ha, hc]
    exact ⟨fun hu => ⟨_, if_neg (by simpa using hu), s.waits_hold⟩, fun hu =>
      ⟨_, (c.dequeue d u).gate, if_pos (by simpa using hu), s.onlyCtx_moved n _, fun _ => rfl, rfl,
        c.mem_dequeue_gate d u, fun _ he => c.dequeue_gate_ne u he⟩⟩

end Sys2Proof.Machine
end

section
/-! Proofs of the gate family: what a step of a call can do in every state (44_gate.md R302), phase by phase. -/

namespace Sys2Proof.Machine

/-- What the phases of a wait may write: threads, the fault record, the delivery and the gates of context `n`. -/
inductive State.Waited (s : State) (n : Nat) : State → Prop
  | kept (threads : Table Thread) (fault : Option FaultRec) (out : Delivery) :
      Waited s n { s with threads := threads, fault := fault, out := out }
  | gated {c : Ctx} (hc : s.ctx? n = some c) (gate : PerDir (List Nat)) (threads : Table Thread)
      (fault : Option FaultRec) (out : Delivery) :
      Waited s n { s.setCtx n { c with gate := gate } with threads := threads, fault := fault, out := out }

theorem State.Waited.of_onlyThreads {s t : State} (h : s.OnlyThreads t) (n : Nat) : s.Waited n t := by
  obtain ⟨threads, out, rfl⟩ := h
  exact .kept threads s.fault out

theorem State.Waited.of_gate {s t : State} {n : Nat} {c : Ctx} (hc : s.ctx? n = some c) (gate : PerDir (List Nat))
    (h : (s.setCtx n { c with gate := gate }).OnlyThreads t) : s.Waited n t := by
  obtain ⟨threads, out, rfl⟩ := h
  exact .gated hc gate threads s.fault out

/-- Every context is there still, with at most other gates. -/
theorem State.Waited.ctx? {s t : State} {n : Nat} (h : s.Waited n t) (m : Nat) :
    (t.ctx? m = none ↔ s.ctx? m = none)
      ∧ ∀ e, t.ctx? m = some e → ∃ (c : Ctx) (g : PerDir (List Nat)), s.ctx? m = some c ∧ e = { c with gate := g } := by
  cases h with
  | kept => exact ⟨Iff.rfl, fun e he => ⟨e, e.gate, he, rfl⟩⟩
  | @gated c hc gate threads fault out =>
    change ((s.setCtx n _).ctx? m = none ↔ _) ∧ ∀ e, (s.setCtx n _).ctx? m = some e → _
    by_cases hm : m = n
    · rw [hm, State.ctx?_setCtx_self]
      exact ⟨by simp [hc], fun e he => ⟨c, gate, hc, (Option.some.inj he).symm⟩⟩
    · rw [State.ctx?_setCtx_ne _ _ hm]
      exact ⟨Iff.rfl, fun e he => ⟨e, e.gate, he, rfl⟩⟩

theorem State.Waited.frame {s t : State} {n : Nat} (h : s.Waited n t) :
    s.sameMem t ∧ s.sameLine t ∧ t.liveBuffers = s.liveBuffers := by
  cases h <;> exact ⟨fun _ => rfl, ⟨rfl, rfl⟩, rfl⟩

/-! Every way a phase ends. -/

section
variable {s t : State} {k : CallKind} {n len : Nat} {d : Dir}

/-- A step of a call is a hold, an `Entry`, or the phase its thread is at. -/
theorem State.blockingCall_next (h : s.blockingCall k n d len = .next t) :
    t = s.hold ∨ (∃ ok, s.callEntry k n d len ok = .next t)
      ∨ ∃ ph, (s.thr s.me).phase = .inCall k n d ph ∧ s.callPhase k n d ph len = .next t := by
  unfold State.blockingCall at h
  split at h
  · cases h
  · exact .inr (.inl ⟨false, h⟩)
  · split at h
    · exact .inr (.inl ⟨true, h⟩)
    · next hphase =>
      split at h
      · next hcall =>
        obtain ⟨rfl, rfl, rfl, _⟩ := hcall
        exact .inr (.inr ⟨_, hphase, h⟩)
      · exact .inl (next_inj h).symm

theorem State.callEntry_next {ok : Bool} (h : s.callEntry k n d len ok = .next t) :
    (∃ tr, t = s.raise tr) ∨ t = s.waitDone k n d len ∨ t = s.inPhase k n d .prep len := by
  rcases State.orRaise_next h with ⟨tr, _, rfl⟩ | ⟨c, _, h⟩
  · exact .inl ⟨tr, rfl⟩
  · rcases State.orRaise_next h with ⟨tr, _, rfl⟩ | ⟨p, _, h⟩
    · exact .inl ⟨tr, rfl⟩
    · cases p
      · exact .inr (.inr (next_inj h).symm)
      · exact .inr (.inl (next_inj h).symm)

theorem State.callPrep_next (h : s.callPrep k n d len = .next t) :
    (∃ tr, t = s.raise tr) ∨ ∃ c, s.ctx? n = some c
      ∧ ((∃ tr, t = (s.setCtx n (c.enqueue d s.me)).raise tr)
        ∨ t = (s.setCtx n (c.dequeue d s.me)).waitDone k n d len
        ∨ ((s.thr s.me).cancel = true
          ∧ t = ((s.setCtx n (c.dequeue d s.me)).setThr s.me { s.thr s.me with cancel := false }).callReturn .canceled 0)
        ∨ t = (s.setCtx n (c.enqueue d s.me)).inPhase k n d .sleep len) := by
  unfold State.callPrep at h
  split at h
  · exact .inl ⟨_, (next_inj h).symm⟩
  · next c hc =>
    refine .inr ⟨c, hc, ?_⟩
    rcases State.orRaise_next h with ⟨tr, _, rfl⟩ | ⟨p, _, h⟩
    · exact .inl ⟨tr, rfl⟩
    · split at h
      · exact .inr (.inl (next_inj h).symm)
      · split at h
        · next hcancel => exact .inr (.inr (.inl ⟨hcancel, (next_inj h).symm⟩))
        · exact .inr (.inr (.inr (next_inj h).symm))

theorem State.callSleep_next (h : s.callSleep k n d len = .next t) : t = s.hold ∨ t = s.inPhase k n d .prep len := by
  unfold State.callSleep at h
  split at h
  · exact .inl (next_inj h).symm
  · exact .inr (next_inj h).symm

/-! What they write. -/

theorem State.callEntry_waited {ok : Bool} (h : s.callEntry k n d len ok = .next t) : s.Waited n t := by
  rcases State.callEntry_next h with ⟨tr, rfl⟩ | rfl | rfl
  · exact .kept s.threads _ _
  · exact .of_onlyThreads (s.onlyThreads_waitDone ..) n
  · exact .of_onlyThreads (s.onlyThreads_inPhase ..) n

theorem State.callPrep_waited (h : s.callPrep k n d len = .next t) : s.Waited n t := by
  rcases State.callPrep_next h with ⟨tr, rfl⟩ | ⟨c, hc, ⟨tr, rfl⟩ | rfl | ⟨_, rfl⟩ | rfl⟩
  · exact .kept s.threads _ _
  · exact .gated hc (c.enqueue d s.me).gate s.threads _ _
  · exact .of_gate hc (c.dequeue d s.me).gate (State.onlyThreads_waitDone ..)
  · exact .of_gate hc (c.dequeue d s.me).gate ((State.onlyThreads_setThr _ _ _).trans (State.onlyThreads_callReturn ..))
  · exact .of_gate hc (c.enqueue d s.me).gate (State.onlyThreads_inPhase ..)

theorem State.callSleep_waited (h : s.callSleep k n d len = .next t) : s.Waited n t := by
  rcases State.callSleep_next h with rfl | rfl
  · exact .of_onlyThreads s.onlyThreads_hold n
  · exact .of_onlyThreads (s.onlyThreads_inPhase ..) n

theorem State.blockingCall_waited (h : s.blockingCall k n d len = .next t)
    (hp : (s.thr s.me).phase ≠ .inCall k n d .take) : s.Waited n t := by
  rcases State.blockingCall_next h with rfl | ⟨ok, h⟩ | ⟨ph, hph, h⟩
  · exact .of_onlyThreads s.onlyThreads_hold n
  · exact State.callEntry_waited h
  · cases ph with
    | entry => exact State.callEntry_waited h
    | prep => exact State.callPrep_waited h
    | sleep => exact State.callSleep_waited h
    | take => exact absurd hph hp

/-! Which of them delivers `Canceled`. -/

@[simp] theorem State.waitDone_out_ne_canceled (s : State) (k : CallKind) (n : Nat) (d : Dir) (len : Nat) (v : Value) :
    (s.waitDone k n d len).out ≠ .result ⟨.canceled, v⟩ := by
  cases k <;> simp [State.waitDone]

theorem State.callEntry_out_ne_canceled {ok : Bool} (h : s.callEntry k n d len ok = .next t) (v : Value) :
    t.out ≠ .result ⟨.canceled, v⟩ := by
  rcases State.callEntry_next h with ⟨tr, rfl⟩ | rfl | rfl
  · simp
  · simp
  · simp

theorem State.callTake_out_ne_canceled (h : s.callTake k n d len = .next t) (v : Value) :
    t.out ≠ .result ⟨.canceled, v⟩ := by
  unfold State.callTake at h
  split at h <;> cases h
  · simp
  · simp
  · next hu =>
    obtain ⟨r, hr⟩ := s.takeOf_raisesFaults k n len _ hu
    simp [hr]

theorem State.callPrep_canceled {v : Value} (h : s.callPrep k n d len = .next t) (hv : t.out = .result ⟨.canceled, v⟩) :
    v = .num 0 ∧ (s.thr s.me).cancel = true ∧ (t.thr s.me).cancel = false := by
  rcases State.callPrep_next h with ⟨tr, rfl⟩ | ⟨c, _, ⟨tr, rfl⟩ | rfl | ⟨hcancel, rfl⟩ | rfl⟩
  · simp at hv
  · simp at hv
  · simp at hv
  · rw [State.callReturn_out] at hv
    cases hv
    exact ⟨rfl, hcancel, by rw [State.callReturn_cancel, State.thr_setThr_self]⟩
  · simp at hv

theorem State.blockingCall_canceled {v : Value} (h : s.blockingCall k n d len = .next t)
    (hv : t.out = .result ⟨.canceled, v⟩) :
    v = .num 0 ∧ (s.thr s.me).phase = .inCall k n d .prep ∧ (s.thr s.me).cancel = true
      ∧ (t.thr s.me).cancel = false := by
  rcases State.blockingCall_next h with rfl | ⟨ok, h⟩ | ⟨ph, hph, h⟩
  · simp at hv
  · exact absurd hv (State.callEntry_out_ne_canceled h v)
  · cases ph with
    | entry => exact absurd hv (State.callEntry_out_ne_canceled h v)
    | prep =>
      obtain ⟨hnum, hcancel, hcleared⟩ := State.callPrep_canceled h hv
      exact ⟨hnum, hph, hcancel, hcleared⟩
    | sleep => rcases State.callSleep_next h with rfl | rfl <;> simp at hv
    | take => exact absurd hv (State.callTake_out_ne_canceled h v)

end

/-- Settles O37: outside `Take` a step of a call writes at most gates, and only `Prep` delivers `Canceled`. -/
theorem waitingChangesNoRing : Obligations.WaitingChangesNoRing := by
  intro s t i k n len d hi h
  rw [exec_of_isCall hi] at h
  refine ⟨fun hp => ?_, fun v hv => State.blockingCall_canceled h hv⟩
  have hwaited := State.blockingCall_waited h hp
  obtain ⟨hmem, hline, hlive⟩ := hwaited.frame
  exact ⟨hmem, hline, hlive, hwaited.ctx?⟩

end Sys2Proof.Machine
end

section
/-! Proofs of the registry family: an operation writes one slot of the registry (45_registry.md R335), and only a context that
is not `Active` leaves it (R337). -/

namespace Sys2Proof.Machine

/-- What an effect on instance `n` writes into the registry: nothing, the slot `n`, or that slot is emptied of a context that
is not `Active`. -/
theorem Effect.ctxs_cases {s t : State} {n : Nat} {p : Part} (h : Effect s n p t) :
    t.ctxs = s.ctxs ∨ (∃ e, t.ctxs = s.ctxs.put n e)
      ∨ ∃ c, s.ctx? n = some c ∧ c.life ≠ .active ∧ t.ctxs = s.ctxs.erase n := by
  cases h with
  | quiet h | cut _ _ _ h | stranded _ h => exact .inl h.ctxs
  | dropped hc hl h => exact .inr (.inr ⟨_, hc, by simp [hl], h.ctxs⟩)
  | released hc hl h => exact .inr (.inr ⟨_, hc, by rcases hl with hl | hl <;> simp [hl], h.ctxs⟩)
  | control _ _ h | send _ _ _ _ _ _ _ h | drain _ _ _ _ h | filled _ _ _ _ _ _ _ _ h | sent _ _ _ _ _ _ _ h
    | born _ _ _ h | laid _ _ _ h | started _ _ _ h | stopped _ _ _ h | unregistered _ _ h =>
    exact .inr (.inl ⟨_, h.ctxs⟩)

theorem Effect.ctx?_ne {s t : State} {n m : Nat} {p : Part} (h : Effect s n p t) (hm : m ≠ n) : t.ctx? m = s.ctx? m := by
  unfold State.ctx?
  rcases h.ctxs_cases with he | ⟨e, he⟩ | ⟨c, _, _, he⟩ <;> rw [he]
  · exact Table.lookup_put_ne _ _ hm
  · exact Table.lookup_erase_ne _ hm

theorem Effect.not_active_of_gone {s t : State} {n m : Nat} {p : Part} {c : Ctx} (h : Effect s n p t)
    (hc : s.ctx? m = some c) (hgone : t.ctx? m = none) : c.life ≠ .active := by
  obtain rfl : m = n := Classical.not_not.mp fun hm => by simp [h.ctx?_ne hm, hc] at hgone
  rcases h.ctxs_cases with he | ⟨e, he⟩ | ⟨d, hd, hl, _⟩
  · rw [State.ctx?, he] at hgone
    exact absurd (hc.symm.trans hgone) nofun
  · simp [State.ctx?, he] at hgone
  · cases hc.symm.trans hd
    exact hl

/-- Settles O48: an effect stays on the context that the operation may write. -/
theorem instancesAreIsolated : Obligations.InstancesAreIsolated := by
  intro s t i m h hname hbringup
  rcases exec_effect h with hsame | ⟨n, hwrites, heffect⟩
  · exact hsame.ctx? m
  · refine heffect.ctx?_ne ?_
    rintro rfl
    rcases hwrites with hn | ⟨rfl, hn⟩
    · exact absurd hn (by simp [hname])
    · obtain ⟨hnext, hop⟩ := hbringup rfl
      exact hn.elim hnext hop

/-- Settles O51: the context that is gone was not `Active`, and a well-formed one that is not has everything off. -/
theorem buffersReleasedAfterDmaOff : Obligations.BuffersReleasedAfterDmaOff := by
  intro s t n c hok h hc hgone
  obtain ⟨u, m, p, hsame, heffect⟩ := step_effect h
  have hl : c.life ≠ .active := heffect.not_active_of_gone ((hsame.ctx? n).trans hc) hgone
  obtain ⟨hcontrol, _⟩ := hok n c hc
  obtain ⟨hhandler, hdma, _⟩ := Ctx.off_of_controlOk hcontrol hl
  exact ⟨congrArg PerDir.rx hdma, congrArg PerDir.tx hdma, hhandler, hl⟩

end Sys2Proof.Machine
end

section
/-! Proofs of the registry family: BRINGUP and TEARDOWN, step by step (45_registry.md R332, R336). Each step goes on, which is
`State.moved`, or ends the Host's operation, which is `State.hostDone`. -/

namespace Sys2Proof.Machine

theorem State.nowCtx.moved {s t : State} {n : Nat} {c : Ctx} (h : s.nowCtx t n c) : s.nowCtx t.moved n c := h

theorem State.laidRing.moved {s t : State} {n : Nat} {c : Ctx} {addrs : List Addr} (h : s.laidRing t n c addrs) :
    s.laidRing t.moved n c addrs := h

/-! The end of the Host's operation. -/

/-- The Host's operation is over, with these contexts in the registry and this many buffers held. -/
def State.hostDone (s : State) (ctxs : Table Ctx) (live : Nat) : State :=
  { s with ctxs := ctxs, liveBuffers := live, hostOp := .idle }

theorem State.hostDone_finish (s : State) (ctxs : Table Ctx) (live : Nat) (code : Code) (v : Value) {t : State}
    (h : t = (s.hostDone ctxs live).finish code v) :
    t.hostOp = .idle ∧ t.liveBuffers = live ∧ t.nextId = s.nextId ∧ t.cfg = s.cfg ∧ t.fault = s.fault ∧ s.sameLine t
      ∧ s.sameMem t ∧ s.returns t code v := by
  subst h
  exact ⟨State.finish_hostOp .., State.finish_liveBuffers .., State.finish_nextId .., State.finish_cfg ..,
    State.finish_fault .., ⟨State.finish_lineOut .., State.finish_linePending ..⟩,
    fun _ => by rw [State.finish_mem, State.hostDone], State.returns_finish _ _ rfl rfl⟩

/-- The end that empties a slot. -/
theorem State.hostDone_gone (s : State) (n live : Nat) (code : Code) (v : Value) {t : State}
    (h : t = (s.hostDone (s.ctxs.erase n) live).finish code v) :
    t.ctx? n = none ∧ (∀ m, m ≠ n → t.ctx? m = s.ctx? m) ∧ t.hostOp = .idle ∧ t.liveBuffers = live
      ∧ t.nextId = s.nextId ∧ t.cfg = s.cfg ∧ t.fault = s.fault ∧ s.sameLine t ∧ s.sameMem t ∧ s.returns t code v := by
  have hctxs : t.ctxs = s.ctxs.erase n := by rw [h, State.finish_ctxs, State.hostDone]
  refine ⟨?_, fun m hm => ?_, State.hostDone_finish s _ live code v h⟩
  · rw [State.ctx?, hctxs, Table.lookup_erase_self]
  · rw [State.ctx?, hctxs, Table.lookup_erase_ne _ hm, State.ctx?]

/-! BRINGUP. -/

theorem exec_bringup_idleHost {s : State} (h : s.idleHost) : exec .bringup s = s.bringupAllocate := by
  obtain ⟨ha, hop⟩ := h
  simp [exec, execBringup, State.admit_host ha, hop]

section
variable {s : State} {id : Nat} {c : Ctx} (ha : s.cur.agent = .host) (hop : s.hostOp = .inBringup id)
  (hc : s.ctx? id = some c)
include ha hop hc

theorem exec_bringup_allocated (hl : c.life = .allocated) : exec .bringup s = s.bringupLayOut id c := by
  simp [exec, execBringup, State.admit_host ha, hop, hc, hl]

theorem exec_bringup_initialized (hl : c.life = .initialized) : exec .bringup s = s.bringupActivate id c := by
  simp [exec, execBringup, State.admit_host ha, hop, hc, hl]

end

/-- Settles O38: step 1 refuses or puts `Ctx.fresh` under the next id. -/
theorem bringupHandsOutNextId : Obligations.BringupHandsOutNextId := by
  refine ⟨by decide, fun s hidle => ?_⟩
  rw [exec_bringup_idleHost hidle, State.bringupAllocate]
  refine ⟨fun h => ⟨_, if_pos h, s.onlyReturns_finish _ _⟩, fun h => ⟨_, if_neg h, ?_⟩⟩
  exact ⟨(State.nowCtx_setCtx _ _ rfl).moved, rfl, rfl, rfl, rfl, rfl, ⟨rfl, rfl⟩, fun _ => rfl, fun _ => rfl, rfl⟩

/-- Settles O39: step 2 is the layout of RING_INIT, whose failure empties the slot. -/
theorem bringupLaysOutRing : Obligations.BringupLaysOutRing := by
  intro s id c ha hop hc hl
  rw [exec_bringup_allocated ha hop hc hl, State.bringupLayOut]
  refine ⟨fun addrs hwf hrise harea halloc hlegal => ?_, fun hfails => ?_⟩
  · rw [State.layOut_eq_laid hlegal c hwf hrise harea halloc]
    exact ⟨_, rfl, (State.laidRing_withRing hlegal c).moved, fun _ => rfl, rfl⟩
  · rw [State.layOut_eq_failed hfails]
    exact ⟨_, rfl, s.hostDone_gone id s.liveBuffers _ _ rfl⟩

/-- Settles O40: step 3 is `Ctx.activate`, or releases the ring and empties the slot. -/
theorem bringupActivates : Obligations.BringupActivates := by
  intro s id c ha hop hc hl
  rw [exec_bringup_initialized ha hop hc hl, State.bringupActivate]
  refine ⟨fun hok => ⟨_, if_pos hok, (State.nowCtx_setCtx id _ rfl).finish, ?_⟩,
    fun hfails => ⟨_, if_neg (by simp [hfails]), ?_⟩⟩
  · exact s.hostDone_finish (s.ctxs.put id (c.activate s.cur.draws.evtDraw)) s.liveBuffers _ _ rfl
  · exact s.hostDone_gone id (s.liveBuffers - s.cfg.slots) _ _ rfl

/-! TEARDOWN. -/

theorem exec_teardown_idleHost {s : State} (h : s.idleHost) (n : Nat) : exec (.teardown n) s = s.teardownStop n := by
  obtain ⟨ha, hop⟩ := h
  simp [exec, execTeardown, State.admit_host ha, hop]

section
variable {s : State} {n : Nat} {err : Bool} {c : Ctx} (ha : s.cur.agent = .host) (hop : s.hostOp = .inTeardown n err)
  (hc : s.ctx? n = some c)
include ha hop hc

theorem exec_teardown_stopped (hl : c.life = .stopped) : exec (.teardown n) s = s.teardownUnregister n err c := by
  simp [exec, execTeardown, State.admit_host ha, hop, hc, hl]

theorem exec_teardown_unregistered (hl : c.life = .unregistered) : exec (.teardown n) s = s.teardownRelease n err := by
  simp [exec, execTeardown, State.admit_host ha, hop, hc, hl]

end

theorem Thread.insideCall_iff {th : Thread} {n : Nat} :
    th.insideCall n = true ↔ ∃ k d ph, th.phase = .inCall k n d ph := by
  unfold Thread.insideCall
  cases th.phase with
  | idle => simp
  | inCall k m d ph => simp

theorem State.callerInside_iff {s : State} {n : Nat} :
    s.callerInside n = true ↔ ∃ u k d ph, u ∈ s.cfg.threads ∧ (s.thr u).phase = .inCall k n d ph := by
  simp [State.callerInside, Thread.insideCall_iff]

/-- Settles O42: the checks of step 1 in their order, then `Ctx.stop`. -/
theorem teardownStopsInterruptsFirst : Obligations.TeardownStopsInterruptsFirst := by
  intro s n hidle
  rw [exec_teardown_idleHost hidle, State.teardownStop]
  refine ⟨fun h => ?_, fun c hc hl => ?_⟩
  · rw [State.activeCtx_error h, State.orRaise_error]
    exact ⟨_, rfl, s.faults_raise _⟩
  · rw [State.activeCtx_ok.mpr ⟨hc, hl⟩, State.orRaise_ok]
    refine ⟨fun hd => ⟨_, if_neg hd, s.waits_hold⟩, fun hd hin => ?_, fun hd hout => ?_⟩ <;> rw [if_pos hd]
    · exact ⟨_, if_pos (State.callerInside_iff.mpr hin), s.faults_raise _⟩
    · have hnone : ¬ s.callerInside n = true := fun h =>
        have ⟨u, k, d, ph, hu, hph⟩ := State.callerInside_iff.mp h
        hout u k d ph hu hph
      exact ⟨_, if_neg hnone, (State.nowCtx_setCtx n _ rfl).moved, rfl, rfl, rfl, rfl, rfl, ⟨rfl, rfl⟩, fun _ => rfl,
        fun _ => rfl, rfl⟩

/-- Settles O43: step 2 writes only `life` and `host_op`, step 3 empties the slot and reports the error `host_op` kept. -/
theorem teardownUnregistersThenReleases : Obligations.TeardownUnregistersThenReleases := by
  intro s n err c ha hop hc
  refine ⟨fun hl => ?_, fun hl => ?_⟩
  · rw [exec_teardown_stopped ha hop hc hl, State.teardownUnregister]
    exact ⟨_, rfl, (State.nowCtx_setCtx n _ rfl).moved, rfl, rfl, rfl, rfl, rfl, ⟨rfl, rfl⟩, fun _ => rfl, fun _ => rfl,
      rfl⟩
  · rw [exec_teardown_unregistered ha hop hc hl, State.teardownRelease]
    exact ⟨_, rfl, s.hostDone_gone n (s.liveBuffers - s.cfg.slots) _ _ rfl⟩

end Sys2Proof.Machine
end

section
/-! Proofs of the registry family: the routing of an id and a thread's binding (45_registry.md R334, R338, R339). -/

namespace Sys2Proof.Machine

/-- Settles O41: a free agent is let through, and `State.activeCtx` routes exactly the `Active` instances. -/
theorem lookupRoutesActiveIds : Obligations.LookupRoutesActiveIds := by
  refine ⟨fun n hn => ?_, fun s n hfree => ?_⟩
  · rw [encode_toNat (by simpa [Instr.wf, instOk] using hn)]
    simp only [encodeFields]
    omega
  · rw [exec, execLookup, State.issue_freeAgent hfree]
    refine ⟨fun h => ?_, fun c hc hl => ?_⟩
    · rw [State.activeCtx_error h, State.orRaise_error]
      exact ⟨_, rfl, s.faults_raise _⟩
    · rw [State.activeCtx_ok.mpr ⟨hc, hl⟩, State.orRaise_ok]
      exact ⟨_, rfl, s.onlyReturns_finish _ _⟩

/-- An idle thread's binding is replaced, and nothing else but its result changes. -/
theorem State.binds {s : State} {u : Nat} (h : s.idleThread u) (bound : Option Nat) {t : State}
    (ht : t = (s.setThr s.me { s.thr s.me with bound := bound }).finish .ok (.num 0)) :
    s.nowThread t u { s.thr u with bound := bound, ret := ⟨.ok, .num 0⟩ } ∧ t.out = .result ⟨.ok, .num 0⟩
      ∧ s.sameCtxs t ∧ s.sameCore t ∧ s.sameLine t ∧ s.sameMem t := by
  obtain ⟨ha, _, _⟩ := h
  rw [State.me_of_thread ha] at ht
  subst ht
  exact ⟨State.nowThread.finish (State.nowThread_setThr u _ rfl) ha, State.finish_out ..,
    ((s.onlyThreads_setThr _ _).trans (State.onlyThreads_finish _ _ _)).frame⟩

/-- Settles O44: the instance is looked up before the context (60_exceptions.md R414). -/
theorem openBindsCaller : Obligations.OpenBindsCaller := by
  refine ⟨fun n hn => ?_, fun s n => ⟨fun hi h => ?_, fun c hc hl => ⟨fun ha => ?_, fun u hu => ?_⟩⟩⟩
  · rw [encode_toNat (by simpa [Instr.wf, instOk] using hn)]
    simp only [encodeFields]
    omega
  · obtain ⟨ok, hissue⟩ := State.issue_threadCall hi
    rw [exec, execOpenInst, hissue, State.activeCtx_error h, State.orRaise_error]
    exact ⟨_, rfl, s.faults_raise _⟩
  · rw [exec, execOpenInst, State.issue_dispatcher ha, State.activeCtx_ok.mpr ⟨hc, hl⟩]
    exact ⟨_, rfl, s.faults_raise _⟩
  · rw [exec, execOpenInst, State.issue_idleThread hu, State.activeCtx_ok.mpr ⟨hc, hl⟩]
    exact ⟨_, rfl, State.binds hu (some n) rfl⟩

/-- Settles O45: CLOSE names no instance, so the context is its only check. -/
theorem closeDropsBinding : Obligations.CloseDropsBinding := by
  refine ⟨by decide, fun s => ⟨fun ha => ?_, fun u hu => ?_⟩⟩
  · rw [exec, execCloseInst, State.issue_dispatcher ha]
    exact ⟨_, rfl, s.faults_raise _⟩
  · rw [exec, execCloseInst, State.issue_idleThread hu]
    exact ⟨_, rfl, State.binds hu none rfl⟩

end Sys2Proof.Machine
end

section
/-! Proofs of the exceptions family: the interrupt line (60_exceptions.md R410) as a fact about single bits of `EVT` and `IMASK`. -/

namespace Sys2Proof.Machine

/-- A masked value is not 0 exactly when some bit is set in both. -/
theorem anyBit_iff_exists_bit {v m : Half} :
    anyBit v m = true ↔ ∃ b, b < 16 ∧ v.getLsbD b = true ∧ m.getLsbD b = true := by
  rw [anyBit_iff]
  constructor
  · intro hne
    by_contra hnone
    refine hne (BitVec.eq_of_getLsbD_eq fun b hb => ?_)
    simpa using fun hv hm => hnone ⟨b, hb, hv, hm⟩
  · rintro ⟨b, -, hv, hm⟩ hzero
    have hbit := congrArg (fun x => x.getLsbD b) hzero
    simp [hv, hm] at hbit

theorem State.line_iff {s : State} {n : Nat} {c : Ctx} (hc : s.ctx? n = some c) :
    s.line n = true ↔
      c.handler = true ∧ ∃ b, b < 16 ∧ c.evt.getLsbD b = true ∧ c.imask.getLsbD b = true := by
  simp only [State.line, hc, Ctx.line, Bool.and_eq_true, anyBit_iff_exists_bit]

/-- After a register write the line is that of the context written: the delivery of the result does not touch it. -/
theorem State.line_setCtx_finish_iff (s : State) (n : Nat) (c : Ctx) (code : Code) (v : Value) :
    ((s.setCtx n c).finish code v).line n = true ↔
      c.handler = true ∧ ∃ b, b < 16 ∧ c.evt.getLsbD b = true ∧ c.imask.getLsbD b = true :=
  State.line_iff (by rw [State.ctx?_finish, State.ctx?_setCtx_self])

/-- Settles O29: the line is a bit set in both registers, of which EVT_ACK and IMASK_WRITE rewrite one each. -/
theorem lineFollowsEventsAndMask : Obligations.LineFollowsEventsAndMask := by
  intro s n c hc
  refine ⟨State.line_iff hc, fun hfree hwf hl m => ⟨⟨_, exec_evtAck_laidOut hfree hwf hc hl m, ?_⟩,
    ⟨_, exec_imaskWrite_laidOut hfree hwf hc hl m, ?_⟩⟩⟩
  · rw [State.line_setCtx_finish_iff]
    refine and_congr_right fun _ => exists_congr fun b => and_congr_right fun hb => ?_
    rw [evAck_bit c.evt m b hb, Bool.and_eq_true, Bool.not_eq_true', and_assoc]
  · rw [State.line_setCtx_finish_iff]
    refine and_congr_right fun _ => exists_congr fun b => ?_
    rw [BitVec.getLsbD_and, evAll_bit, Bool.and_eq_true, decide_eq_true_iff]
    constructor
    · exact fun ⟨_, hevt, hm, hb⟩ => ⟨hb, hevt, hm⟩
    · exact fun ⟨hb, hevt, hm⟩ => ⟨by omega, hevt, hm, hb⟩

end Sys2Proof.Machine
end

section
/-! Proofs of the exceptions family: an operation issued in the execution context that 60_exceptions.md R420 denies it. -/

namespace Sys2Proof.Machine

section
variable {s : State} (ha : s.cur.agent = .dispatcher)
include ha

theorem State.mayIssue_hostOnly_dispatcher : s.mayIssue .hostOnly = .wrongContext := by
  simp [State.mayIssue, State.agentExists, Agent.admission, ha]

theorem State.blockingCall_dispatcher (k : CallKind) (n : Nat) (d : Dir) (len : Nat) :
    s.blockingCall k n d len = s.callEntry k n d len false := by
  simp [State.blockingCall, State.mayIssue, State.agentExists, Agent.admission, ha]

/-- The dispatcher is in the wrong context for a blocking call, which it learns after the id is looked up. -/
theorem State.blockingCall_dispatcher_faults (k : CallKind) (n : Nat) (d : Dir) (len : Nat) :
    ∃ t, s.blockingCall k n d len = .next t
      ∧ s.faults t (if s.ctx? n = none then .noSuchInstance else .contextViolation) 0 := by
  rw [State.blockingCall_dispatcher ha, State.callEntry, State.callCtx_wrongContext, State.orRaise_error]
  exact ⟨_, rfl, s.faults_raise _⟩

theorem exec_bringup_dispatcher : exec .bringup s = .next (s.raise (trapOf .contextViolation)) := by
  rw [exec, execBringup, State.mayIssue_hostOnly_dispatcher ha]

theorem exec_ringInit_dispatcher (n : Nat) : exec (.ringInit n) s = .next (s.raise (trapOf .contextViolation)) := by
  rw [exec, execRingInit, State.mayIssue_hostOnly_dispatcher ha]

/-- The instance before the context (60_exceptions.md R414; notes/assumptions/25.md). -/
theorem exec_teardown_dispatcher (n : Nat) :
    exec (.teardown n) s = s.orRaise (s.activeCtx n) fun _ => .next (s.raise (trapOf .contextViolation)) := by
  rw [exec, execTeardown, State.mayIssue_hostOnly_dispatcher ha]

end

/-- Idle threads and the idle Host start IRQ_DISPATCH in thread context. -/
theorem State.issue_dispatch_threadContext {s : State} (h : (∃ u, s.idleThread u) ∨ s.idleHost) (k : Bool → Out) :
    s.issue .dispatch k = k false := by
  rcases h with ⟨u, ha, ht, hp⟩ | ⟨ha, hop⟩
  · exact s.issue_of_wrongContext _ k
      (by simp [State.mayIssue, State.agentExists, Agent.admission, Agent.context, ha, ht]) (State.not_busy_of_idle ha hp)
  · exact s.issue_of_wrongContext _ k
      (by simp [State.mayIssue, State.agentExists, Agent.admission, Agent.context, ha]) (by simp [State.busy, ha, hop])

theorem exec_irqDispatch_threadContext {s : State} (h : (∃ u, s.idleThread u) ∨ s.idleHost) (n : Nat) :
    exec (.irqDispatch n) s
      = .next (s.raise (trapOf (if s.ctx? n = none then .noSuchInstance else .contextViolation))) := by
  rw [exec, execIrqDispatch, State.issue_dispatch_threadContext h]
  cases s.ctx? n <;> rfl

/-- Settles O46: the calls, TEARDOWN, OPEN and IRQ_DISPATCH look the instance up before they check the context
(60_exceptions.md R414); BRINGUP, RING_INIT and CLOSE check the context alone. -/
theorem wrongContextFaults : Obligations.WrongContextFaults := by
  refine ⟨fun s n len d ha i hi => ?_, fun s n ha i hi => ?_, fun s n ha i hi => ?_, fun s n h => ?_⟩
  · simp only [List.mem_cons, List.not_mem_nil, or_false] at hi
    rcases hi with rfl | rfl | rfl | htake
    · exact State.blockingCall_dispatcher_faults ha .wait n d 0
    · exact State.blockingCall_dispatcher_faults ha .read n .rx len
    · exact State.blockingCall_dispatcher_faults ha .write n .tx len
    · exact exec_take_dispatcher_faults ha n len htake
  · simp only [List.mem_cons, List.not_mem_nil, or_false] at hi
    rcases hi with rfl | rfl | rfl
    · exact ⟨_, exec_bringup_dispatcher ha, s.faults_raise _⟩
    · exact ⟨_, exec_ringInit_dispatcher ha n, s.faults_raise _⟩
    · obtain ⟨_, hclose⟩ := closeDropsBinding
      obtain ⟨hdispatcher, _⟩ := hclose s
      exact hdispatcher ha
  · simp only [List.mem_cons, List.not_mem_nil, or_false] at hi
    rcases hi with rfl | rfl
    · rw [exec_teardown_dispatcher ha]
      refine ⟨fun hn => ?_, fun c hc hl => ?_⟩
      · rw [State.activeCtx_error hn]
        exact ⟨_, rfl, s.faults_raise _⟩
      · rw [State.activeCtx_ok.mpr ⟨hc, hl⟩]
        exact ⟨_, rfl, s.faults_raise _⟩
    · obtain ⟨_, hopen⟩ := openBindsCaller
      obtain ⟨habsent, hactive⟩ := hopen s n
      exact ⟨habsent (.inr ha), fun c hc hl => (hactive c hc hl).1 ha⟩
  · exact ⟨_, exec_irqDispatch_threadContext h n, s.faults_raise _⟩

end Sys2Proof.Machine
end

section
/-! Proofs of the exceptions family: an operation of an agent that its row of 60_exceptions.md R420 does not name. Every operation
asks the table about its own row first, so the table alone decides. -/

namespace Sys2Proof

/-- The row of the table of 60_exceptions.md R420 that an operation stands in. -/
def Instr.opClass : Instr → Machine.OpClass
  | .wait .. | .read .. | .write .. | .takeWr .. | .takeRd .. | .openInst _ | .closeInst => .threadCall
  | .bringup | .teardown _ | .ringInit _ => .hostOnly
  | .signal .. | .descAt .. | .evtRead _ | .evtAck .. | .imaskWrite .. => .either
  | .advance .. | .lookup _ => .anyone
  | .irqDispatch _ => .dispatch
  | .cancel _ | .spuriousWake .. => .envOnly
  | .hwRxComplete .. | .hwRxCompleteErr .. | .hwRxBusy _ => .dmaRxOnly
  | .hwTxComplete _ | .hwTxError .. => .dmaTxOnly

end Sys2Proof

namespace Sys2Proof.Machine

section
variable {s : State}

theorem State.issue_of_noStep {cls : OpClass} (h : s.mayIssue cls = .noStep) (k : Bool → Out) :
    s.issue cls k = .refused .noSuchStep := by
  rw [State.issue, h]

theorem State.blockingCall_of_noStep (h : s.mayIssue .threadCall = .noStep) (k : CallKind) (n : Nat) (d : Dir) (len : Nat) :
    s.blockingCall k n d len = .refused .noSuchStep := by
  rw [State.blockingCall, h]

theorem State.atTake_of_noStep (h : s.mayIssue .threadCall = .noStep) (k : CallKind) (n : Nat) (d : Dir) (len : Nat) :
    s.atTake k n d len = false := by
  rw [State.atTake, h]
  rfl

/-- An operation whose row refuses the agent is no step at all. -/
theorem exec_of_noStep {i : Instr} (h : s.mayIssue i.opClass = .noStep) : exec i s = .refused .noSuchStep := by
  cases i with
  | wait n d => exact State.blockingCall_of_noStep h .wait n d 0
  | read n len => exact State.blockingCall_of_noStep h .read n .rx len
  | write n len => exact State.blockingCall_of_noStep h .write n .tx len
  | takeWr n len =>
    rw [exec, execTakeWr, State.atTake_of_noStep h, if_neg Bool.false_ne_true]
    exact State.issue_of_noStep h _
  | takeRd n len =>
    rw [exec, execTakeRd, State.atTake_of_noStep h, if_neg Bool.false_ne_true]
    exact State.issue_of_noStep h _
  | bringup | ringInit | teardown =>
    simp only [Instr.opClass] at h
    simp only [exec, execBringup, execRingInit, execTeardown, h]
  | _ =>
    simp only [Instr.opClass] at h
    simp only [exec, execDescAt, execAdvance, execSignal, execCancel, execSpuriousWake, execEvtRead, execEvtAck,
      execImaskWrite, State.writeRegister, execIrqDispatch, execLookup, execOpenInst, execCloseInst, execHwRxComplete,
      execHwRxCompleteErr, State.rxComplete, execHwRxBusy, execHwTxComplete, execHwTxError, State.engine,
      State.issue_of_noStep h]

theorem exec_of_no_agent {i : Instr} (h : s.agentExists = false) : exec i s = .refused .noSuchStep :=
  exec_of_noStep (by simp [State.mayIssue, h])

theorem exec_of_not_admitted {l : List Instr} (h : ∀ i ∈ l, s.cur.agent.admission i.opClass = .noStep) :
    ∀ i ∈ l, exec i s = .refused .noSuchStep :=
  fun i hi => exec_of_noStep (by simp [State.mayIssue, h i hi])

end

/-! Whom each row of the table leaves out. -/

section
variable {a : Agent}

theorem Agent.admission_envOnly_ne (h : a ≠ .env) : a.admission .envOnly = .noStep := by
  simp [Agent.admission, admitIf, h]

theorem Agent.admission_dmaRxOnly_ne (h : a ≠ .dmaRx) : a.admission .dmaRxOnly = .noStep := by
  simp [Agent.admission, admitIf, h]

theorem Agent.admission_dmaTxOnly_ne (h : a ≠ .dmaTx) : a.admission .dmaTxOnly = .noStep := by
  simp [Agent.admission, admitIf, h]

theorem Agent.admission_hostOnly_ne (hh : a ≠ .host) (hd : a ≠ .dispatcher) : a.admission .hostOnly = .noStep := by
  cases a with
  | host => exact absurd rfl hh
  | dispatcher => exact absurd rfl hd
  | _ => rfl

theorem Agent.admission_threadCall_ne (ht : ∀ u, a ≠ .thread u) (hd : a ≠ .dispatcher) :
    a.admission .threadCall = .noStep := by
  cases a with
  | thread u => exact absurd rfl (ht u)
  | dispatcher => exact absurd rfl hd
  | _ => rfl

/-- `Env` and the engines are in neither execution context. -/
theorem Agent.admission_of_no_context (h : a = .env ∨ a = .dmaRx ∨ a = .dmaTx) :
    a.admission .either = .noStep ∧ a.admission .dispatch = .noStep := by
  rcases h with rfl | rfl | rfl <;> exact ⟨rfl, rfl⟩

end

/-- Settles O47: group by group, the row of the operations leaves the agent out. -/
theorem otherAgentsHaveNoStep : Obligations.OtherAgentsHaveNoStep := by
  intro s n len d lf m
  refine ⟨fun h => exec_of_not_admitted ?_, fun h => exec_of_not_admitted ?_, fun h => exec_of_not_admitted ?_,
    fun hh hd => exec_of_not_admitted ?_, fun ht hd => exec_of_not_admitted ?_, fun h => exec_of_not_admitted ?_,
    fun u i ha hu => exec_of_no_agent (by simp [State.agentExists, ha, hu])⟩
  · simp [Instr.opClass, Agent.admission_envOnly_ne h]
  · simp [Instr.opClass, Agent.admission_dmaRxOnly_ne h]
  · simp [Instr.opClass, Agent.admission_dmaTxOnly_ne h]
  · simp [Instr.opClass, Agent.admission_hostOnly_ne hh hd]
  · simp [Instr.opClass, Agent.admission_threadCall_ne ht hd]
  · simp [Instr.opClass, Agent.admission_of_no_context h]

end Sys2Proof.Machine
end

section
/-! Proofs of the reset family: the state at driver load (70_reset_and_hazards.md R500, 10_state.md R60) and the invariants that
hold there. -/

namespace Sys2Proof.Machine

/-- Every thread starts as `Thread.initial`: the table lists it for `THREADS`, and no other thread is listed. -/
theorem State.thr_driverLoad (cfg : Config) (u : Nat) : (State.driverLoad cfg).thr u = Thread.initial := by
  unfold State.thr
  cases hl : (State.driverLoad cfg).threads.lookup u with
  | none => rfl
  | some th =>
    obtain ⟨_, _, heq⟩ := List.mem_map.mp (Table.mem_of_lookup hl)
    exact (congrArg Prod.snd heq).symm

theorem State.ctx?_driverLoad (cfg : Config) (n : Nat) : (State.driverLoad cfg).ctx? n = none := rfl

/-- 10_state.md R55: nobody holds a buffer, and the allocator counts none. -/
theorem State.accounted_driverLoad (cfg : Config) : (State.driverLoad cfg).accounted :=
  ⟨List.Pairwise.nil, (Nat.zero_mul cfg.slots).symm⟩

section
variable {s : State} (h : ∀ n, s.ctx? n = none)
include h

/-! What holds of every context holds of none. -/

theorem State.ctxsOk_of_no_ctx : s.ctxsOk :=
  fun n _ hc => by cases (h n).symm.trans hc

theorem State.ringsShaped_of_no_ctx : s.ringsShaped :=
  fun n _ hc => by cases (h n).symm.trans hc

theorem State.idsOk_of_no_ctx (hid : s.nextId ≤ s.cfg.nInst) : s.idsOk :=
  ⟨hid, fun n _ hc => by cases (h n).symm.trans hc⟩

theorem State.buffersApart_of_no_ctx : s.buffersApart :=
  fun n _ _ _ hc => by cases (h n).symm.trans hc

end

/-- Settles O58: every component is read off `State.driverLoad`, the threads through their table. -/
theorem driverLoadState : Obligations.DriverLoadState := by
  refine ⟨rfl, ?_⟩
  rintro cfg _ rfl
  refine ⟨rfl, rfl, State.ctx?_driverLoad cfg, rfl, rfl, rfl, rfl, rfl, fun u => ?_⟩
  rw [State.thr_driverLoad]
  exact ⟨rfl, rfl, rfl⟩

/-- Settles O59: memory and the account are empty, and there is no context for the other invariants to speak of. -/
theorem driverLoadMeetsInvariants : Obligations.DriverLoadMeetsInvariants := by
  rintro cfg _ rfl
  have hno := State.ctx?_driverLoad cfg
  exact ⟨Memory.wf_nil, State.ctxsOk_of_no_ctx hno, State.ringsShaped_of_no_ctx hno,
    State.idsOk_of_no_ctx hno (Nat.zero_le _), State.accounted_driverLoad cfg, State.buffersApart_of_no_ctx hno⟩

end Sys2Proof.Machine
end
